-- ==== Sys2Proof/Word.lean ====
section
/-! DEFINITION. The word types of BLOSC-4: 32-bit register and memory words (spec/20_memory.md R200, R207),
64-bit command words (spec/30_encoding.md R300), and the names of the four binary32 operators (spec/00_scope.md R15). -/

namespace Sys2Proof

/-- A whole 32-bit word: a register, a memory word, or the bit pattern of a binary32 value (R200, R207). -/
abbrev Word := BitVec 32

/-- A whole 64-bit command word (R300). -/
abbrev Cmd := BitVec 64

/-- A byte, met only where a host serializes words (R207). -/
abbrev Byte := BitVec 8

/-- The four f32 operators of R15. -/
inductive FOp where
  | add
  | sub
  | mul
  | div
  deriving DecidableEq, Repr

/-- Where a NaN result takes its bits from (spec/93_implementation_defined.md item 5: "An f32 operation whose
result is NaN may give any NaN").  The list says which operation of the running command is meant, so that two
operations never have to agree. -/
abbrev NanSource := List Nat → FOp → Word → Word → Word

/-- The NaN source of the operations below position `k` of the running command. -/
def NanSource.sub (ν : NanSource) (k : Nat) : NanSource := fun path => ν (k :: path)

end Sys2Proof
end

