-- ==== Sys2Proof/Syntax.lean ====
section
/-! DEFINITION. The commands of BLOSC-4, one constructor per row of spec/opcode_table.json
(spec/30_encoding.md R303).  A core number is a `Fin 4`; `sel` and `aux` are unsigned indices and counts (R302),
bounded by their field widths in WellFormed; `data` is 32 bits used as they are. -/

namespace Sys2Proof

/-- The twelve commands (R303). `sel` is a register or slot number of 6 bits, `aux` a field number of 16 bits and
`n` a count of 16 bits. -/
inductive Instr where
  /-- NOP (R400). -/
  | nop
  /-- RESET (R402). -/
  | reset
  /-- CRESET `core` (R404). -/
  | creset (core : Fin 4)
  /-- WRCFG `core`, `sel`, `data` (R406). -/
  | wrcfg (core : Fin 4) (sel : Nat) (data : Word)
  /-- RDREG `core`, `sel` (R408). -/
  | rdreg (core : Fin 4) (sel : Nat)
  /-- MODINIT `sel`, `data` (R450). -/
  | modinit (sel : Nat) (data : Word)
  /-- MODTICK `sel`, `data` (R454). -/
  | modtick (sel : Nat) (data : Word)
  /-- RDMOD `sel`, `aux` (R458). -/
  | rdmod (sel : Nat) (aux : Nat)
  /-- BEGIN `n` (R500). -/
  | beginBurst (n : Nat)
  /-- RENDER `core` (R550). -/
  | render (core : Fin 4)
  /-- END (R503). -/
  | endBurst
  /-- TICK (R506). -/
  | tick
  deriving DecidableEq, Repr

end Sys2Proof
end

