-- ==== Sys2Proof/WellFormed.lean ====
section
/-! DEFINITION. Well-formed commands: every operand fits its field of the command word (spec/30_encoding.md R301).
Operand values that fit their field but name no register, slot or count are well-formed (R307); the command's own
rule checks them. -/

namespace Sys2Proof

/-- `sel` is six bits wide (R301). -/
def selFits (sel : Nat) : Bool := decide (sel < 64)

/-- `aux` is sixteen bits wide (R301). -/
def auxFits (aux : Nat) : Bool := decide (aux < 65536)

/-- Every operand of the command fits its field (R301, R303). -/
def Instr.wf : Instr → Bool
  | .nop => true
  | .reset => true
  | .creset _ => true
  | .wrcfg _ sel _ => selFits sel
  | .rdreg _ sel => selFits sel
  | .modinit sel _ => selFits sel
  | .modtick sel _ => selFits sel
  | .rdmod sel aux => selFits sel && auxFits aux
  | .beginBurst n => auxFits n
  | .render _ => true
  | .endBurst => true
  | .tick => true

end Sys2Proof
end

