-- ==== Sys2Proof/Decode.lean ====
section
/-! DEFINITION. Command words: the opcode table of spec/30_encoding.md R304, the total decoder of R305, the encoder
of R301, and the little-endian byte form of R207 in which a partial command word is refused (R208). -/

namespace Sys2Proof

/-- One row of the table of R304. -/
structure OpRow where
  mnemonic : String
  matchBits : Cmd
  maskBits : Cmd
  deriving DecidableEq, Repr

/-- The match and mask of each opcode, in the order of the op field (R304). -/
def opcodeTable : List OpRow :=
  [ ⟨"NOP",     0x0000000000000000, 0xFFFFFFFFFFFFFFFF⟩,
    ⟨"RESET",   0x0100000000000000, 0xFFFFFFFFFFFFFFFF⟩,
    ⟨"CRESET",  0x0200000000000000, 0xFF3FFFFFFFFFFFFF⟩,
    ⟨"WRCFG",   0x0300000000000000, 0xFF00FFFF00000000⟩,
    ⟨"RDREG",   0x0400000000000000, 0xFF00FFFFFFFFFFFF⟩,
    ⟨"MODINIT", 0x0500000000000000, 0xFFC0FFFF00000000⟩,
    ⟨"MODTICK", 0x0600000000000000, 0xFFC0FFFF00000000⟩,
    ⟨"RDMOD",   0x0700000000000000, 0xFFC00000FFFFFFFF⟩,
    ⟨"BEGIN",   0x0800000000000000, 0xFFFF0000FFFFFFFF⟩,
    ⟨"RENDER",  0x0900000000000000, 0xFF3FFFFFFFFFFFFF⟩,
    ⟨"END",     0x0A00000000000000, 0xFFFFFFFFFFFFFFFF⟩,
    ⟨"TICK",    0x0B00000000000000, 0xFFFFFFFFFFFFFFFF⟩ ]

/-- `(cmd & mask) = match` (R304). -/
def OpRow.selects (row : OpRow) (cmd : Cmd) : Bool := (cmd &&& row.maskBits) == row.matchBits

/-! ## The fields of R301 -/

/-- `op = cmd[63:56]`. -/
def opField (cmd : Cmd) : Nat := (cmd.extractLsb' 56 8).toNat

/-- `core = cmd[55:54]`. -/
def coreField (cmd : Cmd) : Fin 4 := (cmd.extractLsb' 54 2).toFin

/-- `sel = cmd[53:48]`. -/
def selField (cmd : Cmd) : Nat := (cmd.extractLsb' 48 6).toNat

/-- `aux = cmd[47:32]`. -/
def auxField (cmd : Cmd) : Nat := (cmd.extractLsb' 32 16).toNat

/-- `data = cmd[31:0]`. -/
def dataField (cmd : Cmd) : Word := cmd.extractLsb' 0 32

/-- The command word `{op, core, sel, aux, data}` (R301). -/
def packFields (op : Nat) (core : Fin 4) (sel aux : Nat) (data : Word) : Cmd :=
  BitVec.ofNat 8 op ++ BitVec.ofFin (w := 2) core ++ BitVec.ofNat 6 sel ++ BitVec.ofNat 16 aux ++ data

/-! ## Decoding (R305) -/

/-- What a command word decodes to: a command, or the error its decoding raises (R305). -/
inductive Decoded where
  /-- A command of the table. -/
  | instr (i : Instr)
  /-- The op field is 0x0C..0xFF (R305, R306). -/
  | illegalOp
  /-- A field the opcode does not use is nonzero (R304, R305). -/
  | rsvField
  deriving DecidableEq, Repr

/-- The command of opcode `op` with the operands of R303 taken from the word. -/
def commandOf (op : Nat) (cmd : Cmd) : Option Instr :=
  match op with
  | 0x00 => some .nop
  | 0x01 => some .reset
  | 0x02 => some (.creset (coreField cmd))
  | 0x03 => some (.wrcfg (coreField cmd) (selField cmd) (dataField cmd))
  | 0x04 => some (.rdreg (coreField cmd) (selField cmd))
  | 0x05 => some (.modinit (selField cmd) (dataField cmd))
  | 0x06 => some (.modtick (selField cmd) (dataField cmd))
  | 0x07 => some (.rdmod (selField cmd) (auxField cmd))
  | 0x08 => some (.beginBurst (auxField cmd))
  | 0x09 => some (.render (coreField cmd))
  | 0x0A => some .endBurst
  | 0x0B => some .tick
  | _ => none

/-- Decoding, total on every 64-bit word, its checks in the order of R305. -/
def decode (cmd : Cmd) : Decoded :=
  match opcodeTable[opField cmd]?, commandOf (opField cmd) cmd with
  | some row, some i => if row.selects cmd then .instr i else .rsvField
  | _, _ => .illegalOp

/-! ## Encoding (R301, R303) -/

/-- The op field of a command (R303). -/
def Instr.opcode : Instr → Nat
  | .nop => 0x00
  | .reset => 0x01
  | .creset _ => 0x02
  | .wrcfg _ _ _ => 0x03
  | .rdreg _ _ => 0x04
  | .modinit _ _ => 0x05
  | .modtick _ _ => 0x06
  | .rdmod _ _ => 0x07
  | .beginBurst _ => 0x08
  | .render _ => 0x09
  | .endBurst => 0x0A
  | .tick => 0x0B

/-- The word of a command: its operands in their fields, every other field zero (R301, R303). -/
def encode (i : Instr) : Cmd :=
  match i with
  | .nop => packFields 0x00 0 0 0 0
  | .reset => packFields 0x01 0 0 0 0
  | .creset c => packFields 0x02 c 0 0 0
  | .wrcfg c sel data => packFields 0x03 c sel 0 data
  | .rdreg c sel => packFields 0x04 c sel 0 0
  | .modinit sel data => packFields 0x05 0 sel 0 data
  | .modtick sel data => packFields 0x06 0 sel 0 data
  | .rdmod sel aux => packFields 0x07 0 sel aux 0
  | .beginBurst n => packFields 0x08 0 0 n 0
  | .render c => packFields 0x09 c 0 0 0
  | .endBurst => packFields 0x0A 0 0 0 0
  | .tick => packFields 0x0B 0 0 0 0

/-! ## Serialized words (R207, R208) -/

/-- A 32-bit word as bytes, the byte with bits 7:0 first (R207). -/
def wordBytes (w : Word) : List Byte :=
  [w.extractLsb' 0 8, w.extractLsb' 8 8, w.extractLsb' 16 8, w.extractLsb' 24 8]

/-- A command word as bytes, the byte with bits 7:0 first (R207). -/
def cmdBytes (cmd : Cmd) : List Byte :=
  [cmd.extractLsb' 0 8, cmd.extractLsb' 8 8, cmd.extractLsb' 16 8, cmd.extractLsb' 24 8,
   cmd.extractLsb' 32 8, cmd.extractLsb' 40 8, cmd.extractLsb' 48 8, cmd.extractLsb' 56 8]

/-- The command words that a run of bytes carries, little-endian (R207); none where a partial word is left over,
which has no meaning (R208). -/
def cmdsOfBytes : List Byte → Option (List Cmd)
  | [] => some []
  | b0 :: b1 :: b2 :: b3 :: b4 :: b5 :: b6 :: b7 :: rest =>
    (cmdsOfBytes rest).map fun cs => (b7 ++ b6 ++ b5 ++ b4 ++ b3 ++ b2 ++ b1 ++ b0 : BitVec 64) :: cs
  | _ => none

/-- The decoder on bytes: the first command word of the run and what follows it; none for a partial word (R208). -/
def decodeBytes : List Byte → Option (Decoded × List Byte)
  | b0 :: b1 :: b2 :: b3 :: b4 :: b5 :: b6 :: b7 :: rest =>
    some (decode (b7 ++ b6 ++ b5 ++ b4 ++ b3 ++ b2 ++ b1 ++ b0 : BitVec 64), rest)
  | _ => none

/-- The command word whose low `nbits` bits are those of `w` and whose other bits are zero. -/
def tableWord (nbits w : Nat) : Cmd := BitVec.ofNat 64 (w % 2 ^ nbits)

/-- The instruction this decoder reads from a word numbered as spec/opcode_table.json numbers it. -/
def decodeTableWord (nbits w : Nat) : Option Instr :=
  match decodeBytes (cmdBytes (tableWord nbits w)) with
  | some (.instr i, _) => some i
  | _ => none

end Sys2Proof
end

