-- ==== Sys2Proof/Machine/F32.lean ====
section
/-! DEFINITION. IEEE 754 binary32 arithmetic on bit patterns (spec/00_scope.md R15 to R17).  A finite value is an
integer multiple of 2^-149, so every operation computes its exact result in integers and rounds once, to nearest
with ties to even.  Subnormals are kept.  The bits of a NaN result come from a `NanSource`
(spec/93_implementation_defined.md item 5). -/

namespace Sys2Proof.F32

/-! ## Constants -/

def posZero : Word := 0x00000000
def negZero : Word := 0x80000000
def one : Word := 0x3F800000
def negOne : Word := 0xBF800000
def half : Word := 0x3F000000
def negHalf : Word := 0xBF000000
def posInf : Word := 0x7F800000
/-- 2^-24, the lower bound of `wt_s` (spec/43_render.md R560). -/
def twoPowNeg24 : Word := 0x33800000

/-! ## Fields of a pattern -/

/-- The magnitude bits, 30:0. -/
def mag (x : Word) : Nat := x.toNat % 2 ^ 31

/-- The sign bit. -/
def sign (x : Word) : Bool := x.msb

/-- The magnitude bits of an infinity. -/
def infMag : Nat := 0x7F800000

def isNaN (x : Word) : Bool := infMag < mag x
def isInf (x : Word) : Bool := mag x == infMag
def isZero (x : Word) : Bool := mag x == 0

/-- `|x|` of a finite `x`, in units of 2^-149. -/
def units (x : Word) : Nat :=
  if mag x / 2 ^ 23 = 0 then mag x else (2 ^ 23 + mag x % 2 ^ 23) * 2 ^ (mag x / 2 ^ 23 - 1)

/-- A finite `x` in units of 2^-149. -/
def toInt (x : Word) : Int := if sign x then -(units x : Int) else (units x : Int)

/-- The pattern with the given sign and magnitude bits. -/
def pack (neg : Bool) (m : Nat) : Word := BitVec.ofNat 32 (if neg then 2 ^ 31 + m else m)

/-- Change of sign: the sign bit only. -/
def neg (x : Word) : Word := x ^^^ 0x80000000

/-! ## Rounding -/

/-- How many low bits of a value of `q` units a 24-bit significand cannot hold. -/
def excessBits (q : Nat) : Nat := if q < 2 ^ 24 then 0 else q.log2 - 23

/-- The integer nearest to `num / den`, ties to even. -/
def nearestEven (num den : Nat) : Nat :=
  if den < 2 * (num % den) ∨ (2 * (num % den) = den ∧ num / den % 2 = 1) then num / den + 1 else num / den

/-- The magnitude bits of the binary32 value nearest to `num / den` units of 2^-149, ties to even; the infinity's
where that value is beyond the largest finite one (R15). -/
def roundMag (num den : Nat) : Nat :=
  min (excessBits (num / den) * 2 ^ 23 + nearestEven num (den * 2 ^ excessBits (num / den))) infMag

/-! ## The operators of R15 -/

/-- Addition, with the bits of a NaN result given. -/
def addNaN (nan a b : Word) : Word :=
  if isNaN a || isNaN b then nan
  else if isInf a then (if isInf b && (sign a != sign b) then nan else a)
  else if isInf b then b
  else if toInt a + toInt b = 0 then (if sign a && sign b then negZero else posZero)
  else pack (toInt a + toInt b < 0) (roundMag (toInt a + toInt b).natAbs 1)

/-- `a + b` (R15). -/
def add (ν : NanSource) (a b : Word) : Word := addNaN (ν [] .add a b) a b

/-- `a − b` (R15). -/
def sub (ν : NanSource) (a b : Word) : Word :=
  if isNaN b then ν [] .sub a b else addNaN (ν [] .sub a b) a (neg b)

/-- `a × b` (R15). -/
def mul (ν : NanSource) (a b : Word) : Word :=
  if isNaN a || isNaN b then ν [] .mul a b
  else if isInf a || isInf b then
    (if isZero a || isZero b then ν [] .mul a b else pack (sign a != sign b) infMag)
  else pack (sign a != sign b) (roundMag (units a * units b) (2 ^ 149))

/-- `a / b` (R15). -/
def div (ν : NanSource) (a b : Word) : Word :=
  if isNaN a || isNaN b then ν [] .div a b
  else if isInf a then (if isInf b then ν [] .div a b else pack (sign a != sign b) infMag)
  else if isInf b then pack (sign a != sign b) 0
  else if isZero b then (if isZero a then ν [] .div a b else pack (sign a != sign b) infMag)
  else pack (sign a != sign b) (roundMag (units a * 2 ^ 149) (units b))

/-- `(f32)n` (R15). -/
def ofNat (n : Nat) : Word := pack false (roundMag (n * 2 ^ 149) 1)

/-! ## Comparisons (R16) -/

/-- The signed magnitude, by which the numbers and infinities are ordered; both zeros give 0. -/
def order (x : Word) : Int := if sign x then -(mag x : Int) else (mag x : Int)

/-- `a < b`; false when either is NaN. -/
def lt (a b : Word) : Bool := !isNaN a && !isNaN b && decide (order a < order b)

/-- `a ≤ b`; false when either is NaN. -/
def le (a b : Word) : Bool := !isNaN a && !isNaN b && decide (order a ≤ order b)

/-- `a > b` (R16). -/
def gt (a b : Word) : Bool := lt b a

/-- `a ≥ b` (R16). -/
def ge (a b : Word) : Bool := le b a

/-- `a = b` (R16); false when either is NaN.  No rule of the unit compares two f32 for equality. -/
def eq (a b : Word) : Bool := !isNaN a && !isNaN b && decide (order a = order b)

/-- `clampTh(x, lo, hi)` (R16); a NaN maps to `lo`. -/
def clampTh (x lo hi : Word) : Word :=
  if gt x hi then hi else if ge x lo && le x hi then x else lo

/-! ## Rounding to an integer (R17) -/

/-- `rne(x)`: the nearest integer, ties to even; none stands for `BAD` (R17). -/
def rne (x : Word) : Option Int :=
  if isNaN x || isInf x then none
  else if sign x then some (-(nearestEven (units x) (2 ^ 149) : Int))
  else some (nearestEven (units x) (2 ^ 149) : Int)

end Sys2Proof.F32
end

