-- ==== Sys2Proof/Config.lean ====
section
/-! DEFINITION. The parameters of BLOSC-4: the fixed ones of spec/00_scope.md R6, and the OPEN ones of R7 to R12 and
of spec/93_implementation_defined.md, each resting on an opaque constant with no body.  None of them changes while
the unit runs (spec/10_state.md R114). -/

namespace Sys2Proof

/-! ## Fixed parameters (R6) -/

/-- Samples in a control period, and the longest burst. -/
abbrev Config.CP : Nat := 64

/-- The unit's identity string (R2). -/
def Config.IDENTITY : String := "BLOSC-4 r1 / whysynth#sub000 v7"

/-- `W_MAX`, the largest phase increment (R6). -/
def Config.W_MAX : Word := F32.half

/-- The ID register: constant (spec/10_state.md R108). -/
def Config.ID : Word := 0x424C0104

/-! ## Open parameters -/

/-- A choice of every open parameter (spec/10_state.md R114). -/
structure Params where
  /-- The minBLEP window length, in samples (R7). -/
  L : Nat
  /-- The delay of the naive value, in samples (R8). -/
  D : Nat
  /-- STEP(r, k) (R10). -/
  step : Word → Nat → Word
  /-- SLOPE(r, k) (R10). -/
  slope : Word → Nat → Word
  /-- PITCH_CURVE (R11). -/
  pitch : Word → Word
  /-- AMP_CURVE (R11). -/
  amp : Word → Word
  /-- The NOISE draws, in the order they are taken (R12). -/
  noise : Nat → Word
  /-- The bits of the NaN results of the command at each command index (93 item 5). -/
  nan : Nat → NanSource

/-- BUS_LEN = CP + L (R6). -/
def Params.busLen (P : Params) : Nat := Config.CP + P.L

/-- What the spec says of the open parameters, and nothing else. -/
structure Params.Ok (P : Params) : Prop where
  /-- `L ≥ 1` (R7). -/
  L_pos : 1 ≤ P.L
  /-- `0 ≤ D < L` (R8). -/
  D_lt : P.D < P.L
  /-- `PITCH_CURVE(±0) = 1.0` (R11). -/
  pitch_zero : ∀ x, F32.isZero x = true → P.pitch x = F32.one
  /-- `AMP_CURVE(±0) = 1.0` (R11). -/
  amp_zero : ∀ x, F32.isZero x = true → P.amp x = F32.one
  /-- Every draw is in [−0.5, +0.5] (R12). -/
  noise_range : ∀ n, F32.le F32.negHalf (P.noise n) = true ∧ F32.le (P.noise n) F32.half = true
  /-- A NaN result is a NaN (93 item 5). -/
  nan_isNaN : ∀ pc path op a b, F32.isNaN (P.nan pc path op a b) = true

/-- L less one: any natural number (R7). -/
opaque Config.freeWindow : Nat
/-- Reduced modulo L this is D: any natural number (R8). -/
opaque Config.freeDelay : Nat
/-- The STEP_ROM contents (R10). -/
opaque Config.freeStep : Word → Nat → Word
/-- The SLOPE_ROM contents (R10). -/
opaque Config.freeSlope : Word → Nat → Word
/-- PITCH_CURVE away from zero (R11). -/
opaque Config.freePitch : Word → Word
/-- AMP_CURVE away from zero (R11). -/
opaque Config.freeAmp : Word → Word
/-- The draws; one outside [−0.5, +0.5] stands for +0.0 (R12). -/
opaque Config.freeNoise : Nat → Word
/-- The bits of NaN results; a pattern that is no NaN stands for 0x7FC00000 (93 item 5). -/
opaque Config.freeNaN : Nat → NanSource

/-- The parameters of the unit: any choice that the spec allows, and no other. -/
def Config.params : Params where
  L := Config.freeWindow + 1
  D := Config.freeDelay % (Config.freeWindow + 1)
  step := Config.freeStep
  slope := Config.freeSlope
  pitch x := if F32.isZero x then F32.one else Config.freePitch x
  amp x := if F32.isZero x then F32.one else Config.freeAmp x
  noise n := if F32.le F32.negHalf (Config.freeNoise n) && F32.le (Config.freeNoise n) F32.half
    then Config.freeNoise n else F32.posZero
  nan pc path op a b := if F32.isNaN (Config.freeNaN pc path op a b)
    then Config.freeNaN pc path op a b else 0x7FC00000

end Sys2Proof
end

