-- ==== Sys2Proof/Machine/State.lean ====
section
/-! DEFINITION. The state of a BLOSC-4 unit (spec/10_state.md, spec/20_memory.md), the state after reset
(spec/70_reset_and_hazards.md R901), and the reasons a step or a host access can stop. -/

namespace Sys2Proof.Machine

/-- A space of 32-bit words indexed by a natural number (spec/20_memory.md R200), as the list of the words that differ
from the space's reset word, indices strictly rising. An unlisted index reads as the reset word. -/
abbrev Mem := List (Nat × Word)

/-- One of the two accumulation buses (R200). -/
inductive Bus where
  | A
  | B
  deriving DecidableEq, Repr

/-- The error codes of spec/60_exceptions.md R802; each is a STATUS bit (R109). -/
inductive ErrorBit where
  | illegalOp
  | rsvField
  | badSel
  | badCount
  | sequence
  deriving DecidableEq, Repr

/-- A modulation slot (R111). -/
structure ModSlot where
  value : Word
  next : Word
  delta : Word
  deriving DecidableEq, Repr

/-- The state registers of a core, which its own rules, RESET and CRESET write (R104). -/
structure Osc where
  /-- POS, the phase. -/
  pos : Word
  /-- SECT, bit 0; the other bits read 0. -/
  sect : Bool
  /-- NVAL, the held noise value. -/
  nval : Word
  /-- LAST_MODE, two's complement; all ones is −1, "uninitialized". -/
  lastMode : Word
  /-- LAST_WAVE, two's complement. -/
  lastWave : Word
  deriving DecidableEq, Repr

/-- A core: its sixteen configuration registers, numbered by `sel` (R102), and its state registers (R104). -/
structure Core where
  cfg : Vector Word 16
  osc : Osc
  deriving DecidableEq, Repr

/-- The state of the unit. -/
structure State where
  /-- The command index (R101). -/
  pc : Nat
  /-- The four cores (R102, R104). -/
  cores : Vector Core 4
  /-- OFFSET (R108). -/
  offset : Word
  /-- BURST_N, in 0..CP (R108). -/
  burstN : Fin (Config.CP + 1)
  /-- INBURST, bit 0; the other bits read 0 (R108). -/
  inBurst : Bool
  /-- STATUS; bits 31:5 read 0 (R109). -/
  status : Word
  /-- RESP (R110). -/
  resp : Word
  /-- The modulation slots (R111). -/
  mods : Vector ModSlot 21
  /-- BUS_A (R200); an unlisted word reads +0.0. -/
  busA : Mem
  /-- BUS_B (R200); an unlisted word reads +0.0. -/
  busB : Mem
  /-- SYNC_BUF (R200); an unlisted word reads −1.0. -/
  syncBuf : Mem
  /-- The words at the command port that the executor has not taken yet, oldest first (R100, R816). -/
  pending : List Cmd
  /-- The model's own: how many NOISE draws have been taken (R12). -/
  drawIx : Nat
  deriving DecidableEq, Repr

/-- Why a step stops with a fault: never.  The unit has no exception, trap or fault mechanism and no command stops
the executor (spec/60_exceptions.md R800); an error sets a STATUS bit and the unit goes on (R801). -/
inductive Fault
  deriving DecidableEq, Repr

/-- Why an access is refused. -/
inductive Refusal where
  /-- Raised by no arm of exec: every command has its meaning. -/
  | notModelled (mnemonic : String)
  /-- Raised by a host read of a word outside its space, which has no meaning (R201). Safe: the model gives the host
  no such access. No step raises it. -/
  | hostReadOutsideSpace (index : Nat)
  /-- Raised when the host sends bytes that end in a partial command word, which has no meaning (R208). Safe: the
  model gives the host no such access. No step raises it. -/
  | partialCommandWord
  deriving DecidableEq, Repr

/-- The core state registers after reset (R104, R901). -/
def Osc.reset : Osc :=
  { pos := F32.posZero, sect := true, nval := F32.posZero, lastMode := 0xFFFFFFFF, lastWave := 0xFFFFFFFF }

/-- A core after reset (R102, R901). -/
def Core.reset : Core := { cfg := Vector.replicate 16 0x00000000, osc := Osc.reset }

/-- Slot 0, constant (R112). -/
def ModSlot.constantOne : ModSlot := { value := F32.one, next := F32.one, delta := F32.posZero }

/-- Every other slot after reset (R112). -/
def ModSlot.zero : ModSlot := { value := F32.posZero, next := F32.posZero, delta := F32.posZero }

/-- The unit at power-on (R900, R901): no command has been consumed, none is pending, no draw has been taken. -/
def State.reset : State where
  pc := 0
  cores := Vector.replicate 4 Core.reset
  offset := 0
  burstN := 0
  inBurst := false
  status := 0
  resp := 0x00000000
  mods := (Vector.replicate 21 ModSlot.zero).set 0 ModSlot.constantOne
  busA := []
  busB := []
  syncBuf := []
  pending := []
  drawIx := 0

end Sys2Proof.Machine
end

