-- ==== Sys2Proof/Machine/Flags.lean ====
section
/-! DEFINITION. STATUS, the unit's only error flags (spec/10_state.md R109, R113; spec/60_exceptions.md R801, R802). The
unit has no condition codes and no floating-point exception flags (R113, R807). -/

namespace Sys2Proof.Machine

/-- The STATUS bit of an error (R109, R802). -/
def ErrorBit.code : ErrorBit → Nat
  | .illegalOp => 0
  | .rsvField => 1
  | .badSel => 2
  | .badCount => 3
  | .sequence => 4

/-- The STATUS word with only the error's bit set. -/
def ErrorBit.bit (e : ErrorBit) : Word := 1#32 <<< e.code

/-- What STATUS reads as: bits 31:5 are reserved and read 0 (R109). -/
def statusView (status : Word) : Word := status &&& 0x1F

/-- A one-bit register read as 32 bits: bit 0, the others 0 (R104, R108). -/
def flagView (b : Bool) : Word := if b then 1 else 0

end Sys2Proof.Machine
end

