-- ==== Sys2Proof/Machine/Ops.lean ====
section
/-! DEFINITION. The shared operations over the memory spaces (spec/20_memory.md), the registers (spec/10_state.md) and
the command index, and raising an error (spec/60_exceptions.md R801).  The unit has no trap entry and no trap
return (R810, R811): raising an error is all that happens in their place. -/

namespace Sys2Proof.Machine

/-! ## Memory spaces (R200) -/

/-- Word `j` of a space whose reset word is `d`. -/
def Mem.read (d : Word) : Mem → Nat → Word
  | [], _ => d
  | (i, w) :: m, j => if i = j then w else Mem.read d m j

/-- The space with word `j` set to `v`; the canonical form is kept. -/
def Mem.write (d : Word) : Mem → Nat → Word → Mem
  | [], j, v => if v = d then [] else [(j, v)]
  | (i, w) :: m, j, v =>
    if j < i then (if v = d then (i, w) :: m else (j, v) :: (i, w) :: m)
    else if j = i then (if v = d then m else (j, v) :: m)
    else (i, w) :: Mem.write d m j v

/-- The canonical form from index `lo` on: indices strictly rising and below `hi`, no entry equal to `d`. -/
def Mem.wfFrom (d : Word) (hi : Nat) : Nat → Mem → Bool
  | _, [] => true
  | lo, (i, w) :: m => decide (lo ≤ i) && decide (i < hi) && (w != d) && Mem.wfFrom d hi (i + 1) m

/-- The canonical form of a space of `hi` words whose reset word is `d`. -/
def Mem.wf (d : Word) (hi : Nat) (m : Mem) : Bool := Mem.wfFrom d hi 0 m

/-- The bus of `len` words moved down by `n` words: word `j` takes old word `j + n`, and the last `n` words
become +0.0 (spec/42_burst.md R503). -/
def Mem.shiftDown (len n : Nat) : Mem → Mem
  | [] => []
  | (i, w) :: m => if n ≤ i ∧ i < len then (i - n, w) :: Mem.shiftDown len n m else Mem.shiftDown len n m

/-- What a bus word holds at reset (R200). -/
def busReset : Word := F32.posZero

/-- What a SYNC_BUF word holds at reset (R200). -/
def syncReset : Word := F32.negOne

/-- `BusRead(b, j)` (R14). -/
def busRead (s : State) (b : Bus) (j : Nat) : Word :=
  match b with
  | .A => Mem.read busReset s.busA j
  | .B => Mem.read busReset s.busB j

/-- `SyncRead(s)` (R14). -/
def syncRead (s : State) (j : Nat) : Word := Mem.read syncReset s.syncBuf j

/-- One accumulation: `BusWrite(b, j, BusRead(b, j) + v)` (R204). -/
def accumulate (ν : NanSource) (m : Mem) (j : Nat) (v : Word) : Mem :=
  Mem.write busReset m j (F32.add ν (Mem.read busReset m j) v)

/-! ## Registers -/

/-- `core[c].cfg[sel]` (R102). -/
def cfgRead (s : State) (c : Fin 4) (sel : Fin 16) : Word := s.cores[c].cfg[sel]

/-- `core[c].cfg[sel] <- data` (R102). -/
def cfgWrite (s : State) (c : Fin 4) (sel : Fin 16) (data : Word) : State :=
  { s with cores := s.cores.set c { s.cores[c] with cfg := s.cores[c].cfg.set sel data } }

/-- The state registers of core `c` (R104). -/
def oscRead (s : State) (c : Fin 4) : Osc := s.cores[c].osc

/-- The state with new state registers in core `c`. -/
def oscWrite (s : State) (c : Fin 4) (o : Osc) : State :=
  { s with cores := s.cores.set c { s.cores[c] with osc := o } }

/-- `mod[i]` (R111). -/
def modSlot (s : State) (i : Fin 21) : ModSlot := s.mods[i]

/-- The state with a new content of slot `i`. -/
def modWrite (s : State) (i : Fin 21) (m : ModSlot) : State := { s with mods := s.mods.set i m }

/-- `modread(i, k)`: the value of a slot at sample offset `k` of the control period (spec/41_modbus.md R451). -/
def modRead (ν : NanSource) (m : ModSlot) (k : Nat) : Word :=
  F32.add ν m.value (F32.mul ν (F32.ofNat k) m.delta)

/-! ## The command index, and errors -/

/-- The executor has consumed a command (R101). -/
def retire (s : State) : State := { s with pc := s.pc + 1 }

/-- `raise Error(e)`: the bit is set in STATUS, and the command has no other effect but to be consumed (R801). -/
def raiseError (e : ErrorBit) (s : State) : State := retire { s with status := s.status ||| e.bit }

/-- A command word that is no command: an illegal opcode (R305, R306). -/
def takeIllegalOp (s : State) : State := raiseError .illegalOp s

/-- A command word with a nonzero reserved field (R305). -/
def takeReservedField (s : State) : State := raiseError .rsvField s

/-! ## A core's reset -/

/-- `CRESET_state`: what RESET and CRESET do to a core's state registers (spec/40_control.md R403). -/
def cresetState (_ : Osc) : Osc :=
  { pos := F32.posZero, sect := true, nval := F32.posZero,
    lastMode := BitVec.ofInt 32 (-1), lastWave := BitVec.ofInt 32 (-1) }

end Sys2Proof.Machine
end

