-- ==== Sys2Proof/Machine/Operands.lean ====
section
/-! DEFINITION. How the words of the configuration registers and the `sel` field are interpreted: register numbers
(spec/10_state.md R102, R104, R108), modes, waveforms, sync roles and modulation sources (spec/43_render.md R552 to
R554, R557). -/

namespace Sys2Proof.Machine

/-! ## Configuration registers by name (R102) -/

abbrev CfgSel.MODE : Fin 16 := 0x00
abbrev CfgSel.WAVE : Fin 16 := 0x01
abbrev CfgSel.W_BASE : Fin 16 := 0x02
abbrev CfgSel.PM_SRC : Fin 16 := 0x03
abbrev CfgSel.PM_AMT : Fin 16 := 0x04
abbrev CfgSel.AM_SRC : Fin 16 := 0x05
abbrev CfgSel.AM_AMT : Fin 16 := 0x06
abbrev CfgSel.MP1 : Fin 16 := 0x07
abbrev CfgSel.MP1_SRC : Fin 16 := 0x08
abbrev CfgSel.MP1_AMT : Fin 16 := 0x09
/-- Stored and read back only (R103). -/
abbrev CfgSel.MP2 : Fin 16 := 0x0A
/-- Stored and read back only (R103). -/
abbrev CfgSel.MP2_SRC : Fin 16 := 0x0B
/-- Stored and read back only (R103). -/
abbrev CfgSel.MP2_AMT : Fin 16 := 0x0C
abbrev CfgSel.LEVEL_A : Fin 16 := 0x0D
abbrev CfgSel.LEVEL_B : Fin 16 := 0x0E
abbrev CfgSel.SYNC : Fin 16 := 0x0F

/-- `sel` as the number of a configuration register: none for `sel > 0x0F` (R406). -/
def cfgSel (sel : Nat) : Option (Fin 16) := if h : sel < 16 then some ⟨sel, h⟩ else none

/-- `sel` as a slot number: none for `sel > 20` (R458). -/
def slotSel (sel : Nat) : Option (Fin 21) := if h : sel < 21 then some ⟨sel, h⟩ else none

/-- `sel` as the number of a slot that a command may write: none for 0 and for `sel > 20` (R450, R454). -/
def writableSlot (sel : Nat) : Option (Fin 21) := if sel = 0 then none else slotSel sel

/-- A field of a slot by the `aux` of RDMOD: 0 value, 1 next, 2 delta; none for `aux > 2` (R458). -/
def slotField (m : ModSlot) (aux : Nat) : Option Word :=
  match aux with
  | 0 => some m.value
  | 1 => some m.next
  | 2 => some m.delta
  | _ => none

/-- The register that `sel` names, read for core `c`; none for the reserved numbers 0x15..0x1F and 0x25..0x3F
(R102, R104, R108, R408). -/
def regRead (s : State) (c : Fin 4) (sel : Nat) : Option Word :=
  match cfgSel sel with
  | some r => some (cfgRead s c r)
  | none =>
    match sel with
    | 0x10 => some (oscRead s c).pos
    | 0x11 => some (flagView (oscRead s c).sect)
    | 0x12 => some (oscRead s c).nval
    | 0x13 => some (oscRead s c).lastMode
    | 0x14 => some (oscRead s c).lastWave
    | 0x20 => some s.offset
    | 0x21 => some (BitVec.ofNat 32 s.burstN.val)
    | 0x22 => some (flagView s.inBurst)
    | 0x23 => some (statusView s.status)
    | 0x24 => some Config.ID
    | _ => none

/-! ## Selectors (R552 to R554, R557) -/

/-- The twelve mode names, numbered 0..11 in this order (R552). -/
inductive Mode where
  | off
  | minBlep
  | wavetable
  | asyncGranular
  | fmWave2Sine
  | fmSine2Wave
  | waveshaper
  | noise
  | padSynth
  | phaseDistortion
  | fmWave2Lf
  | wtChorus
  deriving DecidableEq, Repr

/-- The mode's number (R552). -/
def Mode.number : Mode → Nat
  | .off => 0
  | .minBlep => 1
  | .wavetable => 2
  | .asyncGranular => 3
  | .fmWave2Sine => 4
  | .fmSine2Wave => 5
  | .waveshaper => 6
  | .noise => 7
  | .padSynth => 8
  | .phaseDistortion => 9
  | .fmWave2Lf => 10
  | .wtChorus => 11

/-- The mode of an integer; any other integer means mode 0 (R552). -/
def Mode.ofInt (k : Int) : Mode :=
  match k with
  | 1 => .minBlep
  | 2 => .wavetable
  | 3 => .asyncGranular
  | 4 => .fmWave2Sine
  | 5 => .fmSine2Wave
  | 6 => .waveshaper
  | 7 => .noise
  | 8 => .padSynth
  | 9 => .phaseDistortion
  | 10 => .fmWave2Lf
  | 11 => .wtChorus
  | _ => .off

/-- `decode_mode` (R552). -/
def decodeMode (x : Word) : Mode :=
  match F32.rne x with
  | some k => Mode.ofInt k
  | none => .off

/-- The five waveforms, numbered 0..4 in this order (R553). -/
inductive Wave where
  | saw
  | rect
  | tri
  | noise
  | clipped
  deriving DecidableEq, Repr

/-- The waveform's number (R553). -/
def Wave.number : Wave → Nat
  | .saw => 0
  | .rect => 1
  | .tri => 2
  | .noise => 3
  | .clipped => 4

/-- `decode_wave` (R553): clamped to 0..4. -/
def decodeWave (x : Word) : Wave :=
  match F32.rne x with
  | none => .saw
  | some k =>
    if k ≤ 0 then .saw
    else if k = 1 then .rect
    else if k = 2 then .tri
    else if k = 3 then .noise
    else .clipped

/-- The sync role: master exports wrap fractions, slave consumes them (R554). -/
inductive Role where
  | master
  | slave
  deriving DecidableEq, Repr

/-- `decode_sync` (R554). -/
def decodeSync (x : Word) : Role :=
  match F32.rne x with
  | none => .master
  | some k => if k ≤ 0 then .master else .slave

/-- `srcidx`: the slot a modulation-source register selects; slot 0 for anything that is no slot number (R453, R557). -/
def srcIdx (x : Word) : Fin 21 :=
  match F32.rne x with
  | some k => if h : 0 ≤ k ∧ k.toNat < 21 then ⟨k.toNat, h.2⟩ else 0
  | none => 0

end Sys2Proof.Machine
end

