-- ==== Sys2Proof/Machine/Burst.lean ====
section
/-! DEFINITION. Burst and control-tick sequencing: BEGIN, END and TICK (spec/42_burst.md). -/

namespace Sys2Proof.Machine

/-- The condition under which BEGIN refuses its count (R500). -/
def badCount (s : State) (n : Nat) : Bool :=
  decide (n = 0) || decide (Config.CP < n) || decide (Config.CP < s.offset.toNat + n)

/-- BEGIN (R500). The count is at most CP where it is stored. -/
def execBegin (n : Nat) (s : State) : Host.Outcome State Fault Refusal :=
  if s.inBurst then .next (raiseError .sequence s)
  else if badCount s n then .next (raiseError .badCount s)
  else .next (retire { s with burstN := Fin.ofNat (Config.CP + 1) n, inBurst := true, syncBuf := [] })

/-- What END does in an open burst, with buses of `len` words (R503). -/
def closeBurst (len : Nat) (s : State) : State :=
  { s with
    busA := Mem.shiftDown len s.burstN.val s.busA
    busB := Mem.shiftDown len s.burstN.val s.busB
    offset := s.offset + BitVec.ofNat 32 s.burstN.val
    burstN := 0
    inBurst := false }

/-- END under the parameters `P` (R503). -/
def endWith (P : Params) (s : State) : Host.Outcome State Fault Refusal :=
  if s.inBurst then .next (retire (closeBurst P.busLen s)) else .next (raiseError .sequence s)

/-- END (R503). -/
def execEnd (s : State) : Host.Outcome State Fault Refusal := endWith Config.params s

/-- TICK (R506). -/
def execTick (s : State) : Host.Outcome State Fault Refusal :=
  if s.inBurst || s.offset.toNat != Config.CP then .next (raiseError .sequence s)
  else .next (retire { s with offset := 0 })

end Sys2Proof.Machine
end

