-- ==== Sys2Proof/Machine/Control.lean ====
section
/-! DEFINITION. The control commands NOP, RESET, CRESET, WRCFG and RDREG (spec/40_control.md). -/

namespace Sys2Proof.Machine

/-- NOP (R400). -/
def execNop (s : State) : Host.Outcome State Fault Refusal := .next (retire s)

/-- What RESET does to the unit (R402): everything but `pc`, the words pending at the port and the NOISE source. -/
def resetUnit (s : State) : State :=
  { s with
    cores := s.cores.map fun k => { cfg := Vector.replicate 16 0x00000000, osc := cresetState k.osc }
    mods := Vector.ofFn fun i => if i = 0
      then { value := F32.one, next := F32.one, delta := F32.posZero }
      else { value := F32.posZero, next := F32.posZero, delta := F32.posZero }
    busA := []
    busB := []
    syncBuf := []
    offset := 0
    burstN := 0
    inBurst := false
    status := 0
    resp := 0 }

/-- RESET (R402). -/
def execReset (s : State) : Host.Outcome State Fault Refusal := .next (retire (resetUnit s))

/-- CRESET (R404). -/
def execCreset (core : Fin 4) (s : State) : Host.Outcome State Fault Refusal :=
  .next (retire (oscWrite s core (cresetState (oscRead s core))))

/-- WRCFG (R406). -/
def execWrcfg (core : Fin 4) (sel : Nat) (data : Word) (s : State) : Host.Outcome State Fault Refusal :=
  match cfgSel sel with
  | none => .next (raiseError .badSel s)
  | some r => .next (retire (cfgWrite s core r data))

/-- RDREG (R408). -/
def execRdreg (core : Fin 4) (sel : Nat) (s : State) : Host.Outcome State Fault Refusal :=
  match regRead s core sel with
  | none => .next (raiseError .badSel s)
  | some v => .next (retire { s with resp := v })

end Sys2Proof.Machine
end

