-- ==== Sys2Proof/Machine/ModBus.lean ====
section
/-! DEFINITION. The modulation bus commands MODINIT, MODTICK and RDMOD (spec/41_modbus.md). -/

namespace Sys2Proof.Machine

/-- A control-tick boundary with no burst open, where slots may be written (R455). -/
def atTickBoundary (s : State) : Bool := !s.inBurst && (s.offset == 0)

/-- MODINIT (R450). -/
def execModinit (sel : Nat) (data : Word) (s : State) : Host.Outcome State Fault Refusal :=
  match writableSlot sel with
  | none => .next (raiseError .badSel s)
  | some i =>
    if atTickBoundary s then
      .next (retire (modWrite s i { value := data, next := data, delta := F32.posZero }))
    else .next (raiseError .sequence s)

/-- The new content of a slot at a control tick (R454): `value` has become `next` when the difference is taken. -/
def tickedSlot (ν : NanSource) (m : ModSlot) (data : Word) : ModSlot :=
  { value := m.next, next := data, delta := F32.div ν (F32.sub ν data m.next) (F32.ofNat Config.CP) }

/-- MODTICK under the parameters `P` (R454). -/
def modtickWith (P : Params) (sel : Nat) (data : Word) (s : State) : Host.Outcome State Fault Refusal :=
  match writableSlot sel with
  | none => .next (raiseError .badSel s)
  | some i =>
    if atTickBoundary s then
      .next (retire (modWrite s i (tickedSlot (P.nan s.pc) (modSlot s i) data)))
    else .next (raiseError .sequence s)

/-- MODTICK (R454). -/
def execModtick (sel : Nat) (data : Word) (s : State) : Host.Outcome State Fault Refusal :=
  modtickWith Config.params sel data s

/-- RDMOD (R458). -/
def execRdmod (sel aux : Nat) (s : State) : Host.Outcome State Fault Refusal :=
  match slotSel sel with
  | none => .next (raiseError .badSel s)
  | some i =>
    match slotField (modSlot s i) aux with
    | none => .next (raiseError .badSel s)
    | some v => .next (retire { s with resp := v })

end Sys2Proof.Machine
end

