-- ==== Sys2Proof/Machine/Waveforms.lean ====
section
/-! DEFINITION. The five waveforms and the placement of minBLEP corrections (spec/44_waveforms.md). The operations act
on a `Voice`: what a RENDER may change (spec/43_render.md R567). Each f32 operation is given the NaN source of its own
place in the command. -/

namespace Sys2Proof.Machine

/-- The part of the state that a RENDER of one core may change (R567). -/
structure Voice where
  osc : Osc
  busA : Mem
  busB : Mem
  syncBuf : Mem
  drawIx : Nat
  deriving DecidableEq, Repr

/-- The parameters of one sample of a burst: its number `s`, and `w_s`, `th_s`, `gA_s`, `gB_s` (R558 to R561). -/
structure Sample where
  s : Nat
  w : Word
  th : Word
  gA : Word
  gB : Word
  deriving DecidableEq, Repr

/-! ## Placement (R600, R601) -/

/-- Tap `k` of a correction of size `size` at gain `g`, added to its bus word. -/
def placeTap (ν : NanSource) (rom : Word → Nat → Word) (g size r : Word) (s : Nat) (m : Mem) (k : Nat) : Mem :=
  accumulate (ν.sub 0) m (s + k) (F32.mul (ν.sub 1) (F32.mul (ν.sub 2) g size) (rom r k))

/-- The `len` taps of a correction, in rising order, on one bus. -/
def placeOn (ν : NanSource) (rom : Word → Nat → Word) (len : Nat) (g size r : Word) (s : Nat) (m : Mem) : Mem :=
  (List.range len).foldl (fun m k => placeTap (ν.sub k) rom g size r s m k) m

/-- `place_step(s, r, J)` (R600): bus A first, then bus B. -/
def placeStep (P : Params) (ν : NanSource) (e : Sample) (r j : Word) (v : Voice) : Voice :=
  { v with busA := placeOn (ν.sub 0) P.step P.L e.gA j r e.s v.busA
           busB := placeOn (ν.sub 1) P.step P.L e.gB j r e.s v.busB }

/-- `place_slope(s, r, K)` (R601). -/
def placeSlope (P : Params) (ν : NanSource) (e : Sample) (r k : Word) (v : Voice) : Voice :=
  { v with busA := placeOn (ν.sub 0) P.slope P.L e.gA k r e.s v.busA
           busB := placeOn (ν.sub 1) P.slope P.L e.gB k r e.s v.busB }

/-! ## The naive values (R603 to R608) -/

/-- `naive(wv, p, b, v, th)` (R608). -/
def naive (ν : NanSource) (wv : Wave) (p : Word) (b : Bool) (v th : Word) : Word :=
  match wv with
  | .saw => F32.sub ν F32.half p
  | .rect => if b then F32.half else F32.negHalf
  | .tri =>
    if b then F32.add ν F32.negHalf (F32.div ν p th)
    else F32.sub (ν.sub 0) F32.half (F32.div ν (F32.sub (ν.sub 1) p th) (F32.sub (ν.sub 2) F32.one th))
  | .noise => v
  | .clipped => if b then F32.add ν F32.negHalf (F32.div ν p th) else F32.half

/-- `1.0 / th`: the slope of a rise that ends at phase `th`. -/
def riseSlope (ν : NanSource) (th : Word) : Word := F32.div ν F32.one th

/-- `−1.0 / (1.0 − th)`: the slope of the triangle's fall. -/
def fallSlope (ν : NanSource) (th : Word) : Word := F32.div ν F32.negOne (F32.sub ν F32.one th)

/-! ## Draws (R12) -/

/-- `draw()`: the next NOISE value. -/
def draw (P : Params) (v : Voice) : Word × Voice := (P.noise v.drawIx, { v with drawIx := v.drawIx + 1 })

/-- The voice with SECT set. -/
def setSect (b : Bool) (v : Voice) : Voice := { v with osc := { v.osc with sect := b } }

/-- A new noise level: draw it, place the step to it, and hold it (R606). -/
def newNoiseLevel (P : Params) (ν : NanSource) (e : Sample) (r : Word) (v : Voice) : Voice :=
  let (x, v1) := draw P v
  let v2 := placeStep P (ν.sub 0) e r (F32.sub (ν.sub 1) x v.osc.nval) v1
  { v2 with osc := { v2.osc with nval := x } }

/-! ## Events -/

/-- `on_thresh(c, s, wv, r)`: what a THRESH event places, then SECT 0 (R604 to R607). The sawtooth has none (R603). -/
def onThresh (P : Params) (ν : NanSource) (e : Sample) (wv : Wave) (r : Word) (v : Voice) : Voice :=
  match wv with
  | .saw => v
  | .rect => setSect false (placeStep P ν e r F32.negOne v)
  | .tri =>
    setSect false (placeSlope P (ν.sub 0) e r
      (F32.mul (ν.sub 1) e.w
        (F32.sub (ν.sub 2) (fallSlope (ν.sub 3) e.th) (riseSlope (ν.sub 4) e.th))) v)
  | .noise => setSect false (newNoiseLevel P ν e r v)
  | .clipped => setSect false (placeSlope P (ν.sub 0) e r (F32.neg (F32.div (ν.sub 1) e.w e.th)) v)

/-- `on_wrap(c, s, wv, r)`: what a WRAP event places, then SECT 1 (R603 to R607). -/
def onWrap (P : Params) (ν : NanSource) (e : Sample) (wv : Wave) (r : Word) (v : Voice) : Voice :=
  match wv with
  | .saw => setSect true (placeStep P ν e r F32.one v)
  | .rect => setSect true (placeStep P ν e r F32.one v)
  | .tri =>
    setSect true (placeSlope P (ν.sub 0) e r
      (F32.mul (ν.sub 1) e.w
        (F32.add (ν.sub 2) (riseSlope (ν.sub 3) e.th)
          (F32.div (ν.sub 4) F32.one (F32.sub (ν.sub 5) F32.one e.th)))) v)
  | .noise => setSect true (newNoiseLevel P ν e r v)
  | .clipped =>
    setSect true (placeSlope P (ν.sub 0) e r (F32.div (ν.sub 1) e.w e.th)
      (placeStep P (ν.sub 2) e r F32.negOne v))

/-- `k_m`: the slope of the triangle or clipped saw just before a sync (R609). -/
def slopeBeforeSync (ν : NanSource) (wv : Wave) (b : Bool) (th : Word) : Word :=
  if b then riseSlope ν th
  else match wv with
    | .tri => fallSlope ν th
    | _ => F32.posZero

/-- The slope correction of a SYNC event: for the triangle and the clipped saw only (R609). -/
def placeSyncSlope (P : Params) (ν : NanSource) (e : Sample) (wv : Wave) (f : Word) (b : Bool) (v : Voice) : Voice :=
  match wv with
  | .tri | .clipped =>
    placeSlope P (ν.sub 0) e f
      (F32.mul (ν.sub 1) e.w
        (F32.sub (ν.sub 2) (riseSlope (ν.sub 3) e.th) (slopeBeforeSync (ν.sub 4) wv b e.th))) v
  | .saw | .rect | .noise => v

/-- `on_sync(c, s, wv, f)` (R609). -/
def onSync (P : Params) (ν : NanSource) (e : Sample) (wv : Wave) (f : Word) (v : Voice) : Voice :=
  let o := v.osc
  let ym := naive (ν.sub 0) wv o.pos o.sect o.nval e.th
  let (x, v1) := if wv = .noise then draw P v else (o.nval, v)
  let y0 := naive (ν.sub 1) wv F32.posZero true x e.th
  let v2 := placeStep P (ν.sub 2) e f (F32.sub (ν.sub 3) y0 ym) v1
  let v3 := placeSyncSlope P (ν.sub 4) e wv f o.sect v2
  { v3 with osc := { v3.osc with pos := F32.mul (ν.sub 5) f e.w, sect := true, nval := x } }

end Sys2Proof.Machine
end

