-- ==== Sys2Proof/Machine/Render.lean ====
section
/-! DEFINITION. RENDER: the selector, the parameter ramps, the phase accumulator, hard sync and the output of one core
over the open burst (spec/43_render.md). -/

namespace Sys2Proof.Machine

/-! ## Selector (R555) -/

/-- `select(c, m, wv)`: a change of mode or waveform resets the phase (R555). -/
def selectOsc (m : Mode) (wv : Wave) (o : Osc) : Osc :=
  if BitVec.ofNat 32 m.number ≠ o.lastMode ∨ BitVec.ofNat 32 wv.number ≠ o.lastWave then
    { pos := F32.posZero, sect := true, nval := F32.posZero,
      lastMode := BitVec.ofNat 32 m.number, lastWave := BitVec.ofNat 32 wv.number }
  else o

/-! ## Parameter ramps (R557 to R561) -/

/-- A linear ramp: its value at the first sample and its step per sample. -/
structure Ramp where
  start : Word
  step : Word
  deriving DecidableEq, Repr

/-- The ramp from `x0` to `xn` over `n` samples. -/
def Ramp.make (ν : NanSource) (x0 xn : Word) (n : Nat) : Ramp :=
  { start := x0, step := F32.div ν (F32.sub ν xn x0) (F32.ofNat n) }

/-- The ramp at sample `s`: `x0 + ((f32)s × dx)` (R558 to R560).  DEDUCED (notes/assumptions 15): this is followed at sample
0 too, where R568 says that a ramp gives its start value: it gives a NaN for a step that is infinite or a NaN, and +0.0
for a start of −0.0 unless the step is negative or −0.0. -/
def Ramp.at (ν : NanSource) (ρ : Ramp) (s : Nat) : Word :=
  F32.add ν ρ.start (F32.mul ν (F32.ofNat s) ρ.step)

/-- The three ramps of a burst. -/
structure Ramps where
  w : Ramp
  a : Ramp
  q : Ramp
  deriving DecidableEq, Repr

/-- `W_BASE × PITCH_CURVE(PM_AMT × v)` (R558). -/
def pitchAt (P : Params) (ν : NanSource) (cfg : Vector Word 16) (x : Word) : Word :=
  F32.mul (ν.sub 0) cfg[CfgSel.W_BASE] (P.pitch (F32.mul (ν.sub 1) cfg[CfgSel.PM_AMT] x))

/-- `AMP_CURVE(AM_AMT × v)` (R559). -/
def ampAt (P : Params) (ν : NanSource) (cfg : Vector Word 16) (x : Word) : Word :=
  P.amp (F32.mul ν cfg[CfgSel.AM_AMT] x)

/-- `MP1 + (MP1_AMT × v)` (R560). -/
def shapeAt (ν : NanSource) (cfg : Vector Word 16) (x : Word) : Word :=
  F32.add ν cfg[CfgSel.MP1] (F32.mul ν cfg[CfgSel.MP1_AMT] x)

/-- The ramp of one modulated parameter: its curve taken at the slot's values at offsets `o` and `o + n`
(R557 to R560). -/
def rampOf (ν : NanSource) (curve : NanSource → Word → Word) (m : ModSlot) (o n : Nat) : Ramp :=
  Ramp.make (ν.sub 0) (curve (ν.sub 1) (modRead (ν.sub 2) m o)) (curve (ν.sub 3) (modRead (ν.sub 4) m (o + n))) n

/-- `ramps(c, n, o)` (R557 to R560). -/
def rampsOf (P : Params) (ν : NanSource) (cfg : Vector Word 16) (mods : Vector ModSlot 21) (o n : Nat) : Ramps :=
  { w := rampOf (ν.sub 0) (fun μ x => pitchAt P μ cfg x) mods[srcIdx cfg[CfgSel.PM_SRC]] o n
    a := rampOf (ν.sub 1) (fun μ x => ampAt P μ cfg x) mods[srcIdx cfg[CfgSel.AM_SRC]] o n
    q := rampOf (ν.sub 2) (fun μ x => shapeAt μ cfg x) mods[srcIdx cfg[CfgSel.MP1_SRC]] o n }

/-- `w_s` from the ramp's value (R558). -/
def clampIncrement (x : Word) : Word := F32.clampTh x F32.posZero Config.W_MAX

/-- `th_s` from the ramp's value and `w_s` (R560). -/
def clampThreshold (ν : NanSource) (q w : Word) : Word :=
  let wt := F32.clampTh w F32.twoPowNeg24 Config.W_MAX
  F32.clampTh q wt (F32.sub ν F32.one wt)

/-- The parameters of sample `s` (R558 to R561). -/
def sampleOf (ν : NanSource) (cfg : Vector Word 16) (ρ : Ramps) (s : Nat) : Sample :=
  let w := clampIncrement (ρ.w.at (ν.sub 0) s)
  let a := ρ.a.at (ν.sub 1) s
  { s := s
    w := w
    th := clampThreshold (ν.sub 2) (ρ.q.at (ν.sub 3) s) w
    gA := F32.mul (ν.sub 4) cfg[CfgSel.LEVEL_A] a
    gB := F32.mul (ν.sub 5) cfg[CfgSel.LEVEL_B] a }

/-! ## The per-sample step (R562 to R566) -/

/-- `rfrac(x, rb)`: the fraction of the sample after an event (R563). -/
def rfrac (ν : NanSource) (w x rb : Word) : Word :=
  if F32.gt w F32.posZero then F32.clampTh (F32.add ν rb (F32.div ν x w)) rb F32.one else F32.one

/-- The THRESH event of a phase that has reached `p`, if there is one (R563). -/
def threshEvent (P : Params) (ν : NanSource) (e : Sample) (wv : Wave) (p rb : Word) (v : Voice) : Voice :=
  if wv ≠ .saw ∧ v.osc.sect = true ∧ F32.ge p e.th = true then
    onThresh P (ν.sub 0) e wv (rfrac (ν.sub 1) e.w (F32.sub (ν.sub 2) p e.th) rb) v
  else v

/-- The WRAP event of a phase that has reached `p`, if there is one; POS takes the phase, and the wrap fraction is
answered where it wrapped (R563). -/
def wrapEvent (P : Params) (ν : NanSource) (e : Sample) (wv : Wave) (p rb : Word) (v : Voice) : Voice × Option Word :=
  if F32.ge p F32.one then
    let p1 := F32.sub (ν.sub 0) p F32.one
    let rw := rfrac (ν.sub 1) e.w p1 rb
    let v1 := onWrap P (ν.sub 2) e wv rw v
    ({ v1 with osc := { v1.osc with pos := p1 } }, some rw)
  else ({ v with osc := { v.osc with pos := p } }, none)

/-- `advance(c, s, wv, δ, rb)` (R563).  DEDUCED (notes/assumptions 15): the f32 sum is followed where R612 says that the
phase repeats for every increment 2^-k: from 2^-25 down the sum stays at 2^(24-k), where half a unit is a tie. -/
def advance (P : Params) (ν : NanSource) (e : Sample) (wv : Wave) (δ rb : Word) (v : Voice) : Voice × Option Word :=
  let p := F32.add (ν.sub 0) v.osc.pos δ
  wrapEvent P (ν.sub 2) e wv p rb (threshEvent P (ν.sub 1) e wv p rb v)

/-- The naive value of a sample is accumulated at index `s + D` of each bus (R566). -/
def output (P : Params) (ν : NanSource) (e : Sample) (wv : Wave) (v : Voice) : Voice :=
  let y := naive (ν.sub 0) wv v.osc.pos v.osc.sect v.osc.nval e.th
  { v with busA := accumulate (ν.sub 1) v.busA (e.s + P.D) (F32.mul (ν.sub 2) e.gA y)
           busB := accumulate (ν.sub 3) v.busB (e.s + P.D) (F32.mul (ν.sub 4) e.gB y) }

/-- A slave's sample with a sync event at fraction `f`: the move up to the master's wrap, then the SYNC event
(R562, R565). -/
def syncedSample (P : Params) (ν : NanSource) (e : Sample) (wv : Wave) (f : Word) (v : Voice) : Voice :=
  let v1 := (advance P (ν.sub 0) e wv (F32.mul (ν.sub 1) (F32.sub (ν.sub 2) F32.one f) e.w) f v).1
  onSync P (ν.sub 3) e wv f v1

/-- A master's export of sample `s`: the wrap fraction, or −1.0 (R562, R564). -/
def exportWrap (s : Nat) (wrapped : Option Word) (v : Voice) : Voice :=
  { v with syncBuf := Mem.write syncReset v.syncBuf s (wrapped.getD F32.negOne) }

/-- A sample without a sync event: a full step, and the export of a master (R562). -/
def freeSample (P : Params) (ν : NanSource) (e : Sample) (wv : Wave) (role : Role) (v : Voice) : Voice :=
  let (v1, wrapped) := advance P ν e wv e.w F32.posZero v
  match role with
  | .master => exportWrap e.s wrapped v1
  | .slave => v1

/-- `sample(c, s, wv, role)` (R562). -/
def sampleStep (P : Params) (ν : NanSource) (e : Sample) (wv : Wave) (role : Role) (v : Voice) : Voice :=
  let x := Mem.read syncReset v.syncBuf e.s
  let v1 :=
    if role = .slave ∧ F32.ge x F32.posZero = true then
      syncedSample P (ν.sub 0) e wv (F32.clampTh x F32.posZero F32.one) v
    else freeSample P (ν.sub 1) e wv role v
  output P (ν.sub 2) e wv v1

/-! ## The command (R550) -/

/-- What RENDER of a core does to its voice, over a burst of `n` samples at offset `o` (R550). -/
def renderVoice (P : Params) (ν : NanSource) (cfg : Vector Word 16) (mods : Vector ModSlot 21) (o n : Nat) (v : Voice) :
    Voice :=
  let m := decodeMode cfg[CfgSel.MODE]
  let wv := decodeWave cfg[CfgSel.WAVE]
  let role := decodeSync cfg[CfgSel.SYNC]
  let v1 := { v with osc := selectOsc m wv v.osc }
  if m = .minBlep then
    let ρ := rampsOf P (ν.sub 0) cfg mods o n
    (List.range n).foldl
      (fun v s => sampleStep P ((ν.sub 1).sub (2 * s)) (sampleOf ((ν.sub 1).sub (2 * s + 1)) cfg ρ s) wv role v) v1
  else v1

/-- What a RENDER of core `c` may change, as it stands in the state. -/
def voiceOf (s : State) (c : Fin 4) : Voice :=
  { osc := oscRead s c, busA := s.busA, busB := s.busB, syncBuf := s.syncBuf, drawIx := s.drawIx }

/-- The state with a new voice of core `c`. -/
def withVoice (s : State) (c : Fin 4) (v : Voice) : State :=
  { oscWrite s c v.osc with busA := v.busA, busB := v.busB, syncBuf := v.syncBuf, drawIx := v.drawIx }

/-- RENDER under the parameters `P` (R550, R551). -/
def renderWith (P : Params) (c : Fin 4) (s : State) : Host.Outcome State Fault Refusal :=
  if s.inBurst then
    .next (retire (withVoice s c
      (renderVoice P (P.nan s.pc) s.cores[c].cfg s.mods s.offset.toNat s.burstN.val (voiceOf s c))))
  else .next (raiseError .sequence s)

/-- RENDER (R550). -/
def execRender (core : Fin 4) (s : State) : Host.Outcome State Fault Refusal := renderWith Config.params core s

end Sys2Proof.Machine
end

