-- ==== Sys2Proof/Machine/Dispatch.lean ====
section
/-! DEFINITION. One arm per command: each calls its meaning. -/

namespace Sys2Proof.Machine

def exec (i : Instr) (s : State) : Host.Outcome State Fault Refusal :=
  match i with
  | .nop => Sys2Proof.Machine.execNop s
  | .reset => Sys2Proof.Machine.execReset s
  | .creset core => Sys2Proof.Machine.execCreset core s
  | .wrcfg core sel data => Sys2Proof.Machine.execWrcfg core sel data s
  | .rdreg core sel => Sys2Proof.Machine.execRdreg core sel s
  | .modinit sel data => Sys2Proof.Machine.execModinit sel data s
  | .modtick sel data => Sys2Proof.Machine.execModtick sel data s
  | .rdmod sel aux => Sys2Proof.Machine.execRdmod sel aux s
  | .beginBurst n => Sys2Proof.Machine.execBegin n s
  | .render core => Sys2Proof.Machine.execRender core s
  | .endBurst => Sys2Proof.Machine.execEnd s
  | .tick => Sys2Proof.Machine.execTick s

end Sys2Proof.Machine
end

