-- ==== Sys2Proof/Machine/Step.lean ====
section
/-! DEFINITION. One step of the command executor: it takes the oldest pending command word, decodes it and runs it to
completion (spec/10_state.md R100, spec/30_encoding.md R305); with no word pending the unit is idle and all state is
held (spec/60_exceptions.md R816). -/

namespace Sys2Proof.Machine

/-- The executor runs the command word `cmd` (R305). -/
def runWord (cmd : Cmd) (s : State) : Host.Outcome State Fault Refusal :=
  match decode cmd with
  | .instr i => exec i s
  | .illegalOp => .next (takeIllegalOp s)
  | .rsvField => .next (takeReservedField s)

/-- One step of the executor. -/
def step (s : State) : Host.Outcome State Fault Refusal :=
  match s.pending with
  | [] => .next s
  | cmd :: rest => runWord cmd { s with pending := rest }

/-- The state with a command word placed where the executor takes its next one. -/
def State.withFetchWord (s : State) (nbits w : Nat) : State :=
  { s with pending := tableWord nbits w :: s.pending }

end Sys2Proof.Machine
end

