-- ==== Sys2Proof/Machine/HostPort.lean ====
section
/-! DEFINITION. What the host can do between commands: send command words, read the memories and read RESP
(spec/10_state.md R100, R110; spec/20_memory.md R201, R207, R208).  No host access changes anything but the words
pending at the command port, and none is a step of the executor. -/

namespace Sys2Proof.Machine

/-- A host access answers a value, or is refused by name. -/
inductive HostAnswer (α : Type) where
  | ok (a : α)
  | refused (r : Refusal)
  deriving Repr

/-- The spaces that the host can read (R201). -/
inductive HostSpace where
  | busA
  | busB
  | syncBuf
  deriving DecidableEq, Repr

/-- The number of words of a space under the parameters `P` (R200). -/
def HostSpace.words (P : Params) : HostSpace → Nat
  | .busA => P.busLen
  | .busB => P.busLen
  | .syncBuf => Config.CP

/-- The word at an index of a space. -/
def HostSpace.wordAt (sp : HostSpace) (s : State) (j : Nat) : Word :=
  match sp with
  | .busA => busRead s .A j
  | .busB => busRead s .B j
  | .syncBuf => syncRead s j

/-- A host read of word `j`: no side effect, and refused outside the space (R201). -/
def hostRead (P : Params) (sp : HostSpace) (j : Nat) (s : State) : HostAnswer Word :=
  if j < sp.words P then .ok (sp.wordAt s j) else .refused (.hostReadOutsideSpace j)

/-- A dump of a space as bytes, each word little-endian (R207).  DESIGN CHOICE (notes/assumptions 22): R207 fixes only the
order of the bytes in a word; that a dump holds the whole space, and its words in rising order of index, is the
model's. -/
def hostDump (P : Params) (sp : HostSpace) (s : State) : List Byte :=
  (List.range (sp.words P)).flatMap fun j => wordBytes (sp.wordAt s j)

/-- A host read of RESP (R110, R209). -/
def hostReadResp (s : State) : Word := s.resp

/-- The host writes a command word to the port: it arrives after those already pending (R100, R210). -/
def hostSend (cmd : Cmd) (s : State) : State := { s with pending := s.pending ++ [cmd] }

/-- The host writes command words over a byte bus: whole words arrive in order (R207), and a run that ends in a
partial word is refused (R208). -/
def hostSendBytes (bytes : List Byte) (s : State) : HostAnswer State :=
  match cmdsOfBytes bytes with
  | some cs => .ok { s with pending := s.pending ++ cs }
  | none => .refused .partialCommandWord

end Sys2Proof.Machine
end

