-- ==== Sys2Proof/Safety.lean ====
section
/-! DEFINITION. What counts as a safe run of the unit: fault states, the errors a command raises, and the invariant of
the machine in whose terms claims about reachable states are made; and what a correctly rounded f32 result is. -/

namespace Sys2Proof

/-- A source whose every pattern is a NaN, as a unit's is (spec/93_implementation_defined.md item 5). -/
abbrev NanSource.Ok (ν : NanSource) : Prop := ∀ path op a b, F32.isNaN (ν path op a b) = true

/-- Neither a NaN nor an infinity. -/
abbrev F32.Finite (x : Word) : Prop := F32.mag x < F32.infMag

/-- The value of a pattern that is no NaN: an integer number of units of 2^-149, or an infinity (R16). -/
def F32.value (x : Word) : WithBot (WithTop Int) :=
  if F32.isInf x then (if F32.sign x then ⊥ else ((⊤ : WithTop Int) : WithBot (WithTop Int)))
  else ((F32.toInt x : WithTop Int) : WithBot (WithTop Int))

/-- `r` is `num / den` units of 2^-149 rounded to binary32 to nearest, ties to even: an exact value below half a unit
beyond the largest finite one gives the nearest finite value, and any other the infinity of its sign
(spec/00_scope.md R15). -/
structure F32.IsRounded (r : Word) (num : Int) (den : Nat) : Prop where
  finite : num.natAbs < (2 ^ 25 - 1) * 2 ^ 252 * den → F32.Finite r
  nearest : num.natAbs < (2 ^ 25 - 1) * 2 ^ 252 * den → ∀ y, F32.Finite y →
    (F32.toInt r * den - num).natAbs ≤ (F32.toInt y * den - num).natAbs
  even : num.natAbs < (2 ^ 25 - 1) * 2 ^ 252 * den → ∀ y, F32.Finite y → F32.toInt y ≠ F32.toInt r →
    (F32.toInt r * den - num).natAbs = (F32.toInt y * den - num).natAbs → F32.mag r % 2 = 0
  overflow : (2 ^ 25 - 1) * 2 ^ 252 * den ≤ num.natAbs → r = if num < 0 then 0xFF800000 else 0x7F800000

end Sys2Proof

namespace Sys2Proof.Machine

/-- A state that records a refused command: a departure from the host's contract, never final
(spec/60_exceptions.md R806).  The unit itself keeps running. -/
abbrev State.FaultState (s : State) : Prop := s.status ≠ 0

/-- No command has been refused since the last RESET (R806, R811). -/
abbrev State.Clean (s : State) : Prop := s.status = 0

/-- The STATUS bit of the error that what a command word decodes to raises in a state, if it raises one: of those that
apply, the first in the order ILLEGAL_OP, RSV_FIELD, BAD_SEL, SEQUENCE, BAD_COUNT (spec/60_exceptions.md R802, R804,
R805; spec/42_burst.md R508). -/
def refusedBit (s : State) : Decoded → Option Nat
  | .illegalOp => some 0
  | .rsvField => some 1
  | .instr .nop | .instr .reset | .instr (.creset _) => none
  | .instr (.wrcfg _ sel _) => if 0x10 ≤ sel then some 2 else none
  | .instr (.rdreg _ sel) => if (0x15 ≤ sel ∧ sel ≤ 0x1F) ∨ 0x25 ≤ sel then some 2 else none
  | .instr (.modinit sel _) | .instr (.modtick sel _) =>
    if sel = 0 ∨ 20 < sel then some 2 else if s.inBurst = true ∨ s.offset ≠ 0 then some 4 else none
  | .instr (.rdmod sel aux) => if 20 < sel ∨ 2 < aux then some 2 else none
  | .instr (.beginBurst n) =>
    if s.inBurst = true then some 4 else if n = 0 ∨ 64 < n ∨ 64 < s.offset.toNat + n then some 3 else none
  | .instr (.render _) | .instr .endBurst => if s.inBurst = true then none else some 4
  | .instr .tick => if s.inBurst = true ∨ s.offset ≠ 64 then some 4 else none

/-- A value in [0, 1), or a zero of either sign (R104, R568). -/
def phaseOk (x : Word) : Bool := F32.le F32.posZero x && F32.lt x F32.one

/-- A value in [0, 1]. -/
def fractionOk (x : Word) : Bool := F32.le F32.posZero x && F32.le x F32.one

/-- A word of SYNC_BUF: no wrap, or a wrap fraction (spec/20_memory.md R206, spec/43_render.md R564). -/
def exportOk (x : Word) : Bool := (x == F32.negOne) || fractionOk x

/-- A held noise level: +0.0 or a draw, so in [−0.5, +0.5] (R12, R606). -/
def levelOk (x : Word) : Bool := F32.le F32.negHalf x && F32.le x F32.half

/-- The values that LAST_MODE and LAST_WAVE take together: both −1, or a mode number and a waveform number
(R104, R107, R555). -/
def lastSeenOk (o : Osc) : Bool :=
  (o.lastMode == BitVec.ofInt 32 (-1) && o.lastWave == BitVec.ofInt 32 (-1))
    || (decide (o.lastMode.toNat < 12) && decide (o.lastWave.toNat < 5))

/-- The three memory spaces are in canonical form, within their index ranges (R200, R203). -/
structure State.MemOk (s : State) : Prop where
  busA : Mem.wf busReset Config.params.busLen s.busA = true
  busB : Mem.wf busReset Config.params.busLen s.busB = true
  syncBuf : Mem.wf syncReset Config.CP s.syncBuf = true

/-- The unit's registers stand in the relations the spec gives them. -/
structure State.UnitOk (s : State) : Prop where
  /-- Slot 0 is constant (R112, R452). -/
  slotZero : modSlot s 0 = ModSlot.constantOne
  /-- A burst never straddles a control-period boundary (R500, R813). -/
  position : s.offset.toNat + s.burstN.val ≤ Config.CP
  /-- BURST_N is 0 exactly when no burst is open (R108, R502). -/
  openBurst : s.inBurst = true ↔ s.burstN ≠ 0
  /-- STATUS bits 31:5 are 0 (R109). -/
  statusBits : s.status.toNat < 32

/-- SYNC_BUF holds exports, and in an open burst its words from BURST_N on are −1.0 (R206). -/
structure State.SyncOk (s : State) : Prop where
  exports : ∀ j, exportOk (syncRead s j) = true
  tail : s.inBurst = true → ∀ j, s.burstN.val ≤ j → syncRead s j = syncReset

/-- The state registers of every core are in range (R104, R107, R568). -/
structure State.OscOk (s : State) : Prop where
  phase : ∀ c, phaseOk (oscRead s c).pos = true
  level : ∀ c, levelOk (oscRead s c).nval = true
  lastSeen : ∀ c, lastSeenOk (oscRead s c) = true

/-- The invariant of the unit: every step keeps it. -/
structure State.Inv (s : State) : Prop where
  mem : s.MemOk
  unit : s.UnitOk
  sync : s.SyncOk
  osc : s.OscOk

end Sys2Proof.Machine
end

