-- ==== Sys2Proof/Certificates/Slice0/Obligations.lean ====
section
/-! DEFINITION. The statements about the model, from the numbered rules of spec/.  A statement about a next state says
`exec i s = .next t` under hypotheses on the state and the operands alone.  Where a result may be a NaN, its bits are
free: a `NanSource` that answers NaNs is then said to exist. -/

open Sys2Proof Sys2Proof.Machine

/-! ## Encoding (30_encoding.md) -/

/-- Decoding the word of a well-formed command gives the command back, with every operand at every value its field
admits (R301, R303, R305). -/
def Obligations.DecodeOfEncode : Prop :=
  ∀ i : Instr, i.wf = true → decode (encode i) = .instr i

/-- A word that decodes to a command is that command's word, and the command is well-formed: each command has one
word (R301, R304). -/
def Obligations.EncodeOfDecode : Prop :=
  ∀ (cmd : Cmd) (i : Instr), decode cmd = .instr i → encode i = cmd ∧ i.wf = true

/-- Decoding is total and its two errors are raised in the order of R305: an opcode above 0x0B is illegal whatever
its other fields hold; any other word that no row of R304 selects has a nonzero reserved field; and a word is a
command exactly when a row selects it. -/
def Obligations.DecodeErrorsInOrder : Prop :=
  ∀ cmd : Cmd,
    (decode cmd = .illegalOp ↔ 0x0B < opField cmd)
    ∧ (decode cmd = .rsvField ↔ opField cmd ≤ 0x0B ∧ ∀ row ∈ opcodeTable, row.selects cmd = false)
    ∧ ((∃ i, decode cmd = .instr i ∧ i.opcode = opField cmd) ↔ ∃ row ∈ opcodeTable, row.selects cmd = true)

/-- The worked encodings of R310. -/
def Obligations.WorkedEncodings : Prop :=
  (opField 0x034000003F800000 = 0x03 ∧ coreField 0x034000003F800000 = 1 ∧ selField 0x034000003F800000 = 0x00
    ∧ auxField 0x034000003F800000 = 0 ∧ dataField 0x034000003F800000 = 0x3F800000)
  ∧ decode 0x034000003F800000 = .instr (.wrcfg 1 0x00 0x3F800000)
  ∧ encode (.wrcfg 1 0x00 0x3F800000) = 0x034000003F800000
  ∧ decode 0x0800004000000000 = .instr (.beginBurst 64) ∧ encode (.beginBurst 64) = 0x0800004000000000
  ∧ decode 0x09C0000000000000 = .instr (.render 3) ∧ encode (.render 3) = 0x09C0000000000000

/-- Command words that a host sends as bytes, the byte with bits 7:0 first, arrive in order (R207), and a partial word
has no meaning and is refused (R208).  Two things here are the model's choice: any number of words arrives behind those
pending, since the model's port has no bound (notes/assumptions 1), and a run of bytes that ends in a partial word is
refused as a whole (notes/assumptions 17). -/
def Obligations.SerializedCommandsArrive : Prop :=
  (∀ (cmds : List Cmd) (s : State),
    hostSendBytes (cmds.flatMap cmdBytes) s = .ok { s with pending := s.pending ++ cmds })
  ∧ ∀ (bytes : List Byte) (s : State), bytes.length % 8 ≠ 0 → hostSendBytes bytes s = .refused .partialCommandWord

/-! ## The executor (10_state.md, 60_exceptions.md) -/

/-- A step runs the decoded command: the oldest pending word is taken from the port, and what happens is exec of the
command it decodes to (R100, R305). -/
def Obligations.StepRunsDecodedCommand : Prop :=
  ∀ (s : State) (cmd : Cmd) (rest : List Cmd) (i : Instr), s.pending = cmd :: rest → decode cmd = .instr i →
    step s = exec i { s with pending := rest }

/-- With no command pending the unit is idle and holds all its state (R816). -/
def Obligations.IdleUnitHoldsState : Prop :=
  ∀ s : State, s.pending = [] → step s = .next s

/-- Opcodes 0x0C to 0xFF raise ILLEGAL_OP, STATUS bit 0, and have no other meaning (R306). -/
def Obligations.IllegalOpcodeOnlySetsStatus : Prop :=
  ∀ (s : State) (cmd : Cmd) (rest : List Cmd), s.pending = cmd :: rest → 0x0B < opField cmd →
    step s = .next { s with pending := rest, pc := s.pc + 1, status := s.status ||| 0x01 }

/-- A word with a nonzero reserved field raises RSV_FIELD, STATUS bit 1, and changes nothing else but `pc`
(R304, R305, R801). -/
def Obligations.ReservedFieldOnlySetsStatus : Prop :=
  ∀ (s : State) (cmd : Cmd) (rest : List Cmd), s.pending = cmd :: rest → opField cmd ≤ 0x0B →
    (∀ row ∈ opcodeTable, row.selects cmd = false) →
    step s = .next { s with pending := rest, pc := s.pc + 1, status := s.status ||| 0x02 }

/-- No command stops the executor (R800), and each one, whether it succeeds or raises an error, advances `pc` by
exactly 1 (R101), with none pending by none (R816).  That a step takes one word from a queue of pending words is the
model's choice (notes/assumptions 1), and so is that RESET leaves the other pending words in place (notes/assumptions 4);
that RESET too counts itself in `pc` is inferred (notes/assumptions 3). -/
def Obligations.EveryStepGoesOn : Prop :=
  ∀ s : State, ∃ t, step s = .next t ∧ t.pending = s.pending.tail
    ∧ t.pc = s.pc + (if s.pending = [] then 0 else 1)

/-- Errors are precise and sticky.  A command that raises an error, by the table of R802 and R804 in the order of R805,
sets that one bit of STATUS, whether or not it was set already, and changes nothing else but `pc` (R801, R810, R811);
every other command leaves STATUS alone, but for RESET, which clears it.  That the word is taken from a queue of pending
words is the model's choice (notes/assumptions 1). -/
def Obligations.ErrorsArePrecise : Prop :=
  ∀ (s : State) (cmd : Cmd) (rest : List Cmd), s.pending = cmd :: rest →
    (∀ b, refusedBit s (decode cmd) = some b → b < 5
      ∧ step s = .next { s with pending := rest, pc := s.pc + 1, status := s.status ||| (1#32 <<< b) })
    ∧ (refusedBit s (decode cmd) = none →
      ∃ t, step s = .next t ∧ t.status = if decode cmd = .instr .reset then 0 else s.status)

/-! ## Control commands (40_control.md) -/

/-- The all-zero word is NOP, and NOP only advances `pc` (R401). -/
def Obligations.ZeroWordIsNop : Prop :=
  decode 0 = .instr .nop
  ∧ (∀ s : State, exec .nop s = .next { s with pc := s.pc + 1 })
  ∧ ∀ (s : State) (rest : List Cmd), s.pending = 0 :: rest →
      step s = .next { s with pending := rest, pc := s.pc + 1 }

/-- The state at power-on equals the state after RESET, and its `pc` is 0 (R900).  RESET leaves alone `pc` but for
counting itself, the words pending at the port and the NOISE source.  That RESET counts itself is inferred
(notes/assumptions 3), and that the last two are left is the model's choice (notes/assumptions 4 and 5). -/
def Obligations.ResetEqualsPowerOn : Prop :=
  (∀ s : State, exec .reset s
    = .next { State.reset with pc := s.pc + 1, pending := s.pending, drawIx := s.drawIx })
  ∧ State.reset.pc = 0

/-- The reset value of every piece of state (R901).  That a RESET command counts itself in `pc` is inferred from R101
against R901's "RESET does not change it" (notes/assumptions 3). -/
def Obligations.ResetValues : Prop :=
  (∀ c r, cfgRead State.reset c r = 0x00000000)
  ∧ (∀ c, oscRead State.reset c
      = { pos := 0x00000000, sect := true, nval := 0x00000000, lastMode := 0xFFFFFFFF, lastWave := 0xFFFFFFFF })
  ∧ State.reset.offset = 0 ∧ State.reset.burstN = 0 ∧ State.reset.inBurst = false ∧ State.reset.status = 0
  ∧ (∀ c, regRead State.reset c 0x24 = some 0x424C0104)
  ∧ State.reset.resp = 0x00000000
  ∧ modSlot State.reset 0 = { value := 0x3F800000, next := 0x3F800000, delta := 0x00000000 }
  ∧ (∀ i, i ≠ 0 → modSlot State.reset i = { value := 0x00000000, next := 0x00000000, delta := 0x00000000 })
  ∧ (∀ b j, busRead State.reset b j = 0x00000000)
  ∧ (∀ j, syncRead State.reset j = 0xBF800000)
  ∧ State.reset.pc = 0
  ∧ ∀ s : State, ∃ t, exec .reset s = .next t ∧ t.pc = s.pc + 1

/-- CRESET resets the state registers of its core and nothing else: every configuration register, every other core, the
buses, SYNC_BUF and all the rest stay (R403, R404). -/
def Obligations.CresetResetsOneCore : Prop :=
  ∀ (c : Fin 4) (s : State), ∃ t, exec (.creset c) s = .next t
    ∧ oscRead t c
      = { pos := 0x00000000, sect := true, nval := 0x00000000, lastMode := 0xFFFFFFFF, lastWave := 0xFFFFFFFF }
    ∧ (∀ d, d ≠ c → oscRead t d = oscRead s d)
    ∧ (∀ d r, cfgRead t d r = cfgRead s d r)
    ∧ t = { s with pc := s.pc + 1, cores := t.cores }

/-- WRCFG stores its 32 bits unchanged in one configuration register, and changes nothing else (R406, R102). -/
def Obligations.WrcfgStoresTheWord : Prop :=
  ∀ (c : Fin 4) (r : Fin 16) (data : Word) (s : State), ∃ t, exec (.wrcfg c r.val data) s = .next t
    ∧ cfgRead t c r = data
    ∧ (∀ d q, (d, q) ≠ (c, r) → cfgRead t d q = cfgRead s d q)
    ∧ (∀ d, oscRead t d = oscRead s d)
    ∧ t = { s with pc := s.pc + 1, cores := t.cores }

/-- A configuration register holds the last word written to it: WRCFG of that register writes it, RESET resets it, and
nothing else changes it (R407). -/
def Obligations.ConfigChangedByWrcfgAndResetOnly : Prop :=
  ∀ (i : Instr) (s t : State) (c : Fin 4) (r : Fin 16), exec i s = .next t →
    (∀ data, i = .wrcfg c r.val data → cfgRead t c r = data)
    ∧ (i = .reset → cfgRead t c r = 0)
    ∧ ((∀ data, i ≠ .wrcfg c r.val data) → i ≠ .reset → cfgRead t c r = cfgRead s c r)

/-- RDREG puts the register that `sel` names in RESP and changes nothing else (R408, R102, R104, R108). -/
def Obligations.RdregReadsTheRegister : Prop :=
  ∀ (c : Fin 4) (s : State),
    (∀ r : Fin 16, exec (.rdreg c r.val) s = .next { s with pc := s.pc + 1, resp := cfgRead s c r })
    ∧ exec (.rdreg c 0x10) s = .next { s with pc := s.pc + 1, resp := (oscRead s c).pos }
    ∧ exec (.rdreg c 0x11) s = .next { s with pc := s.pc + 1, resp := if (oscRead s c).sect then 1 else 0 }
    ∧ exec (.rdreg c 0x12) s = .next { s with pc := s.pc + 1, resp := (oscRead s c).nval }
    ∧ exec (.rdreg c 0x13) s = .next { s with pc := s.pc + 1, resp := (oscRead s c).lastMode }
    ∧ exec (.rdreg c 0x14) s = .next { s with pc := s.pc + 1, resp := (oscRead s c).lastWave }
    ∧ exec (.rdreg c 0x20) s = .next { s with pc := s.pc + 1, resp := s.offset }
    ∧ exec (.rdreg c 0x21) s = .next { s with pc := s.pc + 1, resp := BitVec.ofNat 32 s.burstN.val }
    ∧ exec (.rdreg c 0x22) s = .next { s with pc := s.pc + 1, resp := if s.inBurst then 1 else 0 }
    ∧ exec (.rdreg c 0x23) s = .next { s with pc := s.pc + 1, resp := BitVec.ofNat 32 (s.status.toNat % 32) }
    ∧ exec (.rdreg c 0x24) s = .next { s with pc := s.pc + 1, resp := 0x424C0104 }

/-- BAD_SEL, command by command: STATUS bit 2 is set and nothing else but `pc` changes (R804). -/
def Obligations.BadSelCommandByCommand : Prop :=
  ∀ (c : Fin 4) (sel aux : Nat) (data : Word) (s : State),
    let refused : Host.Outcome State Fault Refusal :=
      .next { s with pc := s.pc + 1, status := s.status ||| 0x04 }
    (0x10 ≤ sel → exec (.wrcfg c sel data) s = refused)
    ∧ ((0x15 ≤ sel ∧ sel ≤ 0x1F) ∨ (0x25 ≤ sel ∧ sel ≤ 0x3F) → exec (.rdreg c sel) s = refused)
    ∧ (sel = 0 ∨ 20 < sel → exec (.modinit sel data) s = refused ∧ exec (.modtick sel data) s = refused)
    ∧ (20 < sel ∨ 2 < aux → exec (.rdmod sel aux) s = refused)

/-- RESP changes by RDREG, RDMOD and RESET only (R110, R402). -/
def Obligations.RespChangedByReadsOnly : Prop :=
  ∀ (i : Instr) (s t : State), exec i s = .next t → (∀ c sel, i ≠ .rdreg c sel) → (∀ sel aux, i ≠ .rdmod sel aux) →
    i ≠ .reset → t.resp = s.resp

/-! ## Modulation bus (41_modbus.md) -/

/-- MODINIT at a control-tick boundary sets a slot to one value with delta +0.0, and changes nothing else (R450,
R455). -/
def Obligations.ModinitSetsTheSlot : Prop :=
  ∀ (i : Fin 21) (data : Word) (s : State), i ≠ 0 → s.inBurst = false → s.offset = 0 →
    ∃ t, exec (.modinit i.val data) s = .next t
      ∧ modSlot t i = { value := data, next := data, delta := 0x00000000 }
      ∧ (∀ j, j ≠ i → modSlot t j = modSlot s j)
      ∧ t = { s with pc := s.pc + 1, mods := t.mods }

/-- MODTICK at a control-tick boundary moves `value` to `next`, takes the new `next`, and sets `delta` to their
difference over 64; it changes nothing else (R454, R455). -/
def Obligations.ModtickMovesTheSlot : Prop :=
  ∀ (i : Fin 21) (data : Word) (s : State), i ≠ 0 → s.inBurst = false → s.offset = 0 →
    ∃ t ν, exec (.modtick i.val data) s = .next t ∧ NanSource.Ok ν
      ∧ (modSlot t i).value = (modSlot s i).next
      ∧ (modSlot t i).next = data
      ∧ (modSlot t i).delta = F32.div ν (F32.sub ν data (modSlot s i).next) 0x42800000
      ∧ (∀ j, j ≠ i → modSlot t j = modSlot s j)
      ∧ t = { s with pc := s.pc + 1, mods := t.mods }

/-- RDMOD puts a field of a slot, slot 0 among them, in RESP and changes nothing else (R458). -/
def Obligations.RdmodReadsTheField : Prop :=
  ∀ (i : Fin 21) (s : State),
    exec (.rdmod i.val 0) s = .next { s with pc := s.pc + 1, resp := (modSlot s i).value }
    ∧ exec (.rdmod i.val 1) s = .next { s with pc := s.pc + 1, resp := (modSlot s i).next }
    ∧ exec (.rdmod i.val 2) s = .next { s with pc := s.pc + 1, resp := (modSlot s i).delta }

/-- Slot 0 holds 1.0 with delta +0.0 at all times: after reset, and after every command where it did before; so it
reads 1.0 at every offset of the control period (R452). -/
def Obligations.SlotZeroIsConstant : Prop :=
  modSlot State.reset 0 = { value := 0x3F800000, next := 0x3F800000, delta := 0x00000000 }
  ∧ (∀ (i : Instr) (s t : State),
      modSlot s 0 = { value := 0x3F800000, next := 0x3F800000, delta := 0x00000000 } → exec i s = .next t →
      modSlot t 0 = { value := 0x3F800000, next := 0x3F800000, delta := 0x00000000 })
  ∧ ∀ (ν : NanSource) (m : ModSlot) (k : Nat),
      m = { value := 0x3F800000, next := 0x3F800000, delta := 0x00000000 } → k ≤ 64 → modRead ν m k = 0x3F800000

/-- While a burst is open the modulation slots cannot change, but for a RESET, which closes the burst (R907, R402). -/
def Obligations.SlotsFixedInOpenBurst : Prop :=
  ∀ (i : Instr) (s t : State), s.inBurst = true → exec i s = .next t → i ≠ .reset → t.mods = s.mods

/-- After MODTICK a slot reads its `value` at offset 0 wherever `delta` is finite, the same bits where it is no zero.  At
offset 64 it reads `value` plus the rounded difference `data − value` where that divides by 64 exactly, and plus a number
within 32 units of 2^-149 of it where the division underflows; so it reads `next` where the difference is exact in
binary32 and the division does not underflow (R451, R454, R456). -/
def Obligations.RampReachesNext : Prop :=
  ∀ (ν μ : NanSource) (m : ModSlot) (data : Word), NanSource.Ok ν →
    let t := tickedSlot ν m data
    let d := F32.sub ν data m.next
    (F32.Finite t.delta →
      F32.Finite (modRead μ t 0) ∧ F32.toInt (modRead μ t 0) = F32.toInt m.next
      ∧ (F32.isZero m.next = false → modRead μ t 0 = m.next))
    ∧ (F32.Finite d → F32.Finite t.delta
      ∧ ∃ e, F32.Finite e ∧ (F32.toInt e - F32.toInt d).natAbs ≤ 32 ∧ ((64 : Int) ∣ F32.toInt d → e = d)
        ∧ modRead μ t 64 = F32.add μ m.next e)
    ∧ (F32.Finite d → F32.toInt d = F32.toInt data - F32.toInt m.next → (64 : Int) ∣ F32.toInt d →
      F32.Finite (modRead μ t 64) ∧ F32.toInt (modRead μ t 64) = F32.toInt data)

/-! ## Bursts and ticks (42_burst.md) -/

/-- BEGIN with no burst open and a count that fits the control period opens a burst and sets every SYNC_BUF word to
−1.0; it changes nothing else (R500, R501). -/
def Obligations.BeginOpensTheBurst : Prop :=
  ∀ (n : Nat) (s : State), s.inBurst = false → 1 ≤ n → s.offset.toNat + n ≤ 64 →
    ∃ t, exec (.beginBurst n) s = .next t
      ∧ t.burstN.val = n ∧ t.inBurst = true ∧ (∀ j, syncRead t j = 0xBF800000)
      ∧ t = { s with pc := s.pc + 1, burstN := t.burstN, inBurst := t.inBurst, syncBuf := t.syncBuf }

/-- A burst of length 0 is refused with BAD_COUNT, and so every open burst has at least one sample: every command
keeps that (R502). -/
def Obligations.ZeroBurstRefused : Prop :=
  (∀ s : State, s.inBurst = false →
    exec (.beginBurst 0) s = .next { s with pc := s.pc + 1, status := s.status ||| 0x08 })
  ∧ ∀ (i : Instr) (s t : State), (s.inBurst = true → 1 ≤ s.burstN.val) → exec i s = .next t →
      (t.inBurst = true → 1 ≤ t.burstN.val)

/-- BEGIN's errors: SEQUENCE in an open burst, whatever the count; otherwise BAD_COUNT for a count of 0, above 64, or
past the end of the control period. Nothing else but `pc` changes (R500, R805). -/
def Obligations.BeginRefusals : Prop :=
  ∀ (n : Nat) (s : State),
    (s.inBurst = true → exec (.beginBurst n) s = .next { s with pc := s.pc + 1, status := s.status ||| 0x10 })
    ∧ (s.inBurst = false → n = 0 ∨ 64 < n ∨ 64 < s.offset.toNat + n →
        exec (.beginBurst n) s = .next { s with pc := s.pc + 1, status := s.status ||| 0x08 })

/-- END moves each bus down by the burst length, zeroes the last words, advances OFFSET and closes the burst; it
changes nothing else, SYNC_BUF among it (R503). -/
def Obligations.EndShiftsTheBuses : Prop :=
  ∀ s : State, s.inBurst = true →
    ∃ t, exec .endBurst s = .next t
      ∧ (∀ b j, j + s.burstN.val < Config.params.busLen → busRead t b j = busRead s b (j + s.burstN.val))
      ∧ (∀ b j, j < Config.params.busLen → Config.params.busLen ≤ j + s.burstN.val → busRead t b j = 0x00000000)
      ∧ t = { s with pc := s.pc + 1, busA := t.busA, busB := t.busB,
                     offset := s.offset + BitVec.ofNat 32 s.burstN.val, burstN := 0, inBurst := false }

/-- TICK at the end of a control period with no burst open returns OFFSET to 0 and changes nothing else (R506). -/
def Obligations.TickReturnsOffsetToZero : Prop :=
  ∀ s : State, s.inBurst = false → s.offset = 64 → exec .tick s = .next { s with pc := s.pc + 1, offset := 0 }

/-- A command issued in the wrong burst state raises SEQUENCE, STATUS bit 4, and changes nothing else but `pc`
(R508, R551). -/
def Obligations.SequenceErrors : Prop :=
  ∀ s : State,
    let refused : Host.Outcome State Fault Refusal :=
      .next { s with pc := s.pc + 1, status := s.status ||| 0x10 }
    (∀ (i : Fin 21) (data : Word), i ≠ 0 → s.inBurst = true ∨ s.offset ≠ 0 →
      exec (.modinit i.val data) s = refused ∧ exec (.modtick i.val data) s = refused)
    ∧ (∀ n, s.inBurst = true → exec (.beginBurst n) s = refused)
    ∧ (∀ c, s.inBurst = false → exec (.render c) s = refused)
    ∧ (s.inBurst = false → exec .endBurst s = refused)
    ∧ (s.inBurst = true ∨ s.offset ≠ 64 → exec .tick s = refused)

/-! ## Binary32 (00_scope.md) -/

/-- Rounding gives the nearest binary32 magnitude, ties to even, and the infinity's exactly from half a unit beyond
the largest finite value on (R15). -/
def Obligations.RoundingIsNearestEven : Prop :=
  ∀ num den : Nat, 0 < den →
    (F32.roundMag num den < F32.infMag → ∀ m, m < F32.infMag →
      (F32.units (F32.pack false (F32.roundMag num den)) * den - num : Int).natAbs
          ≤ (F32.units (F32.pack false m) * den - num : Int).natAbs
      ∧ (m ≠ F32.roundMag num den →
          (F32.units (F32.pack false (F32.roundMag num den)) * den - num : Int).natAbs
            = (F32.units (F32.pack false m) * den - num : Int).natAbs → F32.roundMag num den % 2 = 0))
    ∧ (F32.roundMag num den = F32.infMag ↔ (2 ^ 25 - 1) * 2 ^ 252 * den ≤ num)
    ∧ F32.roundMag num den ≤ F32.infMag

/-- Each of the four operators, on finite operands, rounds its exact result, in units of 2^-149, once to nearest, ties
to even, and to an infinity only beyond the finite range; a product or quotient takes the sign of its operands' signs,
and a sum or difference that is zero is −0.0 only of two negative zeros' addends.  On the other operands they are as
IEEE 754 says: a NaN operand, `∞ − ∞`, `0 × ∞`, `0 / 0` and `∞ / ∞` give a NaN, and every other operation on an infinity
and every other division by zero gives an infinity or a zero of its sign.  `(f32)n` is exact (R15, R807). -/
def Obligations.OperatorsRoundToNearest : Prop :=
  (∀ (ν : NanSource) (a b : Word), F32.Finite a → F32.Finite b →
    (F32.IsRounded (F32.add ν a b) (F32.toInt a + F32.toInt b) 1
      ∧ (F32.toInt a + F32.toInt b = 0 →
        F32.add ν a b = if F32.sign a = true ∧ F32.sign b = true then 0x80000000 else 0x00000000))
    ∧ (F32.IsRounded (F32.sub ν a b) (F32.toInt a - F32.toInt b) 1
      ∧ (F32.toInt a - F32.toInt b = 0 →
        F32.sub ν a b = if F32.sign a = true ∧ F32.sign b = false then 0x80000000 else 0x00000000))
    ∧ (F32.IsRounded (F32.mul ν a b) (F32.toInt a * F32.toInt b) (2 ^ 149)
      ∧ F32.sign (F32.mul ν a b) = (F32.sign a != F32.sign b))
    ∧ (F32.isZero b = false →
      F32.IsRounded (F32.div ν a b) (F32.toInt a * 2 ^ 149 * (F32.toInt b).sign) (F32.toInt b).natAbs
      ∧ F32.sign (F32.div ν a b) = (F32.sign a != F32.sign b)))
  ∧ (∀ (ν : NanSource) (a b : Word), NanSource.Ok ν →
    let signed : Word → Word := fun x => if F32.sign a = F32.sign b then x else x ||| 0x80000000
    (F32.isNaN a = true ∨ F32.isNaN b = true →
      F32.isNaN (F32.add ν a b) = true ∧ F32.isNaN (F32.sub ν a b) = true
      ∧ F32.isNaN (F32.mul ν a b) = true ∧ F32.isNaN (F32.div ν a b) = true)
    ∧ (F32.isInf a = true → F32.isInf b = true →
      (if F32.sign a = F32.sign b then F32.add ν a b = a ∧ F32.isNaN (F32.sub ν a b) = true
        else F32.isNaN (F32.add ν a b) = true ∧ F32.sub ν a b = a)
      ∧ F32.mul ν a b = signed 0x7F800000 ∧ F32.isNaN (F32.div ν a b) = true)
    ∧ (F32.isInf a = true → F32.Finite b →
      F32.add ν a b = a ∧ F32.sub ν a b = a ∧ F32.div ν a b = signed 0x7F800000
      ∧ (if F32.isZero b = true then F32.isNaN (F32.mul ν a b) = true else F32.mul ν a b = signed 0x7F800000))
    ∧ (F32.Finite a → F32.isInf b = true →
      F32.add ν a b = b ∧ F32.sub ν a b = b ^^^ 0x80000000 ∧ F32.div ν a b = signed 0x00000000
      ∧ (if F32.isZero a = true then F32.isNaN (F32.mul ν a b) = true else F32.mul ν a b = signed 0x7F800000))
    ∧ (F32.Finite a → F32.isZero b = true →
      if F32.isZero a = true then F32.isNaN (F32.div ν a b) = true else F32.div ν a b = signed 0x7F800000))
  ∧ ∀ n : Nat, n ≤ 2 ^ 16 → F32.Finite (F32.ofNat n) ∧ F32.toInt (F32.ofNat n) = n * 2 ^ 149

/-- The five comparisons order the values, the infinities among them, are false when either operand is NaN, and take +0
and −0 as equal; `clampTh` is as defined, so that NaN maps to the lower bound (R16). -/
def Obligations.ComparisonsFollowValues : Prop :=
  (∀ a b : Word, F32.isNaN a = false → F32.isNaN b = false →
    (F32.lt a b = true ↔ F32.value a < F32.value b) ∧ (F32.le a b = true ↔ F32.value a ≤ F32.value b)
    ∧ (F32.gt a b = true ↔ F32.value a > F32.value b) ∧ (F32.ge a b = true ↔ F32.value a ≥ F32.value b)
    ∧ (F32.eq a b = true ↔ F32.value a = F32.value b))
  ∧ (∀ a b : Word, F32.isNaN a = true ∨ F32.isNaN b = true →
      F32.lt a b = false ∧ F32.le a b = false ∧ F32.gt a b = false ∧ F32.ge a b = false ∧ F32.eq a b = false)
  ∧ F32.eq 0x00000000 0x80000000 = true
  ∧ (∀ x lo hi : Word, (F32.gt x hi = true → F32.clampTh x lo hi = hi)
      ∧ (F32.gt x hi = false → F32.ge x lo = true → F32.le x hi = true → F32.clampTh x lo hi = x)
      ∧ (F32.gt x hi = false → ¬ (F32.ge x lo = true ∧ F32.le x hi = true) → F32.clampTh x lo hi = lo)
      ∧ (F32.isNaN x = true → F32.clampTh x lo hi = lo))

/-- `rne` rounds a finite value to the nearest integer, ties to even, and gives `BAD` for NaN and the infinities,
which every decode of a selector takes as out of range (R17). -/
def Obligations.RneIsNearestEven : Prop :=
  (∀ x : Word, F32.Finite x → ∃ k : Int, F32.rne x = some k
    ∧ 2 * (k * 2 ^ 149 - F32.toInt x).natAbs ≤ 2 ^ 149
    ∧ (2 * (k * 2 ^ 149 - F32.toInt x).natAbs = 2 ^ 149 → k % 2 = 0))
  ∧ ∀ x : Word, ¬ F32.Finite x → F32.rne x = none ∧ decodeMode x = .off ∧ decodeWave x = .saw
      ∧ decodeSync x = .master ∧ srcIdx x = 0

/-! ## RENDER's selectors and ramps (43_render.md) -/

/-- The decode of MODE, WAVE, SYNC and of a modulation-source register: modes 0..11 and slots 0..20 by number and 0
for anything else, waveforms clamped to 0..4, roles clamped to 0..1 (R453, R552, R553, R554). -/
def Obligations.SelectorsDecode : Prop :=
  (∀ x : Word,
    (∀ k : Int, F32.rne x = some k → 0 ≤ k → k ≤ 11 → ((decodeMode x).number : Int) = k)
    ∧ ((∀ k : Int, F32.rne x = some k → k < 0 ∨ 11 < k) → decodeMode x = .off)
    ∧ (∀ k : Int, F32.rne x = some k → 0 ≤ k → k ≤ 4 → ((decodeWave x).number : Int) = k)
    ∧ (∀ k : Int, F32.rne x = some k → 4 < k → decodeWave x = .clipped)
    ∧ ((∀ k : Int, F32.rne x = some k → k < 0) → decodeWave x = .saw)
    ∧ (∀ k : Int, F32.rne x = some k → 1 ≤ k → decodeSync x = .slave)
    ∧ ((∀ k : Int, F32.rne x = some k → k ≤ 0) → decodeSync x = .master)
    ∧ (∀ k : Int, F32.rne x = some k → 0 ≤ k → k ≤ 20 → ((srcIdx x).val : Int) = k)
    ∧ ((∀ k : Int, F32.rne x = some k → k < 0 ∨ 20 < k) → srcIdx x = 0))
  ∧ [Mode.off, .minBlep, .wavetable, .asyncGranular, .fmWave2Sine, .fmSine2Wave, .waveshaper, .noise, .padSynth,
      .phaseDistortion, .fmWave2Lf, .wtChorus].map Mode.number = List.range 12
  ∧ [Wave.saw, .rect, .tri, .noise, .clipped].map Wave.number = List.range 5

/-- The phase increment of every sample is in [−0.0, 0.5] and never NaN; the threshold is in [wt, 1 − wt], is at least
the increment, and is never 0 or 1 (R558, R560). -/
def Obligations.IncrementAndThresholdRanges : Prop :=
  ∀ (ν : NanSource) (x q : Word),
    let w := clampIncrement x
    let wt := F32.clampTh w 0x33800000 0x3F000000
    let th := clampThreshold ν q w
    (F32.isNaN w = false ∧ F32.le 0x00000000 w = true ∧ F32.le w 0x3F000000 = true)
    ∧ F32.le wt th = true ∧ F32.le th (F32.sub ν 0x3F800000 wt) = true
    ∧ F32.le w th = true ∧ F32.lt 0x00000000 th = true ∧ F32.lt th 0x3F800000 = true

/-- R560's remark that `1.0 − wt_s` is exact.  It is refuted: between 0.25 and 0.5 an odd significand has half a unit
too many below (notes/assumptions 14). -/
def Obligations.ThresholdComplementExact : Prop :=
  ∀ (ν : NanSource) (x : Word),
    let wt := F32.clampTh (clampIncrement x) 0x33800000 0x3F000000
    F32.toInt (F32.sub ν 0x3F800000 wt) = F32.toInt 0x3F800000 - F32.toInt wt

/-- With no pitch modulation and a finite W_BASE, the increment of every sample is W_BASE clamped to [0, 0.5], up to
the sign of a zero; with no amplitude modulation the gains are the levels (R558, R559, R561). -/
def Obligations.UnmodulatedRamps : Prop :=
  ∀ (ν μ : NanSource) (cfg : Vector Word 16) (mods : Vector ModSlot 21) (o n s : Nat), 1 ≤ n → n ≤ 64 → s < n →
    (F32.isZero cfg[CfgSel.PM_AMT] = true → F32.Finite cfg[CfgSel.W_BASE] →
      (∀ κ, F32.Finite (modRead κ mods[srcIdx cfg[CfgSel.PM_SRC]] o)
        ∧ F32.Finite (modRead κ mods[srcIdx cfg[CfgSel.PM_SRC]] (o + n))) →
      F32.order (sampleOf ν cfg (rampsOf Config.params μ cfg mods o n) s).w
        = F32.order (F32.clampTh cfg[CfgSel.W_BASE] 0x00000000 0x3F000000))
    ∧ (F32.isZero cfg[CfgSel.AM_AMT] = true →
      (∀ κ, F32.Finite (modRead κ mods[srcIdx cfg[CfgSel.AM_SRC]] o)
        ∧ F32.Finite (modRead κ mods[srcIdx cfg[CfgSel.AM_SRC]] (o + n))) →
      (F32.isNaN cfg[CfgSel.LEVEL_A] = false →
        (sampleOf ν cfg (rampsOf Config.params μ cfg mods o n) s).gA = cfg[CfgSel.LEVEL_A])
      ∧ (F32.isNaN cfg[CfgSel.LEVEL_B] = false →
        (sampleOf ν cfg (rampsOf Config.params μ cfg mods o n) s).gB = cfg[CfgSel.LEVEL_B]))

/-! ## Waveforms and the per-sample step (43_render.md, 44_waveforms.md) -/

/-- `place_step` and `place_slope` add gain × size × table value to each of the L bus words from the sample's index on,
on both buses, and change nothing else (R600, R601, R204). -/
def Obligations.PlacementAddsTheTaps : Prop :=
  ∀ (P : Params) (ν : NanSource) (e : Sample) (r x : Word) (v : Voice), NanSource.Ok ν → e.s < 64 →
    Mem.wf busReset P.busLen v.busA = true → Mem.wf busReset P.busLen v.busB = true →
    ∀ (rom : Word → Nat → Word) (u : Voice),
      (rom = P.step ∧ u = placeStep P ν e r x v) ∨ (rom = P.slope ∧ u = placeSlope P ν e r x v) →
      (∀ k, k < P.L → ∃ μ₁ μ₂ μ₃, NanSource.Ok μ₁ ∧ NanSource.Ok μ₂ ∧ NanSource.Ok μ₃
        ∧ Mem.read busReset u.busA (e.s + k)
          = F32.add μ₁ (Mem.read busReset v.busA (e.s + k)) (F32.mul μ₂ (F32.mul μ₃ e.gA x) (rom r k)))
      ∧ (∀ k, k < P.L → ∃ μ₁ μ₂ μ₃, NanSource.Ok μ₁ ∧ NanSource.Ok μ₂ ∧ NanSource.Ok μ₃
        ∧ Mem.read busReset u.busB (e.s + k)
          = F32.add μ₁ (Mem.read busReset v.busB (e.s + k)) (F32.mul μ₂ (F32.mul μ₃ e.gB x) (rom r k)))
      ∧ (∀ j, j < e.s ∨ e.s + P.L ≤ j →
          Mem.read busReset u.busA j = Mem.read busReset v.busA j
          ∧ Mem.read busReset u.busB j = Mem.read busReset v.busB j)
      ∧ u = { v with busA := u.busA, busB := u.busB }

/-- The examples of R603 to R607: four free steps (R562, R563) at an increment of 0.25 with the threshold 0.5, from phase
0, SECT 1 and NVAL +0.0.  The naive values after each step, the noise's with the draws taken; and what each step places
on the buses, all at `r = 0`: a THRESH in sample 1 but for the sawtooth, a WRAP in sample 3, nothing in samples 0
and 2. -/
def Obligations.NaiveExamples : Prop :=
  ∀ (P : Params) (ν : NanSource) (role : Role) (gA gB : Word) (v : Voice), NanSource.Ok ν →
    v.osc.pos = 0x00000000 → v.osc.sect = true → v.osc.nval = 0x00000000 →
    let e : Nat → Sample := fun s => { s := s, w := 0x3E800000, th := 0x3F000000, gA := gA, gB := gB }
    let after : Wave → Nat → Voice := fun wv n =>
      (List.range n).foldl (fun u s => freeSample P ν (e s) wv role u) v
    let y : Wave → Nat → Word := fun wv s =>
      let o := (after wv (s + 1)).osc
      naive ν wv o.pos o.sect o.nval 0x3F000000
    let buses : Voice → Mem × Mem := fun u => (u.busA, u.busB)
    let d₁ := P.noise v.drawIx
    let d₂ := P.noise (v.drawIx + 1)
    [0, 1, 2, 3].map (y .saw) = [0x3E800000, 0x00000000, 0xBE800000, 0x3F000000]
    ∧ [0, 1, 2, 3].map (y .rect) = [0x3F000000, 0xBF000000, 0xBF000000, 0x3F000000]
    ∧ [0, 1, 2, 3].map (y .tri) = [0x00000000, 0x3F000000, 0x00000000, 0xBF000000]
    ∧ [0, 1, 2, 3].map (y .noise) = [0x00000000, d₁, d₁, d₂]
    ∧ [0, 1, 2, 3].map (y .clipped) = [0x00000000, 0x3F000000, 0x3F000000, 0xBF000000]
    ∧ (∀ wv, buses (after wv 1) = buses v ∧ buses (after wv 3) = buses (after wv 2))
    ∧ ∃ κ : Nat → NanSource, (∀ i, NanSource.Ok (κ i))
      ∧ buses (after .saw 2) = buses (after .saw 1)
      ∧ buses (after .saw 4) = buses (placeStep P (κ 0) (e 3) 0x00000000 0x3F800000 (after .saw 3))
      ∧ buses (after .rect 2) = buses (placeStep P (κ 1) (e 1) 0x00000000 0xBF800000 (after .rect 1))
      ∧ buses (after .rect 4) = buses (placeStep P (κ 2) (e 3) 0x00000000 0x3F800000 (after .rect 3))
      ∧ buses (after .tri 2) = buses (placeSlope P (κ 3) (e 1) 0x00000000 0xBF800000 (after .tri 1))
      ∧ buses (after .tri 4) = buses (placeSlope P (κ 4) (e 3) 0x00000000 0x3F800000 (after .tri 3))
      ∧ buses (after .noise 2)
        = buses (placeStep P (κ 5) (e 1) 0x00000000 (F32.sub (κ 6) d₁ 0x00000000) (after .noise 1))
      ∧ buses (after .noise 4) = buses (placeStep P (κ 7) (e 3) 0x00000000 (F32.sub (κ 8) d₂ d₁) (after .noise 3))
      ∧ buses (after .clipped 2) = buses (placeSlope P (κ 9) (e 1) 0x00000000 0xBF000000 (after .clipped 1))
      ∧ buses (after .clipped 4) = buses (placeSlope P (κ 10) (e 3) 0x00000000 0x3F000000
          (placeStep P (κ 11) (e 3) 0x00000000 0xBF800000 (after .clipped 3)))

/-- A phase that reaches 1.0 with a threshold of R560 has SECT 0 when its WRAP event comes, for every waveform but the
sawtooth; so the rectangle's naive value really jumps by the +1.0 that its WRAP places (R604). -/
def Obligations.WrapFindsSectionZero : Prop :=
  ∀ (P : Params) (ν μ : NanSource) (e : Sample) (wv : Wave) (x q p rb : Word) (v : Voice), NanSource.Ok ν →
    e.th = clampThreshold μ q (clampIncrement x) → wv ≠ .saw → F32.ge p 0x3F800000 = true →
    let u := threshEvent P ν e wv p rb v
    let t := (wrapEvent P ν e wv p rb u).1
    u.osc.sect = false ∧ t.osc.sect = true
    ∧ (wv = .rect →
      naive ν .rect u.osc.pos u.osc.sect u.osc.nval e.th = 0xBF000000
      ∧ naive ν .rect t.osc.pos t.osc.sect t.osc.nval e.th = 0x3F000000
      ∧ ∃ κ r, NanSource.Ok κ ∧ t.busA = (placeStep P κ e r 0x3F800000 u).busA
        ∧ t.busB = (placeStep P κ e r 0x3F800000 u).busB)

/-- The free step of a sample: POS takes the phase, less 1.0 where it wraps; a master exports the wrap fraction, clamped
to [0, 1], or −1.0; a slave writes no SYNC_BUF word (R562, R563, R564). -/
def Obligations.FreeStepMovesAndExports : Prop :=
  ∀ (P : Params) (ν : NanSource) (e : Sample) (wv : Wave) (v : Voice), NanSource.Ok ν →
    Mem.wf syncReset 64 v.syncBuf = true →
    ∃ μ₁ μ₂ μ₃ : NanSource, NanSource.Ok μ₁ ∧ NanSource.Ok μ₂ ∧ NanSource.Ok μ₃ ∧
      let p := F32.add μ₁ v.osc.pos e.w
      let p1 := F32.sub μ₂ p 0x3F800000
      let rw := if F32.gt e.w 0x00000000 = true
        then F32.clampTh (F32.add μ₃ 0x00000000 (F32.div μ₃ p1 e.w)) 0x00000000 0x3F800000 else 0x3F800000
      let m := freeSample P ν e wv .master v
      let sl := freeSample P ν e wv .slave v
      m.osc.pos = (if F32.ge p 0x3F800000 = true then p1 else p) ∧ sl.osc = m.osc
      ∧ Mem.read syncReset m.syncBuf e.s = (if F32.ge p 0x3F800000 = true then rw else 0xBF800000)
      ∧ (∀ j, j ≠ e.s → Mem.read syncReset m.syncBuf j = Mem.read syncReset v.syncBuf j)
      ∧ sl.syncBuf = v.syncBuf

/-- Hard sync: after a sample in which a slave sees a SYNC_BUF word that is at least 0, POS is exactly f × w and SECT is
1, whatever the phase was before; f × w is at most w, and SYNC_BUF is unchanged (R565, R569). -/
def Obligations.SyncSetsThePhase : Prop :=
  ∀ (P : Params) (ν : NanSource) (e : Sample) (wv : Wave) (v : Voice) (x : Word), NanSource.Ok ν →
    e.w = clampIncrement x → F32.ge (Mem.read syncReset v.syncBuf e.s) 0x00000000 = true →
    ∃ μ, NanSource.Ok μ ∧
      (sampleStep P ν e wv .slave v).osc.pos
        = F32.mul μ (F32.clampTh (Mem.read syncReset v.syncBuf e.s) 0x00000000 0x3F800000) e.w
      ∧ F32.le (sampleStep P ν e wv .slave v).osc.pos e.w = true
      ∧ (sampleStep P ν e wv .slave v).osc.sect = true
      ∧ (sampleStep P ν e wv .slave v).syncBuf = v.syncBuf

/-- With an increment 2^-k, for k from 1 to 24, the phase of a core goes through the multiples of 2^-k, is +0.0 again
after 2^k samples, and not before (R612).  For larger k R612 does not follow from the f32 sum of R563, which the model
follows (notes/assumptions 15). -/
def Obligations.PhasePeriod : Prop :=
  ∀ (P : Params) (ν : NanSource) (e : Sample) (wv : Wave) (v : Voice) (k : Nat), 1 ≤ k → k ≤ 24 →
    e.w = F32.pack false ((127 - k) * 2 ^ 23) → v.osc.pos = 0x00000000 →
    let move : Voice → Voice := fun u => (advance P ν e wv e.w 0x00000000 u).1
    (move^[2 ^ k] v).osc.pos = 0x00000000
    ∧ ∀ m, 0 < m → m < 2 ^ k → F32.toInt (move^[m] v).osc.pos = (m * 2 ^ (149 - k) : Nat)

/-! ## RENDER as a command (43_render.md) -/

/-- RENDER in an open burst completes, and writes only POS, SECT, NVAL, LAST_MODE and LAST_WAVE of its core, bus words
0 .. n+L−2, and, for a master in mode 1, SYNC_BUF words 0 .. n−1; it takes draws for waveform 3 only; LAST_MODE and
LAST_WAVE are the decoded numbers (R567, R555). -/
def Obligations.RenderChangesOnlyItsVoice : Prop :=
  ∀ (c : Fin 4) (s : State), s.inBurst = true →
    let m := decodeMode (cfgRead s c CfgSel.MODE)
    let wv := decodeWave (cfgRead s c CfgSel.WAVE)
    let role := decodeSync (cfgRead s c CfgSel.SYNC)
    ∃ t, exec (.render c) s = .next t
      ∧ (oscRead t c).lastMode = BitVec.ofNat 32 m.number ∧ (oscRead t c).lastWave = BitVec.ofNat 32 wv.number
      ∧ (∀ d, d ≠ c → oscRead t d = oscRead s d)
      ∧ (∀ d r, cfgRead t d r = cfgRead s d r)
      ∧ (∀ b j, s.burstN.val + Config.params.L ≤ j + 1 → busRead t b j = busRead s b j)
      ∧ (∀ j, ¬ (role = .master ∧ m = .minBlep ∧ j < s.burstN.val) → syncRead t j = syncRead s j)
      ∧ (m ≠ .minBlep ∨ wv ≠ .noise → t.drawIx = s.drawIx)
      ∧ t = { s with pc := s.pc + 1, cores := t.cores, busA := t.busA, busB := t.busB, syncBuf := t.syncBuf,
                     drawIx := t.drawIx }

/-- In every mode but 1, RENDER resets the phase on a change of mode or waveform and does nothing else: no bus word and no
SYNC_BUF word changes (R555, R556). -/
def Obligations.OtherModesRenderNothing : Prop :=
  ∀ (c : Fin 4) (s : State), s.inBurst = true → decodeMode (cfgRead s c CfgSel.MODE) ≠ .minBlep →
    let m := BitVec.ofNat 32 (decodeMode (cfgRead s c CfgSel.MODE)).number
    let wv := BitVec.ofNat 32 (decodeWave (cfgRead s c CfgSel.WAVE)).number
    ∃ t, exec (.render c) s = .next t
      ∧ oscRead t c = (if m ≠ (oscRead s c).lastMode ∨ wv ≠ (oscRead s c).lastWave
          then { pos := 0x00000000, sect := true, nval := 0x00000000, lastMode := m, lastWave := wv }
          else oscRead s c)
      ∧ (∀ d, d ≠ c → oscRead t d = oscRead s d)
      ∧ (∀ d r, cfgRead t d r = cfgRead s d r)
      ∧ t = { s with pc := s.pc + 1, cores := t.cores }

/-- One sample of a master sawtooth: POS moves by the increment, less 1.0 where it wraps.  Where it does not wrap no bus
word changes but word D, and SYNC_BUF word 0 is −1.0; where it wraps the step of size +1.0 is placed at the wrap
fraction, which SYNC_BUF word 0 takes.  Last the naive value 0.5 − POS at the bus gains is added to word D of each bus
(R558 to R566, R603). -/
def Obligations.RenderOneSawSample : Prop :=
  ∀ (c : Fin 4) (s : State), s.inBurst = true → s.burstN = 1 → s.MemOk →
    decodeMode (cfgRead s c CfgSel.MODE) = .minBlep → decodeWave (cfgRead s c CfgSel.WAVE) = .saw →
    decodeSync (cfgRead s c CfgSel.SYNC) = .master →
    (oscRead s c).lastMode = 1 → (oscRead s c).lastWave = 0 →
    ∃ (t : State) (ν : Nat → NanSource), (∀ i, NanSource.Ok (ν i)) ∧
      let e := sampleOf (ν 0) s.cores[c].cfg (rampsOf Config.params (ν 1) s.cores[c].cfg s.mods s.offset.toNat 1) 0
      let p := F32.add (ν 2) (oscRead s c).pos e.w
      let p1 := F32.sub (ν 3) p 0x3F800000
      let rw := if F32.gt e.w 0x00000000 = true
        then F32.clampTh (F32.add (ν 4) 0x00000000 (F32.div (ν 5) p1 e.w)) 0x00000000 0x3F800000 else 0x3F800000
      let u := placeStep Config.params (ν 6) e rw 0x3F800000 (voiceOf s c)
      exec (.render c) s = .next t
      ∧ (∀ j, j ≠ 0 → syncRead t j = syncRead s j)
      ∧ (F32.ge p 0x3F800000 = false →
        oscRead t c = { oscRead s c with pos := p }
        ∧ busRead t .A Config.params.D = F32.add (ν 7) (busRead s .A Config.params.D)
            (F32.mul (ν 8) e.gA (F32.sub (ν 9) 0x3F000000 p))
        ∧ busRead t .B Config.params.D = F32.add (ν 10) (busRead s .B Config.params.D)
            (F32.mul (ν 11) e.gB (F32.sub (ν 9) 0x3F000000 p))
        ∧ (∀ b j, j ≠ Config.params.D → busRead t b j = busRead s b j)
        ∧ syncRead t 0 = 0xBF800000)
      ∧ (F32.ge p 0x3F800000 = true →
        oscRead t c = { oscRead s c with pos := p1, sect := true }
        ∧ busRead t .A Config.params.D = F32.add (ν 7) (Mem.read busReset u.busA Config.params.D)
            (F32.mul (ν 8) e.gA (F32.sub (ν 9) 0x3F000000 p1))
        ∧ busRead t .B Config.params.D = F32.add (ν 10) (Mem.read busReset u.busB Config.params.D)
            (F32.mul (ν 11) e.gB (F32.sub (ν 9) 0x3F000000 p1))
        ∧ (∀ j, j ≠ Config.params.D →
          busRead t .A j = Mem.read busReset u.busA j ∧ busRead t .B j = Mem.read busReset u.busB j)
        ∧ syncRead t 0 = rw)

/-! ## Invariants -/

/-- The invariant of the unit holds after reset (R901). -/
def Obligations.ResetMeetsTheInvariant : Prop := State.reset.Inv

/-- Every step keeps the three memory spaces in canonical form with every listed index in range: no command ever writes
a word outside its space (R203). -/
def Obligations.StepKeepsMemoryForm : Prop :=
  ∀ s t : State, s.MemOk → step s = .next t → t.MemOk

/-- Every step keeps the relations between the unit's registers: slot 0 constant (R452), OFFSET + BURST_N at most a
control period (R500), BURST_N 0 exactly when no burst is open (R108), STATUS bits 31:5 zero (R109). -/
def Obligations.StepKeepsUnitRegisters : Prop :=
  ∀ s t : State, s.UnitOk → step s = .next t → t.UnitOk

/-- Every step keeps SYNC_BUF: each word is −1.0 or a fraction in [0, 1], and in an open burst the words from BURST_N on
are −1.0 (R206, R564). -/
def Obligations.StepKeepsSyncBuffer : Prop :=
  ∀ s t : State, s.MemOk → s.SyncOk → step s = .next t → t.SyncOk

/-- Every step keeps the state registers of every core: POS in [0, 1) (R104, R568), NVAL in [−0.5, 0.5] (R12, R606),
LAST_MODE and LAST_WAVE both −1 or numbers of a mode and a waveform (R104, R107). -/
def Obligations.StepKeepsCoreRegisters : Prop :=
  ∀ s t : State, s.OscOk → step s = .next t → t.OscOk

/-! ## The host (20_memory.md) -/

/-- The host reads any word of BUS_A, BUS_B and SYNC_BUF; a read outside the space is refused (R201). A read has no side
effect: it answers a word and no state. -/
def Obligations.HostReadsAreBounded : Prop :=
  ∀ (s : State) (j : Nat),
    (j < 64 + Config.params.L →
      hostRead Config.params .busA j s = .ok (busRead s .A j)
      ∧ hostRead Config.params .busB j s = .ok (busRead s .B j))
    ∧ (64 + Config.params.L ≤ j →
      hostRead Config.params .busA j s = .refused (.hostReadOutsideSpace j)
      ∧ hostRead Config.params .busB j s = .refused (.hostReadOutsideSpace j))
    ∧ (j < 64 → hostRead Config.params .syncBuf j s = .ok (syncRead s j))
    ∧ (64 ≤ j → hostRead Config.params .syncBuf j s = .refused (.hostReadOutsideSpace j))

/-! ## What RENDER's events place (43_render.md, 44_waveforms.md) -/

/-- The naive values of the five waveforms at every phase, section bit, noise level and threshold, each f32 operation as
written in R603 to R608. -/
def Obligations.NaiveFormulas : Prop :=
  ∀ (ν : NanSource) (p v th : Word) (b : Bool), NanSource.Ok ν →
    ∃ μ : Nat → NanSource, (∀ i, NanSource.Ok (μ i))
      ∧ naive ν .saw p b v th = F32.sub (μ 0) 0x3F000000 p
      ∧ naive ν .rect p b v th = (if b = true then 0x3F000000 else 0xBF000000)
      ∧ naive ν .tri p b v th = (if b = true then F32.add (μ 1) 0xBF000000 (F32.div (μ 2) p th)
          else F32.sub (μ 3) 0x3F000000 (F32.div (μ 4) (F32.sub (μ 5) p th) (F32.sub (μ 6) 0x3F800000 th)))
      ∧ naive ν .noise p b v th = v
      ∧ naive ν .clipped p b v th
        = (if b = true then F32.add (μ 7) 0xBF000000 (F32.div (μ 8) p th) else 0x3F000000)

/-- What a THRESH and a WRAP event at fraction `r` place, waveform by waveform: place_step of the J and place_slope of
the K of R603 to R607 and R610, for the noise with one draw that NVAL then holds (R606); then SECT is 0 or 1, and
nothing else changes.  The minus sign of the clipped saw's K flips the sign bit (notes/assumptions 20). -/
def Obligations.ThreshAndWrapPlace : Prop :=
  ∀ (P : Params) (ν : NanSource) (e : Sample) (r : Word) (v : Voice), NanSource.Ok ν →
    ∃ μ : Nat → NanSource, (∀ i, NanSource.Ok (μ i)) ∧
      let withSect : Bool → Voice → Voice := fun b u => { u with osc := { u.osc with sect := b } }
      let drawn : Voice → Voice := fun u =>
        { u with osc := { u.osc with nval := P.noise v.drawIx }, drawIx := v.drawIx + 1 }
      onThresh P ν e .saw r v = v
      ∧ onThresh P ν e .rect r v = withSect false (placeStep P (μ 0) e r 0xBF800000 v)
      ∧ onThresh P ν e .tri r v = withSect false (placeSlope P (μ 1) e r
          (F32.mul (μ 2) e.w (F32.sub (μ 3) (F32.div (μ 4) 0xBF800000 (F32.sub (μ 5) 0x3F800000 e.th))
            (F32.div (μ 6) 0x3F800000 e.th))) v)
      ∧ onThresh P ν e .noise r v = withSect false (drawn
          (placeStep P (μ 7) e r (F32.sub (μ 8) (P.noise v.drawIx) v.osc.nval) v))
      ∧ onThresh P ν e .clipped r v
        = withSect false (placeSlope P (μ 9) e r (F32.div (μ 10) e.w e.th ^^^ 0x80000000) v)
      ∧ onWrap P ν e .saw r v = withSect true (placeStep P (μ 11) e r 0x3F800000 v)
      ∧ onWrap P ν e .rect r v = withSect true (placeStep P (μ 12) e r 0x3F800000 v)
      ∧ onWrap P ν e .tri r v = withSect true (placeSlope P (μ 13) e r
          (F32.mul (μ 14) e.w (F32.add (μ 15) (F32.div (μ 16) 0x3F800000 e.th)
            (F32.div (μ 17) 0x3F800000 (F32.sub (μ 18) 0x3F800000 e.th)))) v)
      ∧ onWrap P ν e .noise r v = withSect true (drawn
          (placeStep P (μ 19) e r (F32.sub (μ 20) (P.noise v.drawIx) v.osc.nval) v))
      ∧ onWrap P ν e .clipped r v = withSect true (placeSlope P (μ 21) e r (F32.div (μ 22) e.w e.th)
          (placeStep P (μ 23) e r 0xBF800000 v))

/-- What a SYNC event at fraction `f` places, waveform by waveform: place_step of the reset value less the value before,
then for the triangle and the clipped saw place_slope of the change of slope, as R610 tabulates them for the increment
and a threshold of R560; the noise takes one draw.  POS is then f × w, SECT 1 and NVAL the new level, and nothing else
changes (R609). -/
def Obligations.SyncPlaces : Prop :=
  ∀ (P : Params) (ν κ : NanSource) (e : Sample) (f x q : Word) (v : Voice), NanSource.Ok ν →
    e.w = clampIncrement x → e.th = clampThreshold κ q e.w →
    ∃ μ : Nat → NanSource, (∀ i, NanSource.Ok (μ i)) ∧
      let p := v.osc.pos
      let b := v.osc.sect
      let after : Word → Voice → Voice := fun n u =>
        { u with osc := { u.osc with pos := F32.mul (μ 0) f e.w, sect := true, nval := n } }
      let d := P.noise v.drawIx
      let riseJump := F32.sub (μ 1) 0xBF000000 (F32.add (μ 2) 0xBF000000 (F32.div (μ 3) p e.th))
      onSync P ν e .saw f v = after v.osc.nval
        (placeStep P (μ 4) e f (F32.sub (μ 5) 0x3F000000 (F32.sub (μ 6) 0x3F000000 p)) v)
      ∧ onSync P ν e .rect f v = after v.osc.nval
        (placeStep P (μ 4) e f (if b = true then 0x00000000 else 0x3F800000) v)
      ∧ onSync P ν e .noise f v
        = { after d (placeStep P (μ 4) e f (F32.sub (μ 5) d v.osc.nval) v) with drawIx := v.drawIx + 1 }
      ∧ (b = true → ∃ K, F32.isZero K = true
        ∧ onSync P ν e .tri f v = after v.osc.nval (placeSlope P (μ 7) e f K (placeStep P (μ 4) e f riseJump v))
        ∧ onSync P ν e .clipped f v
          = after v.osc.nval (placeSlope P (μ 7) e f K (placeStep P (μ 4) e f riseJump v)))
      ∧ (b = false →
        onSync P ν e .tri f v = after v.osc.nval
          (placeSlope P (μ 7) e f
            (F32.mul (μ 8) e.w (F32.sub (μ 9) (F32.div (μ 10) 0x3F800000 e.th)
              (F32.div (μ 11) 0xBF800000 (F32.sub (μ 12) 0x3F800000 e.th))))
            (placeStep P (μ 4) e f (F32.sub (μ 1) 0xBF000000 (F32.sub (μ 2) 0x3F000000
              (F32.div (μ 3) (F32.sub (μ 13) p e.th) (F32.sub (μ 14) 0x3F800000 e.th)))) v))
        ∧ onSync P ν e .clipped f v = after v.osc.nval
          (placeSlope P (μ 7) e f (F32.mul (μ 8) e.w (F32.div (μ 10) 0x3F800000 e.th))
            (placeStep P (μ 4) e f 0xBF800000 v)))

/-- `advance` raises the events that the phase crosses, and no other: a THRESH where the waveform is no sawtooth, SECT is
1 and the phase reaches `th`, then a WRAP where it reaches 1.0, each at its fraction of the sample; POS takes the phase,
less 1.0 after a wrap, and the wrap fraction is answered (R563). -/
def Obligations.AdvanceRaisesItsEvents : Prop :=
  ∀ (P : Params) (ν : NanSource) (e : Sample) (wv : Wave) (δ rb : Word) (v : Voice), NanSource.Ok ν →
    ∃ μ : Nat → NanSource, (∀ i, NanSource.Ok (μ i)) ∧
      let rfrac : NanSource → NanSource → Word → Word := fun κ₁ κ₂ x =>
        if F32.gt e.w 0x00000000 = true then F32.clampTh (F32.add κ₁ rb (F32.div κ₂ x e.w)) rb 0x3F800000
        else 0x3F800000
      let p := F32.add (μ 0) v.osc.pos δ
      let p1 := F32.sub (μ 1) p 0x3F800000
      let rw := rfrac (μ 2) (μ 3) p1
      let u := if wv ≠ .saw ∧ v.osc.sect = true ∧ F32.ge p e.th = true
        then onThresh P (μ 4) e wv (rfrac (μ 5) (μ 6) (F32.sub (μ 7) p e.th)) v else v
      let t := onWrap P (μ 8) e wv rw u
      advance P ν e wv δ rb v
        = if F32.ge p 0x3F800000 = true then ({ t with osc := { t.osc with pos := p1 } }, some rw)
          else ({ u with osc := { u.osc with pos := p } }, none)

/-- RENDER in mode 1 runs the selector and then one sample after another over the burst (R550, R555).  Each sample runs
R562: a slave with a sync event advances up to the master's wrap and takes the SYNC event; otherwise a full step is
made, and a master writes the wrap fraction, or −1.0, to its SYNC_BUF word; then the naive value is accumulated at index
`s + D` of each bus (R564, R565, R566).  The parameters of each sample are those of R557 to R561, with the slots read as
R451 says and the registers taken by their numbers of R102. -/
def Obligations.RenderRunsItsSamples : Prop :=
  (∀ (P : Params) (ν : NanSource) (e : Sample) (wv : Wave) (role : Role) (v : Voice), NanSource.Ok ν →
    ∃ μ : Nat → NanSource, (∀ i, NanSource.Ok (μ i)) ∧
      let x := Mem.read syncReset v.syncBuf e.s
      let f := F32.clampTh x 0x00000000 0x3F800000
      let full := advance P (μ 0) e wv e.w 0x00000000 v
      let part := advance P (μ 0) e wv (F32.mul (μ 1) (F32.sub (μ 2) 0x3F800000 f) e.w) f v
      let u : Voice :=
        if role = .slave ∧ F32.ge x 0x00000000 = true then onSync P (μ 3) e wv f part.1
        else if role = .master
          then { full.1 with syncBuf := Mem.write syncReset full.1.syncBuf e.s (full.2.getD 0xBF800000) }
        else full.1
      let y := naive (μ 4) wv u.osc.pos u.osc.sect u.osc.nval e.th
      sampleStep P ν e wv role v
        = { u with busA := accumulate (μ 5) u.busA (e.s + P.D) (F32.mul (μ 6) e.gA y)
                   busB := accumulate (μ 7) u.busB (e.s + P.D) (F32.mul (μ 8) e.gB y) })
  ∧ (∀ (c : Fin 4) (s : State), s.inBurst = true → decodeMode (cfgRead s c 0x00) = .minBlep →
    let wv := decodeWave (cfgRead s c 0x01)
    let wn := BitVec.ofNat 32 wv.number
    let role := decodeSync (cfgRead s c 0x0F)
    let selected : Osc := if (oscRead s c).lastMode ≠ 1 ∨ (oscRead s c).lastWave ≠ wn
      then { pos := 0x00000000, sect := true, nval := 0x00000000, lastMode := 1, lastWave := wn }
      else oscRead s c
    ∃ (t : State) (μ : NanSource) (ν κ : Nat → NanSource), NanSource.Ok μ ∧ (∀ i, NanSource.Ok (ν i))
      ∧ (∀ i, NanSource.Ok (κ i)) ∧ exec (.render c) s = .next t
      ∧ voiceOf t c = (List.range s.burstN.val).foldl
        (fun v k => sampleStep Config.params (ν k)
          (sampleOf (κ k) s.cores[c].cfg
            (rampsOf Config.params μ s.cores[c].cfg s.mods s.offset.toNat s.burstN.val) k) wv role v)
        { voiceOf s c with osc := selected })
  ∧ ∀ (P : Params) (ν κ : NanSource) (cfg : Vector Word 16) (mods : Vector ModSlot 21) (o n k : Nat),
    NanSource.Ok ν → NanSource.Ok κ →
    ∃ μ : Nat → NanSource, (∀ i, NanSource.Ok (μ i)) ∧
      let reg : Fin 16 → Word := fun i => cfg[i]
      let slot : Fin 16 → ModSlot := fun i => mods[srcIdx (reg i)]
      let read : NanSource → ModSlot → Nat → Word := fun ξ m j =>
        F32.add ξ m.value (F32.mul ξ (F32.ofNat j) m.delta)
      -- W_BASE 0x02, PM_SRC 0x03, PM_AMT 0x04
      let w0 := F32.mul (μ 0) (reg 0x02) (P.pitch (F32.mul (μ 1) (reg 0x04) (read (μ 2) (slot 0x03) o)))
      let wn := F32.mul (μ 3) (reg 0x02) (P.pitch (F32.mul (μ 4) (reg 0x04) (read (μ 5) (slot 0x03) (o + n))))
      let dw := F32.div (μ 6) (F32.sub (μ 6) wn w0) (F32.ofNat n)
      let w := F32.clampTh (F32.add (μ 7) w0 (F32.mul (μ 7) (F32.ofNat k) dw)) 0x00000000 0x3F000000
      -- AM_SRC 0x05, AM_AMT 0x06
      let a0 := P.amp (F32.mul (μ 8) (reg 0x06) (read (μ 9) (slot 0x05) o))
      let an := P.amp (F32.mul (μ 10) (reg 0x06) (read (μ 11) (slot 0x05) (o + n)))
      let da := F32.div (μ 12) (F32.sub (μ 12) an a0) (F32.ofNat n)
      let a := F32.add (μ 13) a0 (F32.mul (μ 13) (F32.ofNat k) da)
      -- MP1 0x07, MP1_SRC 0x08, MP1_AMT 0x09
      let q0 := F32.add (μ 14) (reg 0x07) (F32.mul (μ 14) (reg 0x09) (read (μ 15) (slot 0x08) o))
      let qn := F32.add (μ 16) (reg 0x07) (F32.mul (μ 16) (reg 0x09) (read (μ 17) (slot 0x08) (o + n)))
      let dq := F32.div (μ 18) (F32.sub (μ 18) qn q0) (F32.ofNat n)
      let q := F32.add (μ 19) q0 (F32.mul (μ 19) (F32.ofNat k) dq)
      let wt := F32.clampTh w 0x33800000 0x3F000000
      sampleOf κ cfg (rampsOf P ν cfg mods o n) k
        -- LEVEL_A 0x0D, LEVEL_B 0x0E
        = { s := k, w := w, th := F32.clampTh q wt (F32.sub (μ 20) 0x3F800000 wt)
            gA := F32.mul (μ 21) (reg 0x0D) a, gB := F32.mul (μ 22) (reg 0x0E) a }
end

