-- ==== Sys2Proof/Laws/Config.lean ====
section
/-! SUPPORT. The unit's parameters are what the spec says of them, and nothing more is known. -/

namespace Sys2Proof

theorem Config.params_ok : Config.params.Ok where
  L_pos := Nat.le_add_left 1 _
  D_lt := Nat.mod_lt _ (Nat.succ_pos _)
  pitch_zero x h := by simp [Config.params, h]
  amp_zero x h := by simp [Config.params, h]
  noise_range n := by
    simp only [Config.params]
    split
    · next h => simpa using h
    · decide
  nan_isNaN pc path op a b := by
    simp only [Config.params]
    split
    · assumption
    · decide

theorem Config.D_lt_L : Config.params.D < Config.params.L := Config.params_ok.D_lt

/-- Every tap of a correction in a burst lies on the bus (spec/20_memory.md R203). -/
theorem tap_index_lt (P : Params) {s k : Nat} (hs : s < Config.CP) (hk : k < P.L) : s + k < P.busLen := by
  unfold Params.busLen; omega

/-- The naive value of a sample of a burst lies on the bus (R203). -/
theorem output_index_lt {P : Params} (h : P.Ok) {s : Nat} (hs : s < Config.CP) : s + P.D < P.busLen :=
  tap_index_lt P hs h.D_lt

end Sys2Proof
end

