-- ==== Sys2Proof/Laws/Decode.lean ====
section
/-! SUPPORT. The fields of a packed command word, and what the masks of the opcode table leave of it. -/

namespace Sys2Proof

/-- The packed word as a number. -/
theorem packFields_toNat (op : Nat) (core : Fin 4) (sel aux : Nat) (data : Word) :
    (packFields op core sel aux data).toNat
      = op % 256 * 2 ^ 56 + core.val * 2 ^ 54 + sel % 64 * 2 ^ 48 + aux % 65536 * 2 ^ 32 + data.toNat := by
  have hc : core.val < 2 ^ 2 := core.isLt
  have hs : sel % 64 < 2 ^ 6 := Nat.mod_lt _ (by decide)
  have ha : aux % 65536 < 2 ^ 16 := Nat.mod_lt _ (by decide)
  have hd : data.toNat < 2 ^ 32 := data.isLt
  simp only [packFields, BitVec.toNat_append, BitVec.toNat_ofNat, BitVec.toNat_ofFin]
  rw [← Nat.shiftLeft_add_eq_or_of_lt hc, ← Nat.shiftLeft_add_eq_or_of_lt hs, ← Nat.shiftLeft_add_eq_or_of_lt ha,
    ← Nat.shiftLeft_add_eq_or_of_lt hd]
  simp only [Nat.shiftLeft_eq]
  omega

theorem opField_packFields (op : Nat) (core : Fin 4) (sel aux : Nat) (data : Word) :
    opField (packFields op core sel aux data) = op % 256 := by
  have hd := data.isLt
  simp only [opField, BitVec.extractLsb'_toNat, packFields_toNat, Nat.shiftRight_eq_div_pow]
  omega

theorem coreField_packFields (op : Nat) (core : Fin 4) (sel aux : Nat) (data : Word) :
    coreField (packFields op core sel aux data) = core := by
  have hd := data.isLt
  apply Fin.ext
  show (BitVec.extractLsb' 54 2 (packFields op core sel aux data)).toNat = core.val
  simp only [BitVec.extractLsb'_toNat, packFields_toNat, Nat.shiftRight_eq_div_pow]
  omega

theorem selField_packFields (op : Nat) (core : Fin 4) (sel aux : Nat) (data : Word) :
    selField (packFields op core sel aux data) = sel % 64 := by
  have hd := data.isLt
  simp only [selField, BitVec.extractLsb'_toNat, packFields_toNat, Nat.shiftRight_eq_div_pow]
  omega

theorem auxField_packFields (op : Nat) (core : Fin 4) (sel aux : Nat) (data : Word) :
    auxField (packFields op core sel aux data) = aux % 65536 := by
  have hd := data.isLt
  simp only [auxField, BitVec.extractLsb'_toNat, packFields_toNat, Nat.shiftRight_eq_div_pow]
  omega

theorem dataField_packFields (op : Nat) (core : Fin 4) (sel aux : Nat) (data : Word) :
    dataField (packFields op core sel aux data) = data := by
  apply BitVec.eq_of_toNat_eq
  have hd := data.isLt
  simp only [dataField, BitVec.extractLsb'_toNat, packFields_toNat, Nat.shiftRight_eq_div_pow]
  omega

/-- The fields of a word are what it is packed from. -/
theorem packFields_fields (cmd : Cmd) :
    packFields (opField cmd) (coreField cmd) (selField cmd) (auxField cmd) (dataField cmd) = cmd := by
  apply BitVec.eq_of_toNat_eq
  rw [packFields_toNat]
  have hcore : (coreField cmd).val = cmd.toNat / 2 ^ 54 % 4 := by
    show (BitVec.extractLsb' 54 2 cmd).toNat = _
    simp only [BitVec.extractLsb'_toNat, Nat.shiftRight_eq_div_pow]
  have h := cmd.isLt
  rw [hcore]
  simp only [opField, selField, auxField, dataField, BitVec.extractLsb'_toNat, Nat.shiftRight_eq_div_pow]
  omega

/-- A mask given field by field acts field by field. -/
theorem packFields_and (op : Nat) (core : Fin 4) (sel aux : Nat) (data : Word) (mo : BitVec 8) (mc : BitVec 2)
    (ms : BitVec 6) (ma : BitVec 16) (md : Word) :
    packFields op core sel aux data &&& (mo ++ mc ++ ms ++ ma ++ md)
      = (BitVec.ofNat 8 op &&& mo) ++ (BitVec.ofFin (w := 2) core &&& mc) ++ (BitVec.ofNat 6 sel &&& ms)
        ++ (BitVec.ofNat 16 aux &&& ma) ++ (data &&& md) := by
  have h : ∀ (a : BitVec 8) (b : BitVec 2) (c : BitVec 6) (d : BitVec 16) (e : BitVec 32),
      (a ++ b ++ c ++ d ++ e) &&& (mo ++ mc ++ ms ++ ma ++ md)
        = (a &&& mo) ++ (b &&& mc) ++ (c &&& ms) ++ (d &&& ma) ++ (e &&& md) := by
    intro a b c d e
    rw [BitVec.and_append, BitVec.and_append, BitVec.and_append, BitVec.and_append]
  exact h _ _ _ _ _

end Sys2Proof
end

