-- ==== Sys2Proof/Laws/F32.lean ====
section
/-! SUPPORT. Clamping and comparison of binary32 patterns. -/

namespace Sys2Proof.F32

/-- `clampTh` answers one of its bounds, or its argument where that lies between them (spec/00_scope.md R16). -/
theorem clampTh_cases (x lo hi : Word) :
    clampTh x lo hi = hi ∨ (clampTh x lo hi = x ∧ le lo x = true ∧ le x hi = true) ∨ clampTh x lo hi = lo := by
  unfold clampTh ge
  split
  · exact .inl rfl
  · split
    · next h => exact .inr (.inl ⟨rfl, by simpa using h⟩)
    · exact .inr (.inr rfl)

theorem le_refl_of_not_nan {x : Word} (h : isNaN x = false) : le x x = true := by
  simp [le, h]

theorem le_iff {a b : Word} : le a b = true ↔ isNaN a = false ∧ isNaN b = false ∧ order a ≤ order b := by
  simp [le, and_assoc]

theorem lt_iff {a b : Word} : lt a b = true ↔ isNaN a = false ∧ isNaN b = false ∧ order a < order b := by
  simp [lt, and_assoc]

theorem le_trans {a b c : Word} (h : le a b = true) (h' : le b c = true) : le a c = true := by
  rw [le_iff] at *
  exact ⟨h.1, h'.2.1, h.2.2.trans h'.2.2⟩

/-- A clamp to bounds in order lies between them, whatever its argument. -/
theorem clampTh_between {lo hi : Word} (h : le lo hi = true) (x : Word) :
    le lo (clampTh x lo hi) = true ∧ le (clampTh x lo hi) hi = true := by
  have hl := le_refl_of_not_nan (le_iff.1 h).1
  have hh := le_refl_of_not_nan (le_iff.1 h).2.1
  rcases clampTh_cases x lo hi with e | ⟨e, h1, h2⟩ | e
  · rw [e]; exact ⟨h, hh⟩
  · rw [e]; exact ⟨h1, h2⟩
  · rw [e]; exact ⟨hl, h⟩

/-- A NaN is clamped to the lower bound (R16). -/
theorem clampTh_nan {x : Word} (h : isNaN x = true) (lo hi : Word) : clampTh x lo hi = lo := by
  simp [clampTh, gt, ge, lt, le, h]

/-- A finite value of positive sign times +0.0 is +0.0. -/
theorem mul_posZero (ν : NanSource) {a : Word} (hn : isNaN a = false) (hi : isInf a = false) (hs : sign a = false) :
    mul ν a posZero = posZero := by
  have e : isNaN posZero = false ∧ isInf posZero = false ∧ sign posZero = false ∧ units posZero = 0 := by decide
  have r : pack false (roundMag 0 (2 ^ 149)) = posZero := by decide +kernel
  unfold mul
  simp only [hn, hi, hs, e, Bool.or_false, Bool.false_eq_true, if_false, bne_self_eq_false, Nat.mul_zero, r]

/-- 1.0 plus +0.0 is 1.0. -/
theorem add_one_posZero (ν : NanSource) : add ν one posZero = one := by
  have e : isNaN one = false ∧ isNaN posZero = false ∧ isInf one = false ∧ isInf posZero = false := by decide
  unfold add addNaN
  simp only [e, Bool.or_false, Bool.false_eq_true, if_false]
  decide +kernel

/-! ## No NaN arises from finite operands, so the NaN source does not matter there -/

theorem not_nan_inf_of_finite {x : Word} (h : mag x < infMag) : isNaN x = false ∧ isInf x = false := by
  simp only [isNaN, isInf, decide_eq_false_iff_not, beq_eq_false_iff_ne]
  omega

theorem add_of_finite (ν μ : NanSource) {a b : Word} (ha : mag a < infMag) (hb : mag b < infMag) :
    add ν a b = add μ a b := by
  simp [add, addNaN, not_nan_inf_of_finite ha, not_nan_inf_of_finite hb]

theorem mag_neg (x : Word) : mag (neg x) = mag x := by
  have e : neg x = x ^^^ BitVec.twoPow 32 31 := rfl
  simp only [mag, e, BitVec.toNat_xor, BitVec.toNat_twoPow, Nat.xor_mod_two_pow]
  simp

theorem sub_of_finite (ν μ : NanSource) {a b : Word} (ha : mag a < infMag) (hb : mag b < infMag) :
    sub ν a b = sub μ a b := by
  have hb' := not_nan_inf_of_finite (mag_neg b ▸ hb)
  simp [sub, addNaN, not_nan_inf_of_finite ha, not_nan_inf_of_finite hb, hb']

theorem mul_of_finite (ν μ : NanSource) {a b : Word} (ha : mag a < infMag) (hb : mag b < infMag) :
    mul ν a b = mul μ a b := by
  simp [mul, not_nan_inf_of_finite ha, not_nan_inf_of_finite hb]

theorem div_of_finite (ν μ : NanSource) {a b : Word} (ha : mag a < infMag) (hb : mag b < infMag)
    (h0 : isZero b = false) : div ν a b = div μ a b := by
  simp [div, not_nan_inf_of_finite ha, not_nan_inf_of_finite hb, h0]

end Sys2Proof.F32
end

