-- ==== Sys2Proof/Laws/Mem.lean ====
section
/-! SUPPORT. The memory spaces: read after write, the canonical form, and END's shift. -/

namespace Sys2Proof.Machine

@[simp] theorem Mem.read_nil (d : Word) (j : Nat) : Mem.read d [] j = d := rfl

theorem Mem.read_cons (d : Word) (i : Nat) (w : Word) (m : Mem) (j : Nat) :
    Mem.read d ((i, w) :: m) j = if i = j then w else Mem.read d m j := rfl

@[simp] theorem Mem.wfFrom_nil (d : Word) (hi lo : Nat) : Mem.wfFrom d hi lo [] = true := rfl

theorem Mem.wfFrom_cons {d : Word} {hi lo i : Nat} {w : Word} {m : Mem} :
    Mem.wfFrom d hi lo ((i, w) :: m) = true ↔ lo ≤ i ∧ i < hi ∧ w ≠ d ∧ Mem.wfFrom d hi (i + 1) m = true := by
  simp [Mem.wfFrom, and_assoc]

/-- The form from a higher index on implies the form from a lower one. -/
theorem Mem.wfFrom_mono {d : Word} {hi : Nat} : ∀ {m : Mem} {lo lo' : Nat}, lo' ≤ lo →
    Mem.wfFrom d hi lo m = true → Mem.wfFrom d hi lo' m = true
  | [], _, _, _, _ => rfl
  | (_, _) :: _, _, _, h, hw => by
    rw [Mem.wfFrom_cons] at hw ⊢
    exact ⟨h.trans hw.1, hw.2⟩

/-- Below its first index a space reads as its reset word. -/
theorem Mem.read_below {d : Word} {hi : Nat} : ∀ {m : Mem} {lo j : Nat}, Mem.wfFrom d hi lo m = true → j < lo →
    Mem.read d m j = d
  | [], _, _, _, _ => rfl
  | (i, w) :: m, lo, j, h, hj => by
    rw [Mem.wfFrom_cons] at h
    rw [Mem.read_cons, if_neg (by omega)]
    exact Mem.read_below h.2.2.2 (by omega)

/-- Outside its range a space reads as its reset word. -/
theorem Mem.read_above {d : Word} {hi : Nat} : ∀ {m : Mem} {lo j : Nat}, Mem.wfFrom d hi lo m = true → hi ≤ j →
    Mem.read d m j = d
  | [], _, _, _, _ => rfl
  | (i, w) :: m, lo, j, h, hj => by
    rw [Mem.wfFrom_cons] at h
    rw [Mem.read_cons, if_neg (by omega)]
    exact Mem.read_above h.2.2.2 hj

/-- A write leaves every other word alone. -/
theorem Mem.read_write_other (d : Word) : ∀ (m : Mem) (j : Nat) (v : Word) (k : Nat), k ≠ j →
    Mem.read d (Mem.write d m j v) k = Mem.read d m k
  | [], j, v, k, h => by
    unfold Mem.write
    split
    · rfl
    · rw [Mem.read_cons, if_neg (Ne.symm h)]
  | (i, w) :: m, j, v, k, h => by
    have ih := Mem.read_write_other d m j v k h
    unfold Mem.write
    split
    · split
      · rfl
      · rw [Mem.read_cons, if_neg (Ne.symm h)]
    · split
      · next hji =>
        split
        · rw [Mem.read_cons, if_neg (by omega)]
        · rw [Mem.read_cons, Mem.read_cons, if_neg (Ne.symm h), if_neg (by omega)]
      · rw [Mem.read_cons, Mem.read_cons, ih]

/-- A read after a write to the same word gives the value written. -/
theorem Mem.read_write_same {d : Word} {hi : Nat} : ∀ {m : Mem} {lo : Nat}, Mem.wfFrom d hi lo m = true →
    ∀ (j : Nat) (v : Word), Mem.read d (Mem.write d m j v) j = v
  | [], _, _, j, v => by
    unfold Mem.write
    split
    · next h => exact h.symm
    · rw [Mem.read_cons, if_pos rfl]
  | (i, w) :: m, lo, h, j, v => by
    have h' := Mem.wfFrom_cons.1 h
    unfold Mem.write
    split
    · next hji =>
      split
      · next hv =>
        rw [Mem.read_cons, if_neg (by omega), hv]
        exact Mem.read_below h'.2.2.2 (by omega)
      · rw [Mem.read_cons, if_pos rfl]
    · split
      · next hji =>
        split
        · next hv => rw [hv]; exact Mem.read_below h'.2.2.2 (by omega)
        · rw [Mem.read_cons, if_pos rfl]
      · next h1 h2 =>
        rw [Mem.read_cons, if_neg (by omega)]
        exact Mem.read_write_same h'.2.2.2 j v

/-- What a space reads as after a write. -/
theorem Mem.read_write {d : Word} {hi : Nat} {m : Mem} (h : Mem.wf d hi m = true) (j : Nat) (v : Word) (k : Nat) :
    Mem.read d (Mem.write d m j v) k = if k = j then v else Mem.read d m k := by
  split
  · next hk => rw [hk]; exact Mem.read_write_same h j v
  · next hk => exact Mem.read_write_other d m j v k hk

/-- A write in range keeps the canonical form. -/
theorem Mem.wfFrom_write {d : Word} {hi : Nat} : ∀ {m : Mem} {lo : Nat}, Mem.wfFrom d hi lo m = true →
    ∀ {j : Nat} (v : Word), lo ≤ j → j < hi → Mem.wfFrom d hi lo (Mem.write d m j v) = true
  | [], lo, _, j, v, hlo, hj => by
    unfold Mem.write
    split
    · rfl
    · next hv => exact Mem.wfFrom_cons.2 ⟨hlo, hj, hv, rfl⟩
  | (i, w) :: m, lo, h, j, v, hlo, hj => by
    have h' := Mem.wfFrom_cons.1 h
    unfold Mem.write
    split
    · next hji =>
      split
      · exact h
      · next hv => exact Mem.wfFrom_cons.2 ⟨hlo, hj, hv, Mem.wfFrom_cons.2 ⟨hji, h'.2⟩⟩
    · split
      · next hji =>
        split
        · exact Mem.wfFrom_mono (by omega) h'.2.2.2
        · next hv => exact Mem.wfFrom_cons.2 ⟨hlo, hj, hv, hji ▸ h'.2.2.2⟩
      · next h1 h2 =>
        exact Mem.wfFrom_cons.2 ⟨h'.1, h'.2.1, h'.2.2.1, Mem.wfFrom_write h'.2.2.2 v (by omega) hj⟩

/-- A write in range keeps the canonical form. -/
theorem Mem.wf_write {d : Word} {hi : Nat} {m : Mem} (h : Mem.wf d hi m = true) {j : Nat} (v : Word) (hj : j < hi) :
    Mem.wf d hi (Mem.write d m j v) = true := Mem.wfFrom_write h v (Nat.zero_le j) hj

/-- The empty list, a space after reset, is in canonical form. -/
@[simp] theorem Mem.wf_nil (d : Word) (hi : Nat) : Mem.wf d hi [] = true := rfl

/-- Canonical spaces that read alike are equal lists. -/
theorem Mem.ext {d : Word} {hi : Nat} : ∀ {m m' : Mem} {lo : Nat}, Mem.wfFrom d hi lo m = true →
    Mem.wfFrom d hi lo m' = true → (∀ j, Mem.read d m j = Mem.read d m' j) → m = m'
  | [], [], _, _, _, _ => rfl
  | [], (i, w) :: m', _, _, h', hr => by
    have := hr i
    rw [Mem.read_cons, if_pos rfl, Mem.read_nil] at this
    exact absurd this.symm (Mem.wfFrom_cons.1 h').2.2.1
  | (i, w) :: m, [], _, h, _, hr => by
    have := hr i
    rw [Mem.read_cons, if_pos rfl, Mem.read_nil] at this
    exact absurd this (Mem.wfFrom_cons.1 h).2.2.1
  | (i, w) :: m, (i', w') :: m', lo, h, h', hr => by
    have g := Mem.wfFrom_cons.1 h
    have g' := Mem.wfFrom_cons.1 h'
    have hii : i = i' := by
      rcases Nat.lt_trichotomy i i' with hlt | heq | hgt
      · have := hr i
        rw [Mem.read_cons, if_pos rfl, Mem.read_cons, if_neg (by omega),
          Mem.read_below g'.2.2.2 (by omega)] at this
        exact absurd this g.2.2.1
      · exact heq
      · have := hr i'
        rw [Mem.read_cons, if_neg (by omega), Mem.read_below g.2.2.2 (by omega), Mem.read_cons,
          if_pos rfl] at this
        exact absurd this.symm g'.2.2.1
    subst hii
    have hw : w = w' := by simpa [Mem.read_cons] using hr i
    subst hw
    congr 1
    refine Mem.ext g.2.2.2 g'.2.2.2 fun j => ?_
    by_cases hj : i = j
    · subst hj
      rw [Mem.read_below g.2.2.2 (by omega), Mem.read_below g'.2.2.2 (by omega)]
    · simpa [Mem.read_cons, hj] using hr j

/-- END's shift: word `j` takes old word `j + n`, the last words the reset word (spec/42_burst.md R503). -/
theorem Mem.read_shiftDown (d : Word) (len n : Nat) : ∀ (m : Mem) (j : Nat),
    Mem.read d (Mem.shiftDown len n m) j = if j + n < len then Mem.read d m (j + n) else d
  | [], j => by simp [Mem.shiftDown]
  | (i, w) :: m, j => by
    have ih := Mem.read_shiftDown d len n m j
    unfold Mem.shiftDown
    split
    · next h =>
      rw [Mem.read_cons, Mem.read_cons, ih]
      by_cases hij : i = j + n
      · rw [if_pos (by omega), if_pos (by omega), if_pos hij]
      · rw [if_neg (show ¬ i - n = j by omega), if_neg hij]
    · next h =>
      rw [ih, Mem.read_cons]
      split
      · next hj => rw [if_neg (by omega)]
      · rfl

/-- END's shift keeps the canonical form. -/
theorem Mem.wfFrom_shiftDown {d : Word} {hi : Nat} (len n : Nat) : ∀ {m : Mem} {lo : Nat},
    Mem.wfFrom d hi lo m = true → Mem.wfFrom d hi (lo - n) (Mem.shiftDown len n m) = true
  | [], _, _ => rfl
  | (i, w) :: m, lo, h => by
    have h' := Mem.wfFrom_cons.1 h
    have ih := Mem.wfFrom_shiftDown len n h'.2.2.2
    unfold Mem.shiftDown
    split
    · exact Mem.wfFrom_cons.2 ⟨by omega, by omega, h'.2.2.1, Mem.wfFrom_mono (by omega) ih⟩
    · exact Mem.wfFrom_mono (by omega) ih

/-- END's shift keeps the canonical form. -/
theorem Mem.wf_shiftDown {d : Word} {hi : Nat} (len n : Nat) {m : Mem} (h : Mem.wf d hi m = true) :
    Mem.wf d hi (Mem.shiftDown len n m) = true := by
  have := Mem.wfFrom_shiftDown len n h
  rwa [Nat.zero_sub] at this

/-- An accumulation in range keeps the canonical form. -/
theorem Mem.wf_accumulate (ν : NanSource) {hi : Nat} {m : Mem} (h : Mem.wf busReset hi m = true) {j : Nat} (v : Word)
    (hj : j < hi) : Mem.wf busReset hi (accumulate ν m j v) = true := Mem.wf_write h _ hj

/-- An accumulation adds to its own word. -/
theorem Mem.read_accumulate (ν : NanSource) {hi : Nat} {m : Mem} (h : Mem.wf busReset hi m = true) (j : Nat) (v : Word)
    (k : Nat) : Mem.read busReset (accumulate ν m j v) k
      = if k = j then F32.add ν (Mem.read busReset m j) v else Mem.read busReset m k := Mem.read_write h _ _ k

/-- An accumulation leaves every other word alone, whatever the form of the space. -/
theorem Mem.read_accumulate_other (ν : NanSource) (m : Mem) (j : Nat) (v : Word) (k : Nat) (hk : k ≠ j) :
    Mem.read busReset (accumulate ν m j v) k = Mem.read busReset m k := Mem.read_write_other _ m j _ k hk

end Sys2Proof.Machine
end

