-- ==== Sys2Proof/Laws/State.lean ====
section
/-! SUPPORT. One lemma per field per update of State: what each shared operation makes of each field. -/

namespace Sys2Proof.Machine

/-! ## retire -/

@[simp] theorem retire_pc (s : State) : (retire s).pc = s.pc + 1 := rfl
@[simp] theorem retire_cores (s : State) : (retire s).cores = s.cores := rfl
@[simp] theorem retire_offset (s : State) : (retire s).offset = s.offset := rfl
@[simp] theorem retire_burstN (s : State) : (retire s).burstN = s.burstN := rfl
@[simp] theorem retire_inBurst (s : State) : (retire s).inBurst = s.inBurst := rfl
@[simp] theorem retire_status (s : State) : (retire s).status = s.status := rfl
@[simp] theorem retire_resp (s : State) : (retire s).resp = s.resp := rfl
@[simp] theorem retire_mods (s : State) : (retire s).mods = s.mods := rfl
@[simp] theorem retire_busA (s : State) : (retire s).busA = s.busA := rfl
@[simp] theorem retire_busB (s : State) : (retire s).busB = s.busB := rfl
@[simp] theorem retire_syncBuf (s : State) : (retire s).syncBuf = s.syncBuf := rfl
@[simp] theorem retire_pending (s : State) : (retire s).pending = s.pending := rfl
@[simp] theorem retire_drawIx (s : State) : (retire s).drawIx = s.drawIx := rfl

/-! ## raiseError -/

@[simp] theorem raiseError_pc (e : ErrorBit) (s : State) : (raiseError e s).pc = s.pc + 1 := rfl
@[simp] theorem raiseError_cores (e : ErrorBit) (s : State) : (raiseError e s).cores = s.cores := rfl
@[simp] theorem raiseError_offset (e : ErrorBit) (s : State) : (raiseError e s).offset = s.offset := rfl
@[simp] theorem raiseError_burstN (e : ErrorBit) (s : State) : (raiseError e s).burstN = s.burstN := rfl
@[simp] theorem raiseError_inBurst (e : ErrorBit) (s : State) : (raiseError e s).inBurst = s.inBurst := rfl
@[simp] theorem raiseError_status (e : ErrorBit) (s : State) : (raiseError e s).status = s.status ||| e.bit := rfl
@[simp] theorem raiseError_resp (e : ErrorBit) (s : State) : (raiseError e s).resp = s.resp := rfl
@[simp] theorem raiseError_mods (e : ErrorBit) (s : State) : (raiseError e s).mods = s.mods := rfl
@[simp] theorem raiseError_busA (e : ErrorBit) (s : State) : (raiseError e s).busA = s.busA := rfl
@[simp] theorem raiseError_busB (e : ErrorBit) (s : State) : (raiseError e s).busB = s.busB := rfl
@[simp] theorem raiseError_syncBuf (e : ErrorBit) (s : State) : (raiseError e s).syncBuf = s.syncBuf := rfl
@[simp] theorem raiseError_pending (e : ErrorBit) (s : State) : (raiseError e s).pending = s.pending := rfl
@[simp] theorem raiseError_drawIx (e : ErrorBit) (s : State) : (raiseError e s).drawIx = s.drawIx := rfl

/-! ## cfgWrite -/

@[simp] theorem cfgWrite_pc (s : State) (c : Fin 4) (r : Fin 16) (x : Word) : (cfgWrite s c r x).pc = s.pc := rfl
@[simp] theorem cfgWrite_cores (s : State) (c : Fin 4) (r : Fin 16) (x : Word) : (cfgWrite s c r x).cores = s.cores.set c { s.cores[c] with cfg := s.cores[c].cfg.set r x } := rfl
@[simp] theorem cfgWrite_offset (s : State) (c : Fin 4) (r : Fin 16) (x : Word) : (cfgWrite s c r x).offset = s.offset := rfl
@[simp] theorem cfgWrite_burstN (s : State) (c : Fin 4) (r : Fin 16) (x : Word) : (cfgWrite s c r x).burstN = s.burstN := rfl
@[simp] theorem cfgWrite_inBurst (s : State) (c : Fin 4) (r : Fin 16) (x : Word) : (cfgWrite s c r x).inBurst = s.inBurst := rfl
@[simp] theorem cfgWrite_status (s : State) (c : Fin 4) (r : Fin 16) (x : Word) : (cfgWrite s c r x).status = s.status := rfl
@[simp] theorem cfgWrite_resp (s : State) (c : Fin 4) (r : Fin 16) (x : Word) : (cfgWrite s c r x).resp = s.resp := rfl
@[simp] theorem cfgWrite_mods (s : State) (c : Fin 4) (r : Fin 16) (x : Word) : (cfgWrite s c r x).mods = s.mods := rfl
@[simp] theorem cfgWrite_busA (s : State) (c : Fin 4) (r : Fin 16) (x : Word) : (cfgWrite s c r x).busA = s.busA := rfl
@[simp] theorem cfgWrite_busB (s : State) (c : Fin 4) (r : Fin 16) (x : Word) : (cfgWrite s c r x).busB = s.busB := rfl
@[simp] theorem cfgWrite_syncBuf (s : State) (c : Fin 4) (r : Fin 16) (x : Word) : (cfgWrite s c r x).syncBuf = s.syncBuf := rfl
@[simp] theorem cfgWrite_pending (s : State) (c : Fin 4) (r : Fin 16) (x : Word) : (cfgWrite s c r x).pending = s.pending := rfl
@[simp] theorem cfgWrite_drawIx (s : State) (c : Fin 4) (r : Fin 16) (x : Word) : (cfgWrite s c r x).drawIx = s.drawIx := rfl

/-! ## oscWrite -/

@[simp] theorem oscWrite_pc (s : State) (c : Fin 4) (o : Osc) : (oscWrite s c o).pc = s.pc := rfl
@[simp] theorem oscWrite_cores (s : State) (c : Fin 4) (o : Osc) : (oscWrite s c o).cores = s.cores.set c { s.cores[c] with osc := o } := rfl
@[simp] theorem oscWrite_offset (s : State) (c : Fin 4) (o : Osc) : (oscWrite s c o).offset = s.offset := rfl
@[simp] theorem oscWrite_burstN (s : State) (c : Fin 4) (o : Osc) : (oscWrite s c o).burstN = s.burstN := rfl
@[simp] theorem oscWrite_inBurst (s : State) (c : Fin 4) (o : Osc) : (oscWrite s c o).inBurst = s.inBurst := rfl
@[simp] theorem oscWrite_status (s : State) (c : Fin 4) (o : Osc) : (oscWrite s c o).status = s.status := rfl
@[simp] theorem oscWrite_resp (s : State) (c : Fin 4) (o : Osc) : (oscWrite s c o).resp = s.resp := rfl
@[simp] theorem oscWrite_mods (s : State) (c : Fin 4) (o : Osc) : (oscWrite s c o).mods = s.mods := rfl
@[simp] theorem oscWrite_busA (s : State) (c : Fin 4) (o : Osc) : (oscWrite s c o).busA = s.busA := rfl
@[simp] theorem oscWrite_busB (s : State) (c : Fin 4) (o : Osc) : (oscWrite s c o).busB = s.busB := rfl
@[simp] theorem oscWrite_syncBuf (s : State) (c : Fin 4) (o : Osc) : (oscWrite s c o).syncBuf = s.syncBuf := rfl
@[simp] theorem oscWrite_pending (s : State) (c : Fin 4) (o : Osc) : (oscWrite s c o).pending = s.pending := rfl
@[simp] theorem oscWrite_drawIx (s : State) (c : Fin 4) (o : Osc) : (oscWrite s c o).drawIx = s.drawIx := rfl

/-! ## modWrite -/

@[simp] theorem modWrite_pc (s : State) (i : Fin 21) (m : ModSlot) : (modWrite s i m).pc = s.pc := rfl
@[simp] theorem modWrite_cores (s : State) (i : Fin 21) (m : ModSlot) : (modWrite s i m).cores = s.cores := rfl
@[simp] theorem modWrite_offset (s : State) (i : Fin 21) (m : ModSlot) : (modWrite s i m).offset = s.offset := rfl
@[simp] theorem modWrite_burstN (s : State) (i : Fin 21) (m : ModSlot) : (modWrite s i m).burstN = s.burstN := rfl
@[simp] theorem modWrite_inBurst (s : State) (i : Fin 21) (m : ModSlot) : (modWrite s i m).inBurst = s.inBurst := rfl
@[simp] theorem modWrite_status (s : State) (i : Fin 21) (m : ModSlot) : (modWrite s i m).status = s.status := rfl
@[simp] theorem modWrite_resp (s : State) (i : Fin 21) (m : ModSlot) : (modWrite s i m).resp = s.resp := rfl
@[simp] theorem modWrite_mods (s : State) (i : Fin 21) (m : ModSlot) : (modWrite s i m).mods = s.mods.set i m := rfl
@[simp] theorem modWrite_busA (s : State) (i : Fin 21) (m : ModSlot) : (modWrite s i m).busA = s.busA := rfl
@[simp] theorem modWrite_busB (s : State) (i : Fin 21) (m : ModSlot) : (modWrite s i m).busB = s.busB := rfl
@[simp] theorem modWrite_syncBuf (s : State) (i : Fin 21) (m : ModSlot) : (modWrite s i m).syncBuf = s.syncBuf := rfl
@[simp] theorem modWrite_pending (s : State) (i : Fin 21) (m : ModSlot) : (modWrite s i m).pending = s.pending := rfl
@[simp] theorem modWrite_drawIx (s : State) (i : Fin 21) (m : ModSlot) : (modWrite s i m).drawIx = s.drawIx := rfl

/-! ## withVoice -/

@[simp] theorem withVoice_pc (s : State) (c : Fin 4) (v : Voice) : (withVoice s c v).pc = s.pc := rfl
@[simp] theorem withVoice_cores (s : State) (c : Fin 4) (v : Voice) : (withVoice s c v).cores = (oscWrite s c v.osc).cores := rfl
@[simp] theorem withVoice_offset (s : State) (c : Fin 4) (v : Voice) : (withVoice s c v).offset = s.offset := rfl
@[simp] theorem withVoice_burstN (s : State) (c : Fin 4) (v : Voice) : (withVoice s c v).burstN = s.burstN := rfl
@[simp] theorem withVoice_inBurst (s : State) (c : Fin 4) (v : Voice) : (withVoice s c v).inBurst = s.inBurst := rfl
@[simp] theorem withVoice_status (s : State) (c : Fin 4) (v : Voice) : (withVoice s c v).status = s.status := rfl
@[simp] theorem withVoice_resp (s : State) (c : Fin 4) (v : Voice) : (withVoice s c v).resp = s.resp := rfl
@[simp] theorem withVoice_mods (s : State) (c : Fin 4) (v : Voice) : (withVoice s c v).mods = s.mods := rfl
@[simp] theorem withVoice_busA (s : State) (c : Fin 4) (v : Voice) : (withVoice s c v).busA = v.busA := rfl
@[simp] theorem withVoice_busB (s : State) (c : Fin 4) (v : Voice) : (withVoice s c v).busB = v.busB := rfl
@[simp] theorem withVoice_syncBuf (s : State) (c : Fin 4) (v : Voice) : (withVoice s c v).syncBuf = v.syncBuf := rfl
@[simp] theorem withVoice_pending (s : State) (c : Fin 4) (v : Voice) : (withVoice s c v).pending = s.pending := rfl
@[simp] theorem withVoice_drawIx (s : State) (c : Fin 4) (v : Voice) : (withVoice s c v).drawIx = v.drawIx := rfl

/-! ## Reading registers after an update -/

@[simp] theorem oscRead_retire (s : State) (c : Fin 4) : oscRead (retire s) c = oscRead s c := rfl
@[simp] theorem cfgRead_retire (s : State) (c : Fin 4) (r : Fin 16) : cfgRead (retire s) c r = cfgRead s c r := rfl
@[simp] theorem modSlot_retire (s : State) (i : Fin 21) : modSlot (retire s) i = modSlot s i := rfl
@[simp] theorem oscRead_raiseError (e : ErrorBit) (s : State) (c : Fin 4) :
    oscRead (raiseError e s) c = oscRead s c := rfl
@[simp] theorem cfgRead_raiseError (e : ErrorBit) (s : State) (c : Fin 4) (r : Fin 16) :
    cfgRead (raiseError e s) c r = cfgRead s c r := rfl
@[simp] theorem modSlot_raiseError (e : ErrorBit) (s : State) (i : Fin 21) :
    modSlot (raiseError e s) i = modSlot s i := rfl
@[simp] theorem busRead_retire (s : State) (b : Bus) (j : Nat) : busRead (retire s) b j = busRead s b j := rfl
@[simp] theorem syncRead_retire (s : State) (j : Nat) : syncRead (retire s) j = syncRead s j := rfl
@[simp] theorem busRead_raiseError (e : ErrorBit) (s : State) (b : Bus) (j : Nat) :
    busRead (raiseError e s) b j = busRead s b j := rfl
@[simp] theorem syncRead_raiseError (e : ErrorBit) (s : State) (j : Nat) :
    syncRead (raiseError e s) j = syncRead s j := rfl

theorem core_set (s : State) (c d : Fin 4) (k : Core) :
    (s.cores.set c k)[d] = if d = c then k else s.cores[d] := by
  rw [Fin.getElem_fin, Vector.getElem_set, Fin.getElem_fin]
  simp only [Fin.ext_iff, eq_comm]

/-- A new Osc is read back from its own core; the others keep theirs. -/
theorem oscRead_oscWrite (s : State) (c d : Fin 4) (o : Osc) :
    oscRead (oscWrite s c o) d = if d = c then o else oscRead s d := by
  unfold oscRead
  rw [oscWrite_cores, core_set]
  split <;> rfl

/-- Writing an Osc changes no configuration register. -/
@[simp] theorem cfgRead_oscWrite (s : State) (c d : Fin 4) (o : Osc) (r : Fin 16) :
    cfgRead (oscWrite s c o) d r = cfgRead s d r := by
  unfold cfgRead
  rw [oscWrite_cores, core_set]
  split
  · next h => subst h; rfl
  · rfl

/-- A configuration register holds the word written to it; the others keep theirs. -/
theorem cfgRead_cfgWrite (s : State) (c d : Fin 4) (r q : Fin 16) (x : Word) :
    cfgRead (cfgWrite s c r x) d q = if d = c ∧ q = r then x else cfgRead s d q := by
  unfold cfgRead
  rw [cfgWrite_cores, core_set]
  by_cases h : d = c
  · subst h
    simp only [if_true, true_and]
    rw [Fin.getElem_fin, Vector.getElem_set]
    simp only [Fin.ext_iff, eq_comm, Fin.getElem_fin]
  · simp only [h, if_false, false_and]

/-- Writing a configuration register changes no core state register. -/
@[simp] theorem oscRead_cfgWrite (s : State) (c d : Fin 4) (r : Fin 16) (x : Word) :
    oscRead (cfgWrite s c r x) d = oscRead s d := by
  unfold oscRead
  rw [cfgWrite_cores, core_set]
  split
  · next h => subst h; rfl
  · rfl

/-- A slot holds the content written to it; the others keep theirs. -/
theorem modSlot_modWrite (s : State) (i j : Fin 21) (m : ModSlot) :
    modSlot (modWrite s i m) j = if j = i then m else modSlot s j := by
  unfold modSlot
  rw [modWrite_mods, Fin.getElem_fin, Vector.getElem_set, Fin.getElem_fin]
  simp only [Fin.ext_iff, eq_comm]

/-- A voice put back is read back. -/
theorem oscRead_withVoice (s : State) (c d : Fin 4) (v : Voice) :
    oscRead (withVoice s c v) d = if d = c then v.osc else oscRead s d := oscRead_oscWrite s c d v.osc

/-- A voice put back changes no configuration register. -/
@[simp] theorem cfgRead_withVoice (s : State) (c d : Fin 4) (v : Voice) (r : Fin 16) :
    cfgRead (withVoice s c v) d r = cfgRead s d r := cfgRead_oscWrite s c d v.osc r

/-- Putting back the voice that was taken changes nothing. -/
theorem withVoice_voiceOf (s : State) (c : Fin 4) : withVoice s c (voiceOf s c) = s := by
  have h : s.cores.set c s.cores[c] = s.cores := by
    apply Vector.ext
    intro i hi
    rw [Vector.getElem_set]
    split
    · next h => subst h; rfl
    · rfl
  show { s with cores := s.cores.set c s.cores[c] } = s
  rw [h]

end Sys2Proof.Machine
end

