-- ==== Sys2Proof/Laws/Ops.lean ====
section
/-! SUPPORT. What each command can do, said once: it raises one error and does nothing else, or it completes with its
effect. -/

namespace Sys2Proof.Machine

theorem execNop_eq (s : State) : execNop s = .next (retire s) := rfl

theorem execReset_eq (s : State) : execReset s = .next (retire (resetUnit s)) := rfl

theorem execCreset_eq (c : Fin 4) (s : State) :
    execCreset c s = .next (retire (oscWrite s c (cresetState (oscRead s c)))) := rfl

theorem execWrcfg_cases (c : Fin 4) (sel : Nat) (data : Word) (s : State) :
    (cfgSel sel = none ∧ execWrcfg c sel data s = .next (raiseError .badSel s))
    ∨ ∃ r, cfgSel sel = some r ∧ execWrcfg c sel data s = .next (retire (cfgWrite s c r data)) := by
  unfold execWrcfg
  cases cfgSel sel with
  | none => exact .inl ⟨rfl, rfl⟩
  | some r => exact .inr ⟨r, rfl, rfl⟩

theorem execRdreg_cases (c : Fin 4) (sel : Nat) (s : State) :
    (regRead s c sel = none ∧ execRdreg c sel s = .next (raiseError .badSel s))
    ∨ ∃ v, regRead s c sel = some v ∧ execRdreg c sel s = .next (retire { s with resp := v }) := by
  unfold execRdreg
  cases regRead s c sel with
  | none => exact .inl ⟨rfl, rfl⟩
  | some v => exact .inr ⟨v, rfl, rfl⟩

theorem execModinit_cases (sel : Nat) (data : Word) (s : State) :
    (writableSlot sel = none ∧ execModinit sel data s = .next (raiseError .badSel s))
    ∨ (∃ i, writableSlot sel = some i ∧ atTickBoundary s = false ∧
        execModinit sel data s = .next (raiseError .sequence s))
    ∨ ∃ i, writableSlot sel = some i ∧ atTickBoundary s = true ∧
        execModinit sel data s = .next (retire (modWrite s i { value := data, next := data, delta := F32.posZero })) := by
  unfold execModinit
  cases writableSlot sel with
  | none => exact .inl ⟨rfl, rfl⟩
  | some i =>
    cases h : atTickBoundary s with
    | false => exact .inr (.inl ⟨i, rfl, rfl, by simp⟩)
    | true => exact .inr (.inr ⟨i, rfl, rfl, by simp⟩)

theorem execModtick_cases (sel : Nat) (data : Word) (s : State) :
    (writableSlot sel = none ∧ execModtick sel data s = .next (raiseError .badSel s))
    ∨ (∃ i, writableSlot sel = some i ∧ atTickBoundary s = false ∧
        execModtick sel data s = .next (raiseError .sequence s))
    ∨ ∃ i, writableSlot sel = some i ∧ atTickBoundary s = true ∧
        execModtick sel data s
          = .next (retire (modWrite s i (tickedSlot (Config.params.nan s.pc) (modSlot s i) data))) := by
  unfold execModtick modtickWith
  cases writableSlot sel with
  | none => exact .inl ⟨rfl, rfl⟩
  | some i =>
    cases h : atTickBoundary s with
    | false => exact .inr (.inl ⟨i, rfl, rfl, by simp⟩)
    | true => exact .inr (.inr ⟨i, rfl, rfl, by simp⟩)

theorem execRdmod_cases (sel aux : Nat) (s : State) :
    execRdmod sel aux s = .next (raiseError .badSel s)
    ∨ ∃ i v, slotSel sel = some i ∧ slotField (modSlot s i) aux = some v ∧
        execRdmod sel aux s = .next (retire { s with resp := v }) := by
  unfold execRdmod
  cases hs : slotSel sel with
  | none => exact .inl rfl
  | some i =>
    cases hf : slotField (modSlot s i) aux with
    | none => exact .inl (by simp only [hf])
    | some v => exact .inr ⟨i, v, rfl, hf, by simp only [hf]⟩

theorem execBegin_cases (n : Nat) (s : State) :
    (s.inBurst = true ∧ execBegin n s = .next (raiseError .sequence s))
    ∨ (s.inBurst = false ∧ badCount s n = true ∧ execBegin n s = .next (raiseError .badCount s))
    ∨ (s.inBurst = false ∧ badCount s n = false ∧ execBegin n s
        = .next (retire { s with burstN := Fin.ofNat (Config.CP + 1) n, inBurst := true, syncBuf := [] })) := by
  unfold execBegin
  cases h : s.inBurst with
  | true => exact .inl ⟨rfl, by simp⟩
  | false =>
    cases hc : badCount s n with
    | true => exact .inr (.inl ⟨rfl, rfl, by simp⟩)
    | false => exact .inr (.inr ⟨rfl, rfl, by simp⟩)

theorem execEnd_cases (s : State) :
    (s.inBurst = false ∧ execEnd s = .next (raiseError .sequence s))
    ∨ (s.inBurst = true ∧ execEnd s = .next (retire (closeBurst Config.params.busLen s))) := by
  unfold execEnd endWith
  cases h : s.inBurst with
  | false => exact .inl ⟨rfl, by simp⟩
  | true => exact .inr ⟨rfl, by simp⟩

theorem execTick_cases (s : State) :
    execTick s = .next (raiseError .sequence s)
    ∨ (s.inBurst = false ∧ s.offset.toNat = Config.CP ∧ execTick s = .next (retire { s with offset := 0 })) := by
  unfold execTick
  split
  · exact .inl rfl
  · next h => exact .inr ⟨by simp_all, by simp_all, rfl⟩

theorem execRender_cases (c : Fin 4) (s : State) :
    (s.inBurst = false ∧ execRender c s = .next (raiseError .sequence s))
    ∨ (s.inBurst = true ∧ execRender c s = .next (retire (withVoice s c (renderVoice Config.params
        (Config.params.nan s.pc) s.cores[c].cfg s.mods s.offset.toNat s.burstN.val (voiceOf s c))))) := by
  unfold execRender renderWith
  cases h : s.inBurst with
  | false => exact .inl ⟨rfl, by simp⟩
  | true => exact .inr ⟨rfl, by simp⟩

theorem step_idle {s : State} (h : s.pending = []) : step s = .next s := by
  unfold step; rw [h]

theorem step_word {s : State} {cmd : Cmd} {rest : List Cmd} (h : s.pending = cmd :: rest) :
    step s = runWord cmd { s with pending := rest } := by
  unfold step; rw [h]

end Sys2Proof.Machine
end

