-- ==== Sys2Proof/Laws/PerInstr.lean ====
section
/-! SUPPORT. Facts stated of every command and proved constructor by constructor.  Family `RowSelects`: the word of a
command is selected by the row of the opcode table that its op field names, so every reserved field of it is zero
(spec/30_encoding.md R304). -/

namespace Sys2Proof.Laws.RowSelects

/-- The row of the table that the op field names selects the command's word. -/
def Statement (i : Instr) : Prop :=
  opField (encode i) = i.opcode ∧ ∃ row, opcodeTable[i.opcode]? = some row ∧ row.selects (encode i) = true

theorem selects_of_mask {op : Nat} {core : Fin 4} {sel aux : Nat} {data : Word} {row : OpRow} (mc : BitVec 2)
    (ms : BitVec 6) (ma : BitVec 16) (md : Word)
    (hm : row.maskBits = (0xFF#8 ++ mc ++ ms ++ ma ++ md : BitVec 64))
    (h : (BitVec.ofNat 8 op &&& 0xFF#8) ++ (BitVec.ofFin (w := 2) core &&& mc) ++ (BitVec.ofNat 6 sel &&& ms)
        ++ (BitVec.ofNat 16 aux &&& ma) ++ (data &&& md) = row.matchBits) :
    row.selects (packFields op core sel aux data) = true := by
  unfold OpRow.selects
  rw [hm, packFields_and, h]
  exact beq_self_eq_true _

theorem and_zero_ofFin (c : Fin 4) : BitVec.ofFin (w := 2) c &&& 0#2 = 0#2 := BitVec.and_zero

theorem nop : Statement .nop :=
  ⟨opField_packFields _ _ _ _ _, _, rfl, by decide⟩

theorem reset : Statement .reset :=
  ⟨opField_packFields _ _ _ _ _, _, rfl, by decide⟩

theorem creset (core : Fin 4) : Statement (.creset core) :=
  ⟨opField_packFields _ _ _ _ _, _, rfl, selects_of_mask 0#2 0x3F#6 0xFFFF#16 0xFFFFFFFF#32 (by decide)
    (by rw [and_zero_ofFin]; decide)⟩

theorem wrcfg (core : Fin 4) (sel : Nat) (data : Word) : Statement (.wrcfg core sel data) :=
  ⟨opField_packFields _ _ _ _ _, _, rfl, selects_of_mask 0#2 0#6 0xFFFF#16 0#32 (by decide)
    (by rw [and_zero_ofFin, BitVec.and_zero, BitVec.and_zero]; decide)⟩

theorem rdreg (core : Fin 4) (sel : Nat) : Statement (.rdreg core sel) :=
  ⟨opField_packFields _ _ _ _ _, _, rfl, selects_of_mask 0#2 0#6 0xFFFF#16 0xFFFFFFFF#32 (by decide)
    (by rw [and_zero_ofFin, BitVec.and_zero]; decide)⟩

theorem modinit (sel : Nat) (data : Word) : Statement (.modinit sel data) :=
  ⟨opField_packFields _ _ _ _ _, _, rfl, selects_of_mask 3#2 0#6 0xFFFF#16 0#32 (by decide)
    (by rw [BitVec.and_zero, BitVec.and_zero]; decide)⟩

theorem modtick (sel : Nat) (data : Word) : Statement (.modtick sel data) :=
  ⟨opField_packFields _ _ _ _ _, _, rfl, selects_of_mask 3#2 0#6 0xFFFF#16 0#32 (by decide)
    (by rw [BitVec.and_zero, BitVec.and_zero]; decide)⟩

theorem rdmod (sel aux : Nat) : Statement (.rdmod sel aux) :=
  ⟨opField_packFields _ _ _ _ _, _, rfl, selects_of_mask 3#2 0#6 0#16 0xFFFFFFFF#32 (by decide)
    (by rw [BitVec.and_zero, BitVec.and_zero]; decide)⟩

theorem beginBurst (n : Nat) : Statement (.beginBurst n) :=
  ⟨opField_packFields _ _ _ _ _, _, rfl, selects_of_mask 3#2 0x3F#6 0#16 0xFFFFFFFF#32 (by decide)
    (by rw [BitVec.and_zero]; decide)⟩

theorem render (core : Fin 4) : Statement (.render core) :=
  ⟨opField_packFields _ _ _ _ _, _, rfl, selects_of_mask 0#2 0x3F#6 0xFFFF#16 0xFFFFFFFF#32 (by decide)
    (by rw [and_zero_ofFin]; decide)⟩

theorem endBurst : Statement .endBurst :=
  ⟨opField_packFields _ _ _ _ _, _, rfl, by decide⟩

theorem tick : Statement .tick :=
  ⟨opField_packFields _ _ _ _ _, _, rfl, by decide⟩

end Sys2Proof.Laws.RowSelects
end

