-- ==== Sys2Proof/Laws/Waveforms.lean ====
section
/-! SUPPORT. What the placement of corrections and the waveform events change of a voice, and what they leave. -/

namespace Sys2Proof.Machine

section
variable (P : Params) (ν : NanSource) (e : Sample) (wv : Wave) (r x : Word) (v : Voice)

@[simp] theorem placeStep_osc : (placeStep P ν e r x v).osc = v.osc := rfl
@[simp] theorem placeStep_syncBuf : (placeStep P ν e r x v).syncBuf = v.syncBuf := rfl
@[simp] theorem placeStep_drawIx : (placeStep P ν e r x v).drawIx = v.drawIx := rfl
@[simp] theorem placeSlope_osc : (placeSlope P ν e r x v).osc = v.osc := rfl
@[simp] theorem placeSlope_syncBuf : (placeSlope P ν e r x v).syncBuf = v.syncBuf := rfl
@[simp] theorem placeSlope_drawIx : (placeSlope P ν e r x v).drawIx = v.drawIx := rfl
@[simp] theorem setSect_syncBuf (b : Bool) : (setSect b v).syncBuf = v.syncBuf := rfl
@[simp] theorem setSect_drawIx (b : Bool) : (setSect b v).drawIx = v.drawIx := rfl
@[simp] theorem setSect_busA (b : Bool) : (setSect b v).busA = v.busA := rfl
@[simp] theorem setSect_busB (b : Bool) : (setSect b v).busB = v.busB := rfl
@[simp] theorem setSect_sect (b : Bool) : (setSect b v).osc.sect = b := rfl
@[simp] theorem newNoiseLevel_syncBuf : (newNoiseLevel P ν e r v).syncBuf = v.syncBuf := rfl
@[simp] theorem newNoiseLevel_nval : (newNoiseLevel P ν e r v).osc.nval = P.noise v.drawIx := rfl
@[simp] theorem newNoiseLevel_drawIx : (newNoiseLevel P ν e r v).drawIx = v.drawIx + 1 := rfl

/-- A THRESH event leaves SECT 0, but for the sawtooth, which has none. -/
theorem onThresh_sect (h : wv ≠ .saw) : (onThresh P ν e wv r v).osc.sect = false := by
  cases wv <;> first | exact absurd rfl h | rfl

/-- A WRAP event leaves SECT 1. -/
theorem onWrap_sect : (onWrap P ν e wv r v).osc.sect = true := by
  cases wv <;> rfl

/-- Events write no SYNC_BUF word. -/
@[simp] theorem onThresh_syncBuf : (onThresh P ν e wv r v).syncBuf = v.syncBuf := by
  cases wv <;> rfl

@[simp] theorem onWrap_syncBuf : (onWrap P ν e wv r v).syncBuf = v.syncBuf := by
  cases wv <;> rfl

/-- Events take a draw for the pulse-width noise only. -/
theorem onThresh_drawIx (h : wv ≠ .noise) : (onThresh P ν e wv r v).drawIx = v.drawIx := by
  cases wv <;> first | exact absurd rfl h | rfl

theorem onWrap_drawIx (h : wv ≠ .noise) : (onWrap P ν e wv r v).drawIx = v.drawIx := by
  cases wv <;> first | exact absurd rfl h | rfl

end

/-- A property of a bus that every accumulation at indices `s ..< s + len` keeps, a whole placement keeps. -/
theorem placeOn_induct {Q : Mem → Prop} (ν : NanSource) (rom : Word → Nat → Word) (len : Nat) (g size r : Word)
    (s : Nat) (step : ∀ μ m k x, k < len → Q m → Q (accumulate μ m (s + k) x)) :
    ∀ m, Q m → Q (placeOn ν rom len g size r s m) := by
  have go : ∀ l : List Nat, (∀ k ∈ l, k < len) → ∀ m, Q m →
      Q (l.foldl (fun m k => placeTap (ν.sub k) rom g size r s m k) m) := by
    intro l
    induction l with
    | nil => intro _ m hm; exact hm
    | cons k l ih =>
      intro hl m hm
      exact ih (fun j hj => hl j (List.mem_cons_of_mem _ hj)) _ (step _ _ _ _ (hl k List.mem_cons_self) hm)
  exact fun m hm => go _ (fun k hk => List.mem_range.1 hk) m hm

/-- A placement that stays in range keeps the canonical form. -/
theorem placeOn_wf (ν : NanSource) (rom : Word → Nat → Word) (len : Nat) (g size r : Word) (s : Nat) {hi : Nat}
    (h : s + len ≤ hi) (m : Mem) (hm : Mem.wf busReset hi m = true) :
    Mem.wf busReset hi (placeOn ν rom len g size r s m) = true :=
  placeOn_induct (Q := fun m => Mem.wf busReset hi m = true) ν rom len g size r s
    (fun μ _ _ x hk hm => Mem.wf_accumulate μ hm x (by omega)) m hm

/-- A placement leaves the words outside its window alone. -/
theorem placeOn_read_other (ν : NanSource) (rom : Word → Nat → Word) (len : Nat) (g size r : Word) (s : Nat) (m : Mem)
    (j : Nat) (hj : j < s ∨ s + len ≤ j) :
    Mem.read busReset (placeOn ν rom len g size r s m) j = Mem.read busReset m j :=
  placeOn_induct (Q := fun m' => Mem.read busReset m' j = Mem.read busReset m j) ν rom len g size r s
    (fun μ m' k x hk hm => (Mem.read_accumulate_other μ m' _ x j (by omega)).trans hm) m rfl

end Sys2Proof.Machine
end

