-- ==== Sys2Proof/Laws/Render.lean ====
section
/-! SUPPORT. What the steps of RENDER change of a voice: its bus words by accumulation only, its SYNC_BUF word by a
master's export only, and the induction over the samples of a burst. -/

namespace Sys2Proof.Machine

/-- `Q` is a property of a bus that an accumulation at any index of the window of `e` keeps. -/
abbrev KeptInWindow (P : Params) (e : Sample) (Q : Mem → Prop) : Prop :=
  ∀ μ m k x, k < P.L → Q m → Q (accumulate μ m (e.s + k) x)

/-- Both buses of a voice have the property. -/
abbrev OnBuses (Q : Mem → Prop) (v : Voice) : Prop := Q v.busA ∧ Q v.busB

section
variable {P : Params} {e : Sample} {Q : Mem → Prop} (hQ : KeptInWindow P e Q)
include hQ

theorem placeStep_buses (ν : NanSource) (r x : Word) {v : Voice} (h : OnBuses Q v) :
    OnBuses Q (placeStep P ν e r x v) :=
  ⟨placeOn_induct _ _ _ _ _ _ _ hQ _ h.1, placeOn_induct _ _ _ _ _ _ _ hQ _ h.2⟩

theorem placeSlope_buses (ν : NanSource) (r x : Word) {v : Voice} (h : OnBuses Q v) :
    OnBuses Q (placeSlope P ν e r x v) :=
  ⟨placeOn_induct _ _ _ _ _ _ _ hQ _ h.1, placeOn_induct _ _ _ _ _ _ _ hQ _ h.2⟩

theorem newNoiseLevel_buses (ν : NanSource) (r : Word) {v : Voice} (h : OnBuses Q v) :
    OnBuses Q (newNoiseLevel P ν e r v) :=
  placeStep_buses hQ (ν.sub 0) r _ (v := (draw P v).2) h

theorem onThresh_buses (ν : NanSource) (wv : Wave) (r : Word) {v : Voice} (h : OnBuses Q v) :
    OnBuses Q (onThresh P ν e wv r v) := by
  cases wv with
  | saw => exact h
  | rect => exact placeStep_buses hQ ν r _ h
  | tri => exact placeSlope_buses hQ _ r _ h
  | noise => exact newNoiseLevel_buses hQ ν r h
  | clipped => exact placeSlope_buses hQ _ r _ h

theorem onWrap_buses (ν : NanSource) (wv : Wave) (r : Word) {v : Voice} (h : OnBuses Q v) :
    OnBuses Q (onWrap P ν e wv r v) := by
  cases wv with
  | saw => exact placeStep_buses hQ ν r _ h
  | rect => exact placeStep_buses hQ ν r _ h
  | tri => exact placeSlope_buses hQ _ r _ h
  | noise => exact newNoiseLevel_buses hQ ν r h
  | clipped => exact placeSlope_buses hQ _ r _ (placeStep_buses hQ _ r _ h)

theorem placeSyncSlope_buses (ν : NanSource) (wv : Wave) (f : Word) (b : Bool) {v : Voice} (h : OnBuses Q v) :
    OnBuses Q (placeSyncSlope P ν e wv f b v) := by
  cases wv with
  | saw => exact h
  | rect => exact h
  | tri => exact placeSlope_buses hQ _ f _ h
  | noise => exact h
  | clipped => exact placeSlope_buses hQ _ f _ h

theorem onSync_buses (ν : NanSource) (wv : Wave) (f : Word) {v : Voice} (h : OnBuses Q v) :
    OnBuses Q (onSync P ν e wv f v) := by
  cases wv with
  | noise => exact placeSyncSlope_buses hQ _ _ f _ (placeStep_buses hQ _ f _ (v := (draw P v).2) h)
  | saw => exact placeSyncSlope_buses hQ _ _ f _ (placeStep_buses hQ _ f _ h)
  | rect => exact placeSyncSlope_buses hQ _ _ f _ (placeStep_buses hQ _ f _ h)
  | tri => exact placeSyncSlope_buses hQ _ _ f _ (placeStep_buses hQ _ f _ h)
  | clipped => exact placeSyncSlope_buses hQ _ _ f _ (placeStep_buses hQ _ f _ h)

theorem advance_buses (ν : NanSource) (wv : Wave) (δ rb : Word) {v : Voice} (h : OnBuses Q v) :
    OnBuses Q (advance P ν e wv δ rb v).1 := by
  have ht : OnBuses Q (threshEvent P (ν.sub 1) e wv (F32.add (ν.sub 0) v.osc.pos δ) rb v) := by
    unfold threshEvent
    split
    · exact onThresh_buses hQ _ wv _ h
    · exact h
  unfold advance wrapEvent
  dsimp only
  split
  · exact onWrap_buses hQ _ wv _ ht
  · exact ht

/-- A sample accumulates within its window only. -/
theorem sampleStep_buses (hD : P.D < P.L) (ν : NanSource) (wv : Wave) (role : Role) {v : Voice} (h : OnBuses Q v) :
    OnBuses Q (sampleStep P ν e wv role v) := by
  have hout : ∀ (μ : NanSource) {u : Voice}, OnBuses Q u → OnBuses Q (output P μ e wv u) :=
    fun μ u hu => ⟨hQ _ _ _ _ hD hu.1, hQ _ _ _ _ hD hu.2⟩
  unfold sampleStep
  dsimp only
  apply hout
  split
  · exact onSync_buses hQ _ wv _ (advance_buses hQ _ wv _ _ h)
  · unfold freeSample
    cases role with
    | master => exact advance_buses hQ _ wv _ _ h
    | slave => exact advance_buses hQ _ wv _ _ h

end

/-- A move of the phase writes no SYNC_BUF word. -/
@[simp] theorem advance_syncBuf (P : Params) (ν : NanSource) (e : Sample) (wv : Wave) (δ rb : Word) (v : Voice) :
    (advance P ν e wv δ rb v).1.syncBuf = v.syncBuf := by
  have ht : ∀ p, (threshEvent P (ν.sub 1) e wv p rb v).syncBuf = v.syncBuf := by
    intro p
    unfold threshEvent
    split
    · exact onThresh_syncBuf ..
    · rfl
  unfold advance wrapEvent
  dsimp only
  split
  · exact (onWrap_syncBuf ..).trans (ht _)
  · exact ht _

/-- A sync event writes no SYNC_BUF word. -/
@[simp] theorem onSync_syncBuf (P : Params) (ν : NanSource) (e : Sample) (wv : Wave) (f : Word) (v : Voice) :
    (onSync P ν e wv f v).syncBuf = v.syncBuf := by
  cases wv <;> rfl

/-- Of SYNC_BUF a sample changes nothing, or, of a master, its own word, to a wrap fraction or −1.0. -/
theorem sampleStep_syncBuf (P : Params) (ν : NanSource) (e : Sample) (wv : Wave) (role : Role) (v : Voice) :
    (sampleStep P ν e wv role v).syncBuf = v.syncBuf
    ∨ role = .master ∧ ∃ wrapped : Option Word,
        wrapped = (advance P (ν.sub 1) e wv e.w F32.posZero v).2
        ∧ (sampleStep P ν e wv role v).syncBuf = Mem.write syncReset v.syncBuf e.s (wrapped.getD F32.negOne) := by
  unfold sampleStep output syncedSample freeSample exportWrap
  dsimp only
  cases role with
  | master => exact .inr ⟨rfl, _, rfl, by simp⟩
  | slave =>
    left
    split
    · simp
    · simp

/-- A sync event leaves POS at `f × w` and SECT at 1 (spec/43_render.md R565). -/
theorem onSync_osc (P : Params) (ν : NanSource) (e : Sample) (wv : Wave) (f : Word) (v : Voice) :
    (onSync P ν e wv f v).osc.pos = F32.mul (ν.sub 5) f e.w ∧ (onSync P ν e wv f v).osc.sect = true := ⟨rfl, rfl⟩

/-- A move leaves POS at the phase reached, less 1.0 where it wraps (R563). -/
theorem advance_pos (P : Params) (ν : NanSource) (e : Sample) (wv : Wave) (δ rb : Word) (v : Voice) :
    (advance P ν e wv δ rb v).1.osc.pos
      = if F32.ge (F32.add (ν.sub 0) v.osc.pos δ) F32.one = true
        then F32.sub ((ν.sub 2).sub 0) (F32.add (ν.sub 0) v.osc.pos δ) F32.one
        else F32.add (ν.sub 0) v.osc.pos δ := by
  unfold advance wrapEvent
  dsimp only
  split
  · rfl
  · rfl

/-- A property of the voice that the selector gives and every sample keeps, RENDER gives. -/
theorem renderVoice_induct {Q : Voice → Prop} (P : Params) (ν : NanSource) (cfg : Vector Word 16)
    (mods : Vector ModSlot 21) (o n : Nat) (v : Voice)
    (hsel : Q { v with osc := selectOsc (decodeMode cfg[CfgSel.MODE]) (decodeWave cfg[CfgSel.WAVE]) v.osc })
    (hstep : decodeMode cfg[CfgSel.MODE] = .minBlep → ∀ μ κ s u, s < n → Q u →
      Q (sampleStep P μ (sampleOf κ cfg (rampsOf P (ν.sub 0) cfg mods o n) s) (decodeWave cfg[CfgSel.WAVE])
        (decodeSync cfg[CfgSel.SYNC]) u)) :
    Q (renderVoice P ν cfg mods o n v) := by
  unfold renderVoice
  dsimp only
  split
  · next hm =>
    have go : ∀ l : List Nat, (∀ s ∈ l, s < n) → ∀ u, Q u → Q (l.foldl (fun v s =>
        sampleStep P ((ν.sub 1).sub (2 * s))
          (sampleOf ((ν.sub 1).sub (2 * s + 1)) cfg (rampsOf P (ν.sub 0) cfg mods o n) s)
          (decodeWave cfg[CfgSel.WAVE]) (decodeSync cfg[CfgSel.SYNC]) v) u) := by
      intro l
      induction l with
      | nil => intro _ u hu; exact hu
      | cons s l ih =>
        intro hl u hu
        exact ih (fun j hj => hl j (List.mem_cons_of_mem _ hj)) _
          (hstep hm _ _ s u (hl s List.mem_cons_self) hu)
    exact go _ (fun s hs => List.mem_range.1 hs) _ hsel
  · exact hsel

end Sys2Proof.Machine
end

