-- ==== Sys2Proof/Machine/Assembler.lean ====
section
/-! DEFINITION. The assembler of spec/30_encoding.md R308 and its pseudo-instructions R309: a line of text stands for
some commands.  It belongs to the host's side; no step of the unit uses it. -/

namespace Sys2Proof.Asm

/-! ## Names (spec/10_state.md R102, R104, R108, R111) -/

/-- Register names and their `sel` numbers. -/
def regNames : List (String × Nat) :=
  [("MODE", 0x00), ("WAVE", 0x01), ("W_BASE", 0x02), ("PM_SRC", 0x03), ("PM_AMT", 0x04), ("AM_SRC", 0x05),
   ("AM_AMT", 0x06), ("MP1", 0x07), ("MP1_SRC", 0x08), ("MP1_AMT", 0x09), ("MP2", 0x0A), ("MP2_SRC", 0x0B),
   ("MP2_AMT", 0x0C), ("LEVEL_A", 0x0D), ("LEVEL_B", 0x0E), ("SYNC", 0x0F)]
  ++ [("POS", 0x10), ("SECT", 0x11), ("NVAL", 0x12), ("LAST_MODE", 0x13), ("LAST_WAVE", 0x14)]
  ++ [("OFFSET", 0x20), ("BURST_N", 0x21), ("INBURST", 0x22), ("STATUS", 0x23), ("ID", 0x24)]

/-- Slot names and numbers. -/
def slotNames : List (String × Nat) :=
  [("ONE", 0), ("MODWHEEL", 1), ("PRESSURE", 2), ("KEY", 3), ("VELOCITY", 4), ("VLFO_BI", 5), ("VLFO_UNI", 6)]
  ++ [("MLFO0_BI", 7), ("MLFO0_UNI", 8), ("MLFO1_BI", 9), ("MLFO1_UNI", 10), ("MLFO2_BI", 11), ("MLFO2_UNI", 12),
      ("MLFO3_BI", 13), ("MLFO3_UNI", 14)]
  ++ [("EGO", 15), ("EG1", 16), ("EG2", 17), ("EG3", 18), ("EG4", 19), ("MIX", 20)]

/-- The fields of a slot by name: `value`, `next`, `delta` are `aux` 0, 1, 2 (R308). -/
def fieldNames : List (String × Nat) := [("value", 0), ("next", 1), ("delta", 2)]

/-- The number of a name. -/
def lookup (names : List (String × Nat)) (tok : List Char) : Option Nat :=
  (names.find? fun p => p.1.toList == tok).map (·.2)

/-! ## Numbers -/

/-- A decimal digit. -/
def decDigit (c : Char) : Option Nat := if '0' ≤ c ∧ c ≤ '9' then some (c.toNat - 48) else none

/-- A hexadecimal digit, of either case. -/
def hexDigit (c : Char) : Option Nat :=
  if '0' ≤ c ∧ c ≤ '9' then some (c.toNat - 48)
  else if 'A' ≤ c ∧ c ≤ 'F' then some (c.toNat - 55)
  else if 'a' ≤ c ∧ c ≤ 'f' then some (c.toNat - 87)
  else none

/-- The value of a run of digits, after those already read. -/
def digitsFrom (base : Nat) (digit : Char → Option Nat) : Nat → List Char → Option Nat
  | acc, [] => some acc
  | acc, c :: cs => (digit c).bind fun k => digitsFrom base digit (acc * base + k) cs

/-- A non-empty run of digits. -/
def digits (base : Nat) (digit : Char → Option Nat) (cs : List Char) : Option Nat :=
  if cs.isEmpty then none else digitsFrom base digit 0 cs

def decimal (cs : List Char) : Option Nat := digits 10 decDigit cs

/-- `0x` and hexadecimal digits. -/
def hexadecimal : List Char → Option Nat
  | '0' :: 'x' :: cs => digits 16 hexDigit cs
  | _ => none

/-! ## Operands (R308) -/

/-- `c<core>`, a core number 0..3. -/
def coreArg : List Char → Option (Fin 4)
  | ['c', '0'] => some 0
  | ['c', '1'] => some 1
  | ['c', '2'] => some 2
  | ['c', '3'] => some 3
  | _ => none

/-- A bounded number. -/
def below (bound : Nat) (k : Nat) : Option Nat := if k < bound then some k else none

/-- `<reg>`: a register name, or a number 0x00..0x3F. -/
def regArg (tok : List Char) : Option Nat :=
  (lookup regNames tok).or ((hexadecimal tok).bind (below 64))

/-- `<slot>`: a slot name, or a number 0..63. -/
def slotArg (tok : List Char) : Option Nat :=
  (lookup slotNames tok).or ((decimal tok).bind (below 64))

/-- `<field>`: value, next or delta, or its number, which the command itself checks. -/
def fieldArg (tok : List Char) : Option Nat :=
  (lookup fieldNames tok).or ((decimal tok).bind (below 65536))

/-- `<n>`: a decimal count 0..65535. -/
def countArg (tok : List Char) : Option Nat := (decimal tok).bind (below 65536)

/-- The pattern of `num / 10^places` where that is exactly a binary32 value; none where it is not (R308). -/
def exactWord (neg : Bool) (num places : Nat) : Option Word :=
  if F32.units (F32.pack neg (F32.roundMag (num * 2 ^ 149) (10 ^ places))) * 10 ^ places = num * 2 ^ 149
      ∧ F32.roundMag (num * 2 ^ 149) (10 ^ places) < F32.infMag
  then some (F32.pack neg (F32.roundMag (num * 2 ^ 149) (10 ^ places)))
  else none

/-- A decimal literal without its sign: digits, or digits, a point and digits. -/
def decimalWord (neg : Bool) (tok : List Char) : Option Word :=
  match tok.span (· ≠ '.') with
  | (whole, []) => (decimal whole).bind fun n => exactWord neg n 0
  | (whole, _ :: frac) =>
    (decimal whole).bind fun _ => (decimal frac).bind fun _ =>
      (decimal (whole ++ frac)).bind fun n => exactWord neg n frac.length

/-- `<value>`: a decimal literal that is exactly a binary32 value, or a 32-bit hexadecimal pattern of eight digits. -/
def valueArg : List Char → Option Word
  | '0' :: 'x' :: cs => if cs.length = 8 then (digits 16 hexDigit cs).map (BitVec.ofNat 32) else none
  | '-' :: cs => decimalWord true cs
  | cs => decimalWord false cs

/-! ## Lines -/

/-- The text of a line before its comment (R308). -/
def stripComment (cs : List Char) : List Char := cs.takeWhile (· ≠ ';')

/-- The tokens of a line: runs of characters between blanks, a comma being a token of its own. `tok` is the token being
read, its characters in reverse. -/
def tokensFrom : List Char → List Char → List (List Char)
  | tok, [] => if tok.isEmpty then [] else [tok.reverse]
  | tok, c :: cs =>
    if c.isWhitespace then (if tok.isEmpty then tokensFrom [] cs else tok.reverse :: tokensFrom [] cs)
    else if c = ',' then
      (if tok.isEmpty then [','] :: tokensFrom [] cs else tok.reverse :: [','] :: tokensFrom [] cs)
    else tokensFrom (c :: tok) cs

/-- The tokens of a line. -/
def tokens (line : String) : List (List Char) := tokensFrom [] (stripComment line.toList)

/-- `RENDERALL` (R309). -/
def renderAll : List Instr := [.render 0, .render 1, .render 2, .render 3]

/-- `BURST n` (R309). -/
def burst (n : Nat) : List Instr := .beginBurst n :: renderAll ++ [.endBurst]

/-- `PERIOD` (R309). -/
def period : List Instr := burst 64 ++ [.tick]

/-- `RDSTATUS` (R309). -/
def rdStatus : List Instr := [.rdreg 0 0x23]

/-- A line without operands. -/
def bareLine (name : String) : Option (List Instr) :=
  if name = "NOP" then some [.nop]
  else if name = "RESET" then some [.reset]
  else if name = "END" then some [.endBurst]
  else if name = "TICK" then some [.tick]
  else if name = "RENDERALL" then some renderAll
  else if name = "RDSTATUS" then some rdStatus
  else if name = "PERIOD" then some period
  else none

/-- A line with one operand. -/
def unaryLine (name : String) (a : List Char) : Option (List Instr) :=
  if name = "CRESET" then (coreArg a).map fun c => [.creset c]
  else if name = "RENDER" then (coreArg a).map fun c => [.render c]
  else if name = "BEGIN" then (countArg a).map fun n => [.beginBurst n]
  else if name = "BURST" then (countArg a).map burst
  else none

/-- A line with two operands. -/
def binaryLine (name : String) (a b : List Char) : Option (List Instr) :=
  if name = "RDREG" then (coreArg a).bind fun c => (regArg b).map fun r => [.rdreg c r]
  else if name = "MODINIT" then (slotArg a).bind fun i => (valueArg b).map fun x => [.modinit i x]
  else if name = "MODTICK" then (slotArg a).bind fun i => (valueArg b).map fun x => [.modtick i x]
  else if name = "RDMOD" then (slotArg a).bind fun i => (fieldArg b).map fun f => [.rdmod i f]
  else none

/-- A line with three operands: WRCFG, and SET, which is another name for it (R309). -/
def ternaryLine (name : String) (a b d : List Char) : Option (List Instr) :=
  if name = "WRCFG" ∨ name = "SET" then
    (coreArg a).bind fun c => (regArg b).bind fun r => (valueArg d).map fun x => [.wrcfg c r x]
  else none

/-- The commands of a line; none where the line is refused (R308, R309). A blank or comment line has none. -/
def assembleLine (line : String) : Option (List Instr) :=
  match tokens line with
  | [] => some []
  | [m] => bareLine (String.ofList m)
  | [m, a] => unaryLine (String.ofList m) a
  | [m, a, [','], b] => binaryLine (String.ofList m) a b
  | [m, a, [','], b, [','], d] => ternaryLine (String.ofList m) a b d
  | _ => none

/-- The commands of a program, one line after the other. -/
def assemble (lines : List String) : Option (List Instr) :=
  (lines.mapM assembleLine).map List.flatten

end Sys2Proof.Asm
end

