-- ==== Sys2Proof/Tests/Slice0.lean ====
section
/-! SUPPORT. The model's own tests, each expected result taken from spec/ (the vector or rule is named), and, for every
statement with hypotheses, a named state and operands that meet them all (theorems `met_…`). -/

namespace Sys2Proof.Tests

open Sys2Proof.Machine

/-! ## Well-formedness: each check refuses an ill-formed term (R301) -/

theorem test_wf_refuses_wide_sel : (Instr.wrcfg 0 64 0).wf = false ∧ (Instr.rdreg 0 64).wf = false
    ∧ (Instr.modinit 64 0).wf = false ∧ (Instr.modtick 64 0).wf = false ∧ (Instr.rdmod 64 0).wf = false := by decide

theorem test_wf_refuses_wide_aux : (Instr.rdmod 0 65536).wf = false ∧ (Instr.beginBurst 65536).wf = false := by decide

theorem test_wf_admits_reserved_values : (Instr.wrcfg 3 63 0).wf = true ∧ (Instr.beginBurst 0).wf = true := by decide

/-! ## Decoding: a word of each command written out from R301 and R303; 95_test_vectors.md -/

theorem test_decode_nop : decode 0x0000000000000000 = .instr .nop := by decide
theorem test_decode_reset : decode 0x0100000000000000 = .instr .reset := by decide
/-- op 0000_0010, core 01. -/
theorem test_decode_creset : decode 0b0000001001000000_0000000000000000_0000000000000000_0000000000000000
    = .instr (.creset 1) := by decide
/-- T11: `WRCFG c1, W_BASE, 0.375`. -/
theorem test_decode_wrcfg : decode 0x034200003EC00000 = .instr (.wrcfg 1 0x02 0x3EC00000) := by decide
/-- T10: `RDREG c3, SECT`. -/
theorem test_decode_rdreg : decode 0x04D1000000000000 = .instr (.rdreg 3 0x11) := by decide
/-- T15: `MODINIT KEY, 0.5`. -/
theorem test_decode_modinit : decode 0x050300003F000000 = .instr (.modinit 3 0x3F000000) := by decide
/-- T15: `MODTICK KEY, 1.0`. -/
theorem test_decode_modtick : decode 0x060300003F800000 = .instr (.modtick 3 0x3F800000) := by decide
/-- T19: `RDMOD KEY, delta`. -/
theorem test_decode_rdmod : decode 0x0703000200000000 = .instr (.rdmod 3 2) := by decide
/-- T44: `BEGIN 60`. -/
theorem test_decode_begin : decode 0x0800003C00000000 = .instr (.beginBurst 60) := by decide
/-- R310: `RENDER c3`. -/
theorem test_decode_render : decode 0x09C0000000000000 = .instr (.render 3) := by decide
theorem test_decode_end : decode 0x0A00000000000000 = .instr .endBurst := by decide
theorem test_decode_tick : decode 0x0B00000000000000 = .instr .tick := by decide
/-- T2, T3: ILLEGAL_OP comes first. -/
theorem test_decode_illegal : decode 0x0C00000000000000 = .illegalOp ∧ decode 0xFFFFFFFFFFFFFFFF = .illegalOp := by decide
/-- T4, T5, T9c. -/
theorem test_decode_reserved : decode 0x0000000000000001 = .rsvField ∧ decode 0x0240000000000001 = .rsvField
    ∧ decode 0x0901000000000000 = .rsvField := by decide
theorem test_encode_wrcfg : encode (.wrcfg 1 0x00 0x3F800000) = 0x034000003F800000 := by decide
/-- R207: the byte with bits 7:0 comes first. -/
theorem test_bytes_little_endian : cmdsOfBytes [0x00, 0x00, 0x80, 0x3F, 0x00, 0x00, 0x40, 0x03]
    = some [0x034000003F800000] := by decide

/-! ## Small states and the test parameters of 95_test_vectors.md section 0 -/

/-- Every NaN result is the quiet NaN. -/
def quietNaN : NanSource := fun _ _ _ _ => 0x7FC00000

theorem quietNaN_ok : NanSource.Ok quietNaN := fun _ _ _ _ => rfl

/-- The draws 0.25, −0.125, 0.375, 0.5. -/
def testDraws : Nat → Word
  | 0 => 0x3E800000
  | 1 => 0xBE000000
  | 2 => 0x3EC00000
  | 3 => 0x3F000000
  | _ => 0x00000000

/-- TROM_R, PITCH_T, AMP_T, L = 8, D = 4. -/
def testParams : Params where
  L := 8
  D := 4
  step := fun r k => if k = 0 then r else 0
  slope := fun r k => if k = 1 then r else 0
  pitch := fun x => F32.add quietNaN F32.one x
  amp := fun x => F32.add quietNaN F32.one x
  noise := testDraws
  nan := fun _ => quietNaN

/-- The state of an outcome, or the state before it. -/
def outcomeState (s : State) : Host.Outcome State Fault Refusal → State
  | .next t => t
  | .fault _ => s
  | .refused _ => s

/-- The state after one command. -/
def after (i : Instr) (s : State) : State := outcomeState s (exec i s)

/-- A burst of `n` samples is open. -/
def openState (n : Fin 65) : State := { State.reset with inBurst := true, burstN := n }

/-- The configuration of T20 to T24 and T32 to T36: MODE 1.0, WAVE, W_BASE, MP1 0.5, LEVEL_A 1.0, LEVEL_B 0.5, SYNC. -/
def testCfg (wave wBase sync : Word) : Vector Word 16 :=
  #v[0x3F800000, wave, wBase, 0, 0, 0, 0, 0x3F000000, 0, 0, 0, 0, 0, 0x3F800000, 0x3F000000, sync]

/-- A core after reset with a configuration, in an open burst. -/
def renderState (cfg : Vector Word 16) (n : Fin 65) (sync : Mem) : State :=
  { openState n with cores := State.reset.cores.set 0 { Core.reset with cfg := cfg }, syncBuf := sync }

/-- The state after RENDER c0 under the test parameters. -/
def rendered (s : State) : State := outcomeState s (renderWith testParams 0 s)

/-! ## The commands -/

/-- R400. -/
theorem test_nop : exec .nop State.reset = .next { State.reset with pc := 1 } := by rfl

/-- T13: RESET clears STATUS; R402: it closes a burst. -/
theorem test_reset : (after .reset { openState 4 with status := 0x1D, resp := 5 }).status = 0
    ∧ (after .reset (openState 4)).inBurst = false := by decide

/-- T12: the configuration is kept. -/
theorem test_creset : oscRead (after (.creset 0) { State.reset with
      cores := State.reset.cores.set 0 { cfg := testCfg 0 0 0, osc := ⟨0x3E800000, false, 7, 1, 0⟩ } }) 0 = Osc.reset
    ∧ cfgRead (after (.creset 0) (renderState (testCfg 0 0 0) 4 [])) 0 0x0D = 0x3F800000 := by decide

/-- T11: a NaN pattern is stored as it is, in its own core only. -/
theorem test_wrcfg : cfgRead (after (.wrcfg 1 2 0x7FC00001) State.reset) 1 2 = 0x7FC00001
    ∧ cfgRead (after (.wrcfg 1 2 0x7FC00001) State.reset) 0 2 = 0 := by decide
/-- T6. -/
theorem test_wrcfg_bad_sel : (after (.wrcfg 0 0x10 0x3F800000) State.reset).status = 0x04 := by decide

/-- T10. -/
theorem test_rdreg : (after (.rdreg 0 0x24) State.reset).resp = 0x424C0104
    ∧ (after (.rdreg 2 0x13) State.reset).resp = 0xFFFFFFFF ∧ (after (.rdreg 3 0x11) State.reset).resp = 1 := by decide
/-- T7, T14. -/
theorem test_rdreg_bad_sel : (after (.rdreg 0 0x15) State.reset).status = 0x04
    ∧ (after (.rdreg 0 0x23) { State.reset with status := 0x06 }).resp = 0x06 := by decide

/-- T15. -/
theorem test_modinit : modSlot (after (.modinit 3 0x3F000000) State.reset) 3 = ⟨0x3F000000, 0x3F000000, 0⟩ := by decide
/-- T17, T18. -/
theorem test_modinit_refused : (after (.modinit 0 0x40000000) State.reset).status = 0x04
    ∧ (after (.modinit 3 0x3F800000) { State.reset with offset := 4 }).status = 0x10 := by decide

/-- T15, T16: delta (1.0 − 0.5)/64, and the rounded difference. -/
theorem test_modtick : tickedSlot quietNaN ⟨0, 0x3F000000, 0⟩ 0x3F800000 = ⟨0x3F000000, 0x3F800000, 0x3C000000⟩
    ∧ tickedSlot quietNaN ⟨0, 0x3DCCCCCD, 0⟩ 0x3F800000 = ⟨0x3DCCCCCD, 0x3F800000, 0x3C666666⟩ := by decide +kernel
/-- T9a: BAD_SEL comes before SEQUENCE. -/
theorem test_modtick_refused : (after (.modtick 21 0x3F800000) (openState 4)).status = 0x04 := by decide

/-- T17, T19. -/
theorem test_rdmod : (after (.rdmod 0 0) State.reset).resp = 0x3F800000
    ∧ (after (.rdmod 3 3) State.reset).status = 0x04 := by decide

/-- T44: after a burst of 8, BEGIN 56 fits and BEGIN 60 does not. -/
theorem test_begin : (after (.beginBurst 56) { State.reset with offset := 8 }).burstN = 56
    ∧ (after (.beginBurst 60) { State.reset with offset := 8 }).status = 0x08 := by decide
/-- T9b: SEQUENCE comes before BAD_COUNT. -/
theorem test_begin_refused : (after (.beginBurst 65) (openState 4)).status = 0x10 := by decide

/-- T46, on four of its words: the bus moves down by 6 and SYNC_BUF stays. -/
theorem test_end : endWith testParams { openState 6 with
      busA := [(2, 0x3EAAAAAB), (6, 0x3EC00000), (8, 0xBEC00000), (9, 0x3E800000)]
      syncBuf := [(2, 0x3EAAAAAB)] }
    = .next { State.reset with
        pc := 1
        offset := 6
        syncBuf := [(2, 0x3EAAAAAB)]
        busA := [(0, 0x3EC00000), (2, 0xBEC00000), (3, 0x3E800000)] } := by rfl
/-- T9. -/
theorem test_end_refused : (after .endBurst State.reset).status = 0x10 := by decide

/-- T42, T45. -/
theorem test_tick : (after .tick { State.reset with offset := 64 }).offset = 0
    ∧ (after .tick { State.reset with offset := 32 }).status = 0x10 := by decide

/-- T21: the rectangle's bus words, with THRESH and WRAP events at and between samples. -/
theorem test_render_rect : (rendered (renderState (testCfg 0x3F800000 0x3EC00000 0) 6 [])).busA
    = [(1, 0xBF2AAAAB), (2, 0x3EAAAAAB), (4, 0x3F000000), (5, 0x3E2AAAAC), (6, 0x3F000000), (7, 0xBF000000),
       (8, 0xBF000000), (9, 0x3F000000)] := by decide +kernel

/-- T36: the clipped saw as a slave, synced in sample 2 at f = 1/3. -/
theorem test_render_synced : (rendered (renderState (testCfg 0x40800000 0x3E800000 0x3F800000) 4 [(2, 0x3EAAAAAB)])).busA
    = [(2, 0xBEAAAAAB), (3, 0x3E2AAAAB), (5, 0x3F000000), (6, 0xBEAAAAAA), (7, 0x3E2AAAAC)] := by decide +kernel

/-- T25: ties to even, negative, non-finite and out-of-range modes. -/
theorem test_decode_mode : [0x3FB33333, 0x3FC00000, 0x40200000, 0x3F000000, 0x4137D70A, 0x41400000, 0xBF800000,
      0x7FC00000, 0x7F800000].map (fun x => (decodeMode x).number) = [1, 2, 2, 0, 11, 0, 0, 0, 0] := by decide +kernel
/-- T26, T27. -/
theorem test_decode_wave_and_role : [0x40E00000, 0xC0400000, 0x40200000, 0x40600000, 0x7FC00000].map
      (fun x => (decodeWave x).number) = [4, 0, 2, 4, 0]
    ∧ decodeSync 0x3F000000 = .master ∧ decodeSync 0x3F028F5C = .slave := by decide +kernel

/-- R308, R310, R309. -/
theorem test_assembler : (Asm.assembleLine "WRCFG  c1, MODE, 1.0 ; R310").map (·.map encode) = some [0x034000003F800000]
    ∧ Asm.assembleLine "WRCFG c1, MODE, 0.1" = none
    ∧ Asm.assembleLine "BURST 4" = some [.beginBurst 4, .render 0, .render 1, .render 2, .render 3, .endBurst] := by
  decide +kernel

/-- R900: from reset, with nothing sent, the unit is idle. -/
theorem test_reset_is_idle : Sys2Proof.core.run 3 State.reset = .next State.reset := by rfl

/-! ## The hypotheses of the statements are met -/

theorem met_DecodeOfEncode : (Instr.rdmod 63 65535).wf = true ∧ (Instr.wrcfg 3 63 0xFFFFFFFF).wf = true
    ∧ (Instr.beginBurst 65535).wf = true := by decide

theorem met_EncodeOfDecode : decode 0x033F0000FFFFFFFF = .instr (.wrcfg 0 63 0xFFFFFFFF) := by decide

theorem met_DecodeErrorsInOrder : 0x0B < opField 0x0C00000000000000 ∧ opField 0x0B00000000000001 ≤ 0x0B
    ∧ (∀ row ∈ opcodeTable, row.selects 0x0B00000000000001 = false)
    ∧ ∃ row ∈ opcodeTable, row.selects 0x0B00000000000000 = true := by decide

theorem met_SerializedCommandsArrive : ([0, 0, 0, 0, 0, 0, 0] : List Byte).length % 8 ≠ 0
    ∧ ([0, 0, 0, 0, 0, 0, 0, 0, 0] : List Byte).length % 8 ≠ 0 := by decide

theorem met_StepRunsDecodedCommand : (State.reset.withFetchWord 64 0x0800004000000000).pending = [0x0800004000000000]
    ∧ decode 0x0800004000000000 = .instr (.beginBurst 64) := by decide

theorem met_IdleUnitHoldsState : State.reset.pending = [] := by rfl

theorem met_IllegalOpcodeOnlySetsStatus : (State.reset.withFetchWord 64 0x0C00000000000000).pending
      = [0x0C00000000000000] ∧ 0x0B < opField 0x0C00000000000000 ∧ 0x0B < opField 0xFFFFFFFFFFFFFFFF := by decide

theorem met_ReservedFieldOnlySetsStatus : (State.reset.withFetchWord 64 1).pending = [1] ∧ opField 1 ≤ 0x0B
    ∧ (∀ row ∈ opcodeTable, row.selects 1 = false) := by decide

/-- Each of the five errors is raised somewhere, bit 4 also where it is set already; and NOP and RESET raise none. -/
theorem met_ErrorsArePrecise : (State.reset.withFetchWord 64 0).pending = [0]
    ∧ refusedBit State.reset (decode 0x0C00000000000000) = some 0
    ∧ refusedBit State.reset (decode 0x0000000000000001) = some 1
    ∧ refusedBit (openState 4) (decode 0x0600000000000000) = some 2
    ∧ refusedBit State.reset (decode 0x0800004100000000) = some 3
    ∧ refusedBit { State.reset with status := 0x10 } (decode 0x0900000000000000) = some 4
    ∧ refusedBit (openState 4) (decode 0x0800004100000000) = some 4
    ∧ refusedBit State.reset (decode 0) = none ∧ decode 0 ≠ .instr .reset
    ∧ refusedBit State.reset (decode 0x0100000000000000) = none
    ∧ decode 0x0100000000000000 = .instr .reset := by decide

theorem met_ZeroWordIsNop : (State.reset.withFetchWord 64 0).pending = [0] := by decide

theorem met_ConfigChangedByWrcfgAndResetOnly :
    (∃ t, exec (.wrcfg 0 (0x0F : Fin 16).val 7) State.reset = .next t) ∧ (∃ t, exec .reset State.reset = .next t)
    ∧ (∃ t, exec .nop State.reset = .next t) ∧ (∀ c r data, Instr.nop ≠ .wrcfg c r data) ∧ Instr.nop ≠ .reset :=
  ⟨⟨_, rfl⟩, ⟨_, rfl⟩, ⟨_, rfl⟩, fun _ _ _ h => (nomatch h), by decide⟩

theorem met_CresetResetsOneCore : (1 : Fin 4) ≠ 0 := by decide

theorem met_WrcfgStoresTheWord : ((0 : Fin 4), (0x0E : Fin 16)) ≠ (0, 0x0F) := by decide

/-- The ends of each range of R804. -/
theorem met_BadSelCommandByCommand : 0x10 ≤ 0x10 ∧ (0x15 ≤ 0x15 ∧ 0x15 ≤ 0x1F) ∧ (0x15 ≤ 0x1F ∧ 0x1F ≤ 0x1F)
    ∧ (0x25 ≤ 0x25 ∧ 0x25 ≤ 0x3F) ∧ (0x25 ≤ 0x3F ∧ 0x3F ≤ 0x3F) ∧ 20 < 21 ∧ 2 < 3
    ∧ regRead State.reset 0 0x14 ≠ none ∧ regRead State.reset 0 0x20 ≠ none ∧ regRead State.reset 0 0x24 ≠ none := by
  decide

theorem met_RespChangedByReadsOnly : (∃ t, exec .tick State.reset = .next t) ∧ (∀ c sel, Instr.tick ≠ .rdreg c sel)
    ∧ (∀ sel aux, Instr.tick ≠ .rdmod sel aux) ∧ Instr.tick ≠ .reset :=
  ⟨⟨_, rfl⟩, fun _ _ h => (nomatch h), fun _ _ h => (nomatch h), by decide⟩

theorem met_ModinitSetsTheSlot : (20 : Fin 21) ≠ 0 ∧ (1 : Fin 21) ≠ 0 ∧ State.reset.inBurst = false
    ∧ State.reset.offset = 0 := by decide

theorem met_ModtickMovesTheSlot : (20 : Fin 21) ≠ 0 ∧ (1 : Fin 21) ≠ 0 ∧ State.reset.inBurst = false
    ∧ State.reset.offset = 0 ∧ (1 : Fin 21) ≠ 20 := by decide

theorem met_SlotZeroIsConstant : modSlot State.reset 0 = ⟨0x3F800000, 0x3F800000, 0⟩
    ∧ (∃ t, exec .reset State.reset = .next t) ∧ 64 ≤ 64 := ⟨by decide, ⟨_, rfl⟩, by decide⟩

theorem met_SlotsFixedInOpenBurst : (openState 4).inBurst = true
    ∧ (∃ t, exec (.modtick 3 0) (openState 4) = .next t) ∧ Instr.modtick 3 0 ≠ .reset :=
  ⟨rfl, ⟨_, rfl⟩, by decide⟩

/-- T16, whose difference is not exact; an exact difference, of 0.5; and one of 33 units of 2^-149, whose division by 64
underflows. -/
theorem met_RampReachesNext : NanSource.Ok quietNaN
    ∧ F32.Finite (tickedSlot quietNaN ⟨0, 0x3DCCCCCD, 0⟩ 0x3F800000).delta
    ∧ F32.isZero 0x3DCCCCCD = false ∧ F32.Finite (F32.sub quietNaN 0x3F800000 0x3DCCCCCD)
    ∧ F32.Finite (F32.sub quietNaN 0x00000022 0x00000001)
    ∧ ¬ (64 : Int) ∣ F32.toInt (F32.sub quietNaN 0x00000022 0x00000001)
    ∧ F32.toInt (F32.sub quietNaN 0x3F800000 0x3F000000) = F32.toInt 0x3F800000 - F32.toInt 0x3F000000
    ∧ F32.Finite (F32.sub quietNaN 0x3F800000 0x3F000000)
    ∧ (64 : Int) ∣ F32.toInt (F32.sub quietNaN 0x3F800000 0x3F000000) := ⟨quietNaN_ok, by decide +kernel⟩

theorem met_BeginOpensTheBurst : State.reset.inBurst = false ∧ 1 ≤ 64 ∧ State.reset.offset.toNat + 64 ≤ 64
    ∧ 1 ≤ 1 ∧ ({ State.reset with offset := 63 } : State).offset.toNat + 1 ≤ 64 := by decide

theorem met_ZeroBurstRefused : State.reset.inBurst = false
    ∧ ((openState 1).inBurst = true → 1 ≤ (openState 1).burstN.val)
    ∧ (∃ t, exec .nop (openState 1) = .next t) ∧ (openState 1).inBurst = true :=
  ⟨rfl, fun _ => by decide, ⟨_, rfl⟩, rfl⟩

/-- The three grounds of BAD_COUNT, each alone: 0, 65 at offset 0, and 1 at offset 64. -/
theorem met_BeginRefusals : (openState 4).inBurst = true ∧ State.reset.inBurst = false ∧ 64 < 65
    ∧ 64 < ({ State.reset with offset := 64 } : State).offset.toNat + 1 := by decide

theorem met_EndShiftsTheBuses : (openState 6).inBurst = true
    ∧ (openState 6).burstN.val < Config.params.busLen
    ∧ ∃ j, j < Config.params.busLen ∧ Config.params.busLen ≤ j + (openState 6).burstN.val := by
  have hL : Config.params.busLen = 64 + Config.params.L := rfl
  have hn : (openState 6).burstN.val = 6 := rfl
  exact ⟨rfl, by omega, 63 + Config.params.L, by omega, by omega⟩

theorem met_TickReturnsOffsetToZero : ({ State.reset with offset := 64 } : State).inBurst = false
    ∧ ({ State.reset with offset := 64 } : State).offset = 64 := by decide

theorem met_SequenceErrors : (1 : Fin 21) ≠ 0 ∧ (openState 4).inBurst = true
    ∧ ({ State.reset with offset := 4 } : State).offset ≠ 0 ∧ State.reset.inBurst = false
    ∧ ({ State.reset with offset := 63 } : State).offset ≠ 64 := by decide

/-- A tie: 2^24 + 1 units round to an even magnitude below the infinity's; and the overflow threshold itself. -/
theorem met_RoundingIsNearestEven : 0 < 1 ∧ F32.roundMag (2 ^ 24 + 1) 1 < F32.infMag
    ∧ F32.roundMag ((2 ^ 25 - 1) * 2 ^ 252) 1 = F32.infMag
    ∧ F32.roundMag ((2 ^ 25 - 1) * 2 ^ 252 - 1) 1 < F32.infMag := by decide +kernel

/-- Results within the finite range, the largest finite value doubled, which is beyond it, sums that are zero, and NaNs,
infinities and zeros. -/
theorem met_OperatorsRoundToNearest : F32.Finite 0x7F7FFFFF ∧ F32.Finite 0xFF7FFFFF ∧ F32.isZero 0x7F7FFFFF = false
    ∧ (F32.toInt 0x7F7FFFFF + F32.toInt 0x00000000).natAbs < (2 ^ 25 - 1) * 2 ^ 252 * 1
    ∧ (2 ^ 25 - 1) * 2 ^ 252 * 1 ≤ (F32.toInt 0x7F7FFFFF + F32.toInt 0x7F7FFFFF).natAbs
    ∧ F32.toInt 0x7F7FFFFF + F32.toInt 0xFF7FFFFF = 0 ∧ F32.toInt 0x80000000 - F32.toInt 0x00000000 = 0
    ∧ F32.isNaN 0x7F800001 = true ∧ F32.isInf 0x7F800000 = true ∧ F32.isInf 0xFF800000 = true
    ∧ F32.sign 0x7F800000 ≠ F32.sign 0xFF800000 ∧ F32.Finite 0x00000001 ∧ F32.isZero 0x00000001 = false
    ∧ F32.Finite 0x80000000 ∧ F32.isZero 0x80000000 = true ∧ NanSource.Ok quietNaN := by
  refine ⟨by decide, by decide, by decide, by decide +kernel, by decide +kernel, by decide +kernel, by decide +kernel,
    by decide, by decide, by decide, by decide, by decide, by decide, by decide, by decide, quietNaN_ok⟩

theorem met_ComparisonsFollowValues : F32.isNaN 0x7F800000 = false ∧ F32.isNaN 0xFF800000 = false
    ∧ F32.isNaN 0x7F7FFFFF = false ∧ F32.isNaN 0x7F800001 = true
    ∧ F32.gt 0x3F800000 0x3F000000 = true ∧ F32.gt 0x3F000000 0x3F000000 = false
    ∧ F32.ge 0x3F000000 0x3F000000 = true ∧ F32.ge 0x00000000 0x3F000000 = false := by decide

/-- Finite, the tie 2.5, NaN and infinity. -/
theorem met_RneIsNearestEven : F32.Finite 0x40200000 ∧ F32.rne 0x40200000 = some 2 ∧ ¬ F32.Finite 0x7FC00000
    ∧ ¬ F32.Finite 0xFF800000 := by decide +kernel

/-- The values at the ends of the ranges: −1, 0, 1, 4, 5, 11, 12, 20, 21, and BAD. -/
theorem met_SelectorsDecode : [0xBF800000, 0x00000000, 0x3F800000, 0x40800000, 0x40A00000, 0x41300000, 0x41400000,
      0x41A00000, 0x41A80000, 0x7F800000].map F32.rne
    = [some (-1), some 0, some 1, some 4, some 5, some 11, some 12, some 20, some 21, none] := by decide +kernel

/-- Slot ONE is finite at every offset; the reset configuration has no modulation; the last sample of a full period. -/
theorem met_UnmodulatedRamps : 1 ≤ 64 ∧ 64 ≤ 64 ∧ 63 < 64
    ∧ F32.isZero (Vector.replicate 16 (0 : Word))[CfgSel.PM_AMT] = true
    ∧ F32.isZero (Vector.replicate 16 (0 : Word))[CfgSel.AM_AMT] = true
    ∧ F32.Finite (Vector.replicate 16 (0 : Word))[CfgSel.W_BASE]
    ∧ F32.isNaN (Vector.replicate 16 (0 : Word))[CfgSel.LEVEL_A] = false
    ∧ F32.isNaN (Vector.replicate 16 (0 : Word))[CfgSel.LEVEL_B] = false
    ∧ ∀ κ, F32.Finite (modRead κ State.reset.mods[srcIdx 0] 0)
        ∧ F32.Finite (modRead κ State.reset.mods[srcIdx 0] (0 + 64)) := by
  have hm : State.reset.mods[srcIdx 0] = ModSlot.constantOne := by decide +kernel
  have h : ∀ κ k, F32.isNaN (F32.ofNat k) = false → F32.isInf (F32.ofNat k) = false →
      F32.sign (F32.ofNat k) = false → modRead κ State.reset.mods[srcIdx 0] k = 0x3F800000 := fun κ k h1 h2 h3 => by
    rw [hm]
    exact (congrArg (F32.add κ F32.one) (F32.mul_posZero κ h1 h2 h3)).trans (F32.add_one_posZero κ)
  have h0 := fun κ => h κ 0 (by decide +kernel) (by decide +kernel) (by decide +kernel)
  have h1 := fun κ => h κ (0 + 64) (by decide +kernel) (by decide +kernel) (by decide +kernel)
  refine ⟨by decide, by decide, by decide, by decide, by decide, by decide, by decide, by decide, fun κ => ?_⟩
  rw [h0, h1]
  decide

/-- A sample at the end of the longest burst, with increment 0.25 and threshold 0.5. -/
def testSample (s : Nat) : Sample := { s := s, w := 0x3E800000, th := 0x3F000000, gA := 0x3F800000, gB := 0x3F000000 }

/-- The voice of a core after reset. -/
def testVoice : Voice := voiceOf State.reset 0

theorem met_PlacementAddsTheTaps : NanSource.Ok quietNaN ∧ (testSample 63).s < 64
    ∧ Mem.wf busReset testParams.busLen testVoice.busA = true ∧ Mem.wf busReset testParams.busLen testVoice.busB = true
    ∧ 7 < testParams.L := ⟨quietNaN_ok, by decide, rfl, rfl, by decide⟩

theorem met_WrapFindsSectionZero : NanSource.Ok quietNaN
    ∧ (testSample 0).th = clampThreshold quietNaN 0x3F000000 (clampIncrement 0x3E800000) ∧ Wave.rect ≠ .saw
    ∧ F32.ge 0x3F800000 0x3F800000 = true := ⟨quietNaN_ok, by decide +kernel⟩

theorem met_NaiveExamples : NanSource.Ok quietNaN ∧ testVoice.osc.pos = 0x00000000 ∧ testVoice.osc.sect = true
    ∧ testVoice.osc.nval = 0x00000000 := ⟨quietNaN_ok, rfl, rfl, rfl⟩

theorem met_NaiveFormulas : NanSource.Ok quietNaN := quietNaN_ok

theorem met_ThreshAndWrapPlace : NanSource.Ok quietNaN := quietNaN_ok

/-- A phase of 0.5 reaches the threshold and one of 0.25 does not; a phase of 1.0 wraps and one of 0.5 does not. -/
theorem met_AdvanceRaisesItsEvents : NanSource.Ok quietNaN ∧ testVoice.osc.sect = true
    ∧ F32.ge 0x3F000000 (testSample 0).th = true ∧ F32.ge 0x3E800000 (testSample 0).th = false
    ∧ F32.ge 0x3F800000 0x3F800000 = true ∧ F32.ge 0x3F000000 0x3F800000 = false := ⟨quietNaN_ok, by decide⟩

theorem met_SyncPlaces : NanSource.Ok quietNaN ∧ (testSample 0).w = clampIncrement 0x3E800000
    ∧ (testSample 0).th = clampThreshold quietNaN 0x3F000000 (testSample 0).w
    ∧ testVoice.osc.sect = true ∧ (setSect false testVoice).osc.sect = false := ⟨quietNaN_ok, by decide +kernel⟩

theorem met_FreeStepMovesAndExports : NanSource.Ok quietNaN ∧ Mem.wf syncReset 64 testVoice.syncBuf = true :=
  ⟨quietNaN_ok, rfl⟩

/-- A wrap fraction of +0.0, and one of 1.0. -/
theorem met_SyncSetsThePhase : NanSource.Ok quietNaN ∧ (testSample 0).w = clampIncrement 0x3E800000
    ∧ F32.ge (Mem.read syncReset ({ testVoice with syncBuf := [(0, 0)] } : Voice).syncBuf (testSample 0).s) 0 = true
    ∧ F32.ge (Mem.read syncReset ({ testVoice with syncBuf := [(0, 0x3F800000)] } : Voice).syncBuf (testSample 0).s) 0
      = true := ⟨quietNaN_ok, by decide +kernel, by decide, by decide⟩

theorem met_PhasePeriod : 1 ≤ 24 ∧ 24 ≤ 24 ∧ (testSample 0).w = F32.pack false ((127 - 2) * 2 ^ 23)
    ∧ testVoice.osc.pos = 0x00000000 ∧ 0 < 2 ^ 2 - 1 ∧ 2 ^ 2 - 1 < 2 ^ 2 := by decide

theorem met_RenderChangesOnlyItsVoice : (renderState (testCfg 0 0x3E800000 0) 64 []).inBurst = true
    ∧ decodeMode (cfgRead (renderState (testCfg 0 0x3E800000 0) 64 []) 0 CfgSel.MODE) = .minBlep := by decide +kernel

theorem met_OtherModesRenderNothing : (openState 64).inBurst = true
    ∧ decodeMode (cfgRead (openState 64) 0 CfgSel.MODE) ≠ .minBlep := by decide +kernel

/-- A state in which core 0 goes on with a sawtooth. -/
def sawState : State :=
  { openState 1 with
    cores := State.reset.cores.set 0 (Core.mk (testCfg 0 0x3E800000 0) { Osc.reset with lastMode := 1, lastWave := 0 }) }

/-- At increment 0.25 the phase of `sawState` does not wrap from 0 and does from 0.75. -/
theorem met_RenderOneSawSample : sawState.inBurst = true ∧ sawState.burstN = 1 ∧ sawState.MemOk
    ∧ decodeMode (cfgRead sawState 0 CfgSel.MODE) = .minBlep ∧ decodeWave (cfgRead sawState 0 CfgSel.WAVE) = .saw
    ∧ decodeSync (cfgRead sawState 0 CfgSel.SYNC) = .master
    ∧ (oscRead sawState 0).lastMode = 1 ∧ (oscRead sawState 0).lastWave = 0
    ∧ (let e := sampleOf quietNaN (testCfg 0 0x3E800000 0)
          (rampsOf Config.params quietNaN (testCfg 0 0x3E800000 0) State.reset.mods 0 1) 0;
        F32.ge (F32.add quietNaN 0x00000000 e.w) 0x3F800000 = false
        ∧ F32.ge (F32.add quietNaN 0x3F400000 e.w) 0x3F800000 = true) :=
  ⟨rfl, rfl, ⟨rfl, rfl, rfl⟩, by decide +kernel, by decide +kernel, by decide +kernel, by decide, by decide,
    by decide +kernel⟩

theorem met_RenderRunsItsSamples : NanSource.Ok quietNaN ∧ sawState.inBurst = true
    ∧ decodeMode (cfgRead sawState 0 CfgSel.MODE) = .minBlep := ⟨quietNaN_ok, by decide +kernel⟩

/-- The command BEGIN 4 is pending. -/
def aboutToBegin : State := State.reset.withFetchWord 64 0x0800000400000000

theorem aboutToBegin_steps : ∃ t, step aboutToBegin = .next t := ⟨_, rfl⟩

theorem met_StepKeepsMemoryForm : aboutToBegin.MemOk ∧ ∃ t, step aboutToBegin = .next t :=
  ⟨⟨rfl, rfl, rfl⟩, aboutToBegin_steps⟩

theorem met_StepKeepsUnitRegisters : aboutToBegin.UnitOk ∧ ∃ t, step aboutToBegin = .next t :=
  ⟨⟨by decide, by decide, by decide, by decide⟩, aboutToBegin_steps⟩

theorem met_StepKeepsSyncBuffer : aboutToBegin.MemOk ∧ aboutToBegin.SyncOk ∧ ∃ t, step aboutToBegin = .next t :=
  ⟨⟨rfl, rfl, rfl⟩, ⟨fun _ => rfl, fun _ _ _ => rfl⟩, aboutToBegin_steps⟩

theorem met_StepKeepsCoreRegisters : aboutToBegin.OscOk ∧ ∃ t, step aboutToBegin = .next t :=
  ⟨⟨by decide, by decide, by decide⟩, aboutToBegin_steps⟩

theorem met_HostReadsAreBounded : 63 + Config.params.L < 64 + Config.params.L
    ∧ 64 + Config.params.L ≤ 64 + Config.params.L ∧ 63 < 64 ∧ 64 ≤ 64 := by omega

end Sys2Proof.Tests
end

section
/-! PROOFS. The magnitudes of binary32 as integers, and what rounding to them gives (spec/00_scope.md R15). -/

namespace Sys2Proof.F32

/-! ## The integer that magnitude bits stand for -/

/-- The value of the magnitude bits `m` in units of 2^-149; past the infinity's it goes on as for finite ones. -/
def magUnits (m : Nat) : Nat :=
  if m / 2 ^ 23 = 0 then m else (2 ^ 23 + m % 2 ^ 23) * 2 ^ (m / 2 ^ 23 - 1)

theorem units_eq_magUnits (x : Word) : units x = magUnits (mag x) := rfl

@[simp] theorem magUnits_zero : magUnits 0 = 0 := rfl

/-- A significand `s` of at most 24 bits, a full one where the exponent is not the least, read back (also `s = 2^24`,
which carries into the exponent). -/
theorem magUnits_significand {e s : Nat} (hs : s ≤ 2 ^ 24) (hn : e = 0 ∨ 2 ^ 23 ≤ s) :
    magUnits (e * 2 ^ 23 + s) = s * 2 ^ e := by
  unfold magUnits
  rcases Nat.lt_or_ge s (2 ^ 23) with h | h
  · obtain rfl : e = 0 := by omega
    rw [if_pos (by omega)]
    omega
  rcases Nat.lt_or_ge s (2 ^ 24) with h' | h'
  · have hq : (e * 2 ^ 23 + s) / 2 ^ 23 = e + 1 := by omega
    have hr : 2 ^ 23 + (e * 2 ^ 23 + s) % 2 ^ 23 = s := by omega
    rw [hq, hr, if_neg (by omega), Nat.add_sub_cancel]
  · have hq : (e * 2 ^ 23 + s) / 2 ^ 23 = e + 1 + 1 := by omega
    have hr : 2 ^ 23 + (e * 2 ^ 23 + s) % 2 ^ 23 = 2 ^ 23 := by omega
    obtain rfl : s = 2 ^ 23 * 2 := by omega
    rw [hq, hr, if_neg (by omega), Nat.add_sub_cancel, Nat.pow_succ']
    ring

/-- Every magnitude is a significand at an exponent. -/
theorem exists_significand (m : Nat) : ∃ e s, m = e * 2 ^ 23 + s ∧ s < 2 ^ 24 ∧ (e = 0 ∨ 2 ^ 23 ≤ s) := by
  rcases Nat.lt_or_ge m (2 ^ 23) with h | h
  · exact ⟨0, m, by omega, by omega, .inl rfl⟩
  · exact ⟨m / 2 ^ 23 - 1, 2 ^ 23 + m % 2 ^ 23, by omega, by omega, .inr (by omega)⟩

theorem magUnits_strictMono : StrictMono magUnits := by
  refine strictMono_nat_of_lt_succ fun m => ?_
  obtain ⟨e, s, rfl, hs, hn⟩ := exists_significand m
  rw [Nat.add_assoc, magUnits_significand hs.le hn, magUnits_significand (s := s + 1) (by omega) (by omega)]
  exact Nat.mul_lt_mul_of_pos_right (Nat.lt_succ_self s) (Nat.two_pow_pos e)

theorem magUnits_mul_le {m k : Nat} (h : m ≤ k) (den : Nat) : magUnits m * den ≤ magUnits k * den :=
  Nat.mul_le_mul_right den (magUnits_strictMono.monotone h)

theorem magUnits_mul_lt {m k den : Nat} (h : m < k) (hd : 0 < den) : magUnits m * den < magUnits k * den :=
  Nat.mul_lt_mul_of_pos_right (magUnits_strictMono h) hd

/-- A number of at most 24 significant bits is a magnitude. -/
theorem exists_magUnits_eq (e : Nat) : ∀ s < 2 ^ 24, ∃ m, magUnits m = s * 2 ^ e := by
  induction e with
  | zero => exact fun s hs => ⟨0 * 2 ^ 23 + s, magUnits_significand hs.le (.inl rfl)⟩
  | succ e ih =>
    intro s hs
    rcases Nat.lt_or_ge s (2 ^ 23) with h | h
    · obtain ⟨m, hm⟩ := ih (s * 2) (by omega)
      exact ⟨m, by rw [hm, Nat.pow_succ']; ring⟩
    · exact ⟨(e + 1) * 2 ^ 23 + s, magUnits_significand hs.le (.inr h)⟩

/-! ## Rounding to an integer -/

/-- `nearestEven num den` is within half of `num / den`, and even where it is half away from it. -/
theorem nearestEven_spec (num : Nat) {den : Nat} (hd : 0 < den) :
    2 * (nearestEven num den * den - num : Int).natAbs ≤ den
    ∧ (2 * (nearestEven num den * den - num : Int).natAbs = den → nearestEven num den % 2 = 0) := by
  have hdm := Nat.div_add_mod' num den
  have hr := Nat.mod_lt num hd
  unfold nearestEven
  generalize num / den = q at *
  have hsucc : ((q + 1 : Nat) * den : Int) = q * den + den := by push_cast; ring
  split
  · rw [hsucc]
    omega
  · omega

/-! ## Rounding to a magnitude (R15) -/

/-- Without its excess bits a number is a significand of 24 bits, a full one where any bit was taken off. -/
theorem significand_of_excessBits (q : Nat) :
    q / 2 ^ excessBits q < 2 ^ 24 ∧ (excessBits q = 0 ∨ 2 ^ 23 ≤ q / 2 ^ excessBits q) := by
  unfold excessBits
  split
  · next h => simpa using h
  · next h =>
    have hlog : 24 ≤ q.log2 := (Nat.le_log2 (by omega)).2 (by omega)
    have hlt : q < 2 ^ 24 * 2 ^ (q.log2 - 23) := by
      rw [← Nat.pow_add, show 24 + (q.log2 - 23) = q.log2 + 1 by omega]
      exact Nat.lt_log2_self
    have hle : 2 ^ 23 * 2 ^ (q.log2 - 23) ≤ q := by
      rw [← Nat.pow_add, show 23 + (q.log2 - 23) = q.log2 by omega]
      exact Nat.log2_self_le (by omega)
    exact ⟨Nat.div_lt_of_lt_mul (by rwa [Nat.mul_comm]), .inr ((Nat.le_div_iff_mul_le (Nat.two_pow_pos _)).2 hle)⟩

/-- A quotient lies between two neighbouring magnitudes, and is rounded to the upper one where it is past their middle
or on it with the lower one odd. -/
theorem roundMag_bracket (num : Nat) {den : Nat} (hd : 0 < den) :
    ∃ m, magUnits m * den ≤ num ∧ num < magUnits (m + 1) * den ∧
      roundMag num den = min (if magUnits m * den + magUnits (m + 1) * den < 2 * num
        ∨ (magUnits m * den + magUnits (m + 1) * den = 2 * num ∧ m % 2 = 1) then m + 1 else m) infMag := by
  obtain ⟨hs, hn⟩ := significand_of_excessBits (num / den)
  unfold roundMag nearestEven
  generalize excessBits (num / den) = e at *
  rw [Nat.div_div_eq_div_mul] at hs hn
  have hD : 0 < den * 2 ^ e := Nat.mul_pos hd (Nat.two_pow_pos e)
  generalize hsig : num / (den * 2 ^ e) = s at *
  have hdm : s * (den * 2 ^ e) + num % (den * 2 ^ e) = num := hsig ▸ Nat.div_add_mod' num _
  have hr : num % (den * 2 ^ e) < den * 2 ^ e := Nat.mod_lt _ hD
  have hlow : magUnits (e * 2 ^ 23 + s) * den = s * (den * 2 ^ e) := by
    rw [magUnits_significand hs.le hn]; ring
  have hhigh : magUnits (e * 2 ^ 23 + s + 1) * den = s * (den * 2 ^ e) + den * 2 ^ e := by
    rw [Nat.add_assoc, magUnits_significand (s := s + 1) (by omega) (by omega)]; ring
  refine ⟨e * 2 ^ 23 + s, by omega, by omega, ?_⟩
  rw [hlow, hhigh]
  congr 1
  split <;> split <;> omega

theorem roundMag_le_infMag (num den : Nat) : roundMag num den ≤ infMag := Nat.min_le_right _ _

/-- No magnitude is nearer to the quotient than the rounded one, and another is as near only where that is even. -/
theorem roundMag_nearest (num : Nat) {den : Nat} (hd : 0 < den) (hfin : roundMag num den < infMag) (k : Nat) :
    (magUnits (roundMag num den) * den - num : Int).natAbs ≤ (magUnits k * den - num : Int).natAbs
    ∧ (k ≠ roundMag num den →
        (magUnits (roundMag num den) * den - num : Int).natAbs = (magUnits k * den - num : Int).natAbs →
        roundMag num den % 2 = 0) := by
  obtain ⟨m, hle, hlt, hround⟩ := roundMag_bracket num hd
  have hk : k = m ∨ k = m + 1 ∨ magUnits k * den < magUnits m * den ∨ magUnits (m + 1) * den < magUnits k * den := by
    rcases Nat.lt_trichotomy k m with h | h | h
    · exact .inr (.inr (.inl (magUnits_mul_lt h hd)))
    · exact .inl h
    · rcases Nat.lt_or_eq_of_le (Nat.succ_le_of_lt h) with h | h
      · exact .inr (.inr (.inr (magUnits_mul_lt h hd)))
      · exact .inr (.inl h.symm)
  split at hround
  · have hup : roundMag num den = m + 1 := by omega
    rw [hup]
    rcases hk with rfl | rfl | h | h <;> omega
  · have hdown : roundMag num den = m := by omega
    rw [hdown]
    rcases hk with rfl | rfl | h | h <;> omega

theorem magUnits_infMag : magUnits infMag = 2 ^ 25 * 2 ^ 252 := by decide +kernel

theorem magUnits_infMag_pred : magUnits (infMag - 1) = (2 ^ 25 - 2) * 2 ^ 252 := by decide +kernel

/-- Rounding overflows from halfway between the largest finite value and the next power of two on. -/
theorem roundMag_eq_infMag_iff (num : Nat) {den : Nat} (hd : 0 < den) :
    roundMag num den = infMag ↔ (2 ^ 25 - 1) * 2 ^ 252 * den ≤ num := by
  obtain ⟨m, hle, hlt, hround⟩ := roundMag_bracket num hd
  rw [hround]
  rcases Nat.lt_trichotomy (m + 1) infMag with h | h | h
  · have hpred := magUnits_mul_le (m := m + 1) (k := infMag - 1) (by omega) den
    rw [magUnits_infMag_pred] at hpred
    split <;> omega
  · have hodd : m % 2 = 1 := by rw [infMag] at h; omega
    obtain rfl : m = infMag - 1 := by omega
    rw [h, magUnits_infMag, magUnits_infMag_pred] at *
    split <;> omega
  · have hinf := magUnits_mul_le (m := infMag) (k := m) (by omega) den
    rw [magUnits_infMag] at hinf
    split <;> omega

end Sys2Proof.F32
end

section
/-! PROOFS. Patterns by their sign and magnitude bits, and the values they stand for (spec/00_scope.md R16, R17). -/

namespace Sys2Proof.F32

@[simp] theorem mag_pack (s : Bool) {m : Nat} (h : m < 2 ^ 31) : mag (pack s m) = m := by
  unfold mag pack
  cases s <;> simp <;> omega

@[simp] theorem sign_pack (s : Bool) {m : Nat} (h : m < 2 ^ 31) : sign (pack s m) = s := by
  unfold sign pack
  rw [BitVec.msb_eq_decide]
  cases s <;> simp <;> omega

theorem units_pack (s : Bool) {m : Nat} (h : m < 2 ^ 31) : units (pack s m) = magUnits m := by
  rw [units_eq_magUnits, mag_pack s h]

theorem sign_neg (x : Word) : sign (neg x) = !sign x := by
  have hmsb : (0x80000000 : Word).msb = true := rfl
  simp only [sign, neg, BitVec.msb_xor, hmsb, Bool.xor_true]

theorem units_neg (x : Word) : units (neg x) = units x := by
  rw [units_eq_magUnits, mag_neg, units_eq_magUnits]

theorem toInt_neg (x : Word) : toInt (neg x) = -toInt x := by
  unfold toInt
  rw [sign_neg, units_neg]
  cases sign x <;> simp

theorem natAbs_toInt (x : Word) : (toInt x).natAbs = units x := by
  unfold toInt
  split <;> omega

theorem isZero_eq_true_iff {x : Word} : isZero x = true ↔ units x = 0 := by
  rw [units_eq_magUnits, isZero, beq_iff_eq]
  exact magUnits_strictMono.injective.eq_iff.symm

theorem isNaN_eq_true_iff {x : Word} : isNaN x = true ↔ infMag < mag x := decide_eq_true_iff

theorem isInf_eq_true_iff {x : Word} : isInf x = true ↔ mag x = infMag := beq_iff_eq

/-- A pattern that is no NaN is finite or an infinity. -/
theorem finite_or_isInf {x : Word} (h : isNaN x = false) : Finite x ∨ isInf x = true := by
  rw [isInf_eq_true_iff]
  have h' : ¬ infMag < mag x := of_decide_eq_false h
  unfold Finite
  omega

/-! ## The order of R16 -/

theorem value_of_finite {x : Word} (h : Finite x) : value x = ((toInt x : WithTop Int) : WithBot (WithTop Int)) := by
  simp [value, (not_nan_inf_of_finite h).2]

theorem value_of_isInf {x : Word} (h : isInf x = true) :
    value x = if sign x then ⊥ else ((⊤ : WithTop Int) : WithBot (WithTop Int)) := by
  simp [value, h]

theorem order_of_isInf {x : Word} (h : isInf x = true) : order x = if sign x then -(infMag : Int) else infMag := by
  rw [order, isInf_eq_true_iff.1 h]

theorem order_of_finite_bounds {x : Word} (h : Finite x) : -(infMag : Int) < order x ∧ order x < infMag := by
  unfold order Finite at *
  split <;> omega

/-- The signed magnitude bits and the integers they stand for are in the same order. -/
theorem order_lt_order_iff_toInt (a b : Word) : order a < order b ↔ toInt a < toInt b := by
  have hab := magUnits_strictMono.lt_iff_lt (a := mag a) (b := mag b)
  have hba := magUnits_strictMono.lt_iff_lt (a := mag b) (b := mag a)
  have ha := magUnits_strictMono.lt_iff_lt (a := 0) (b := mag a)
  have hb := magUnits_strictMono.lt_iff_lt (a := 0) (b := mag b)
  rw [magUnits_zero] at ha hb
  unfold order toInt
  rw [units_eq_magUnits, units_eq_magUnits]
  cases sign a <;> cases sign b <;> simp only [if_true, if_false, Bool.false_eq_true] <;> omega

/-- The signed magnitude bits of two patterns that are no NaN order their values, infinities among them. -/
theorem order_lt_order_iff_value {a b : Word} (ha : isNaN a = false) (hb : isNaN b = false) :
    order a < order b ↔ value a < value b := by
  rcases finite_or_isInf ha with fa | ia <;> rcases finite_or_isInf hb with fb | ib
  · rw [value_of_finite fa, value_of_finite fb, order_lt_order_iff_toInt]
    simp
  · have h := order_of_finite_bounds fa
    rw [value_of_finite fa, value_of_isInf ib, order_of_isInf ib]
    cases sign b
    · exact iff_of_true h.2 (WithBot.coe_lt_coe.2 (WithTop.coe_lt_top _))
    · exact iff_of_false h.1.not_gt not_lt_bot
  · have h := order_of_finite_bounds fb
    rw [value_of_isInf ia, value_of_finite fb, order_of_isInf ia]
    cases sign a
    · exact iff_of_false h.2.not_gt fun hlt => not_top_lt (WithBot.coe_lt_coe.1 hlt)
    · exact iff_of_true h.1 (WithBot.bot_lt_coe _)
  · rw [value_of_isInf ia, value_of_isInf ib, order_of_isInf ia, order_of_isInf ib]
    cases sign a <;> cases sign b <;> simp [infMag]

theorem lt_iff_value {a b : Word} (ha : isNaN a = false) (hb : isNaN b = false) :
    lt a b = true ↔ value a < value b := by
  rw [lt_iff, order_lt_order_iff_value ha hb]
  simp [ha, hb]

theorem le_iff_value {a b : Word} (ha : isNaN a = false) (hb : isNaN b = false) :
    le a b = true ↔ value a ≤ value b := by
  rw [le_iff, ← not_lt, order_lt_order_iff_value hb ha, not_lt]
  simp [ha, hb]

theorem eq_iff_value {a b : Word} (ha : isNaN a = false) (hb : isNaN b = false) :
    eq a b = true ↔ value a = value b := by
  have h : order a = order b ↔ value a = value b := by
    rw [le_antisymm_iff, le_antisymm_iff, ← not_lt, ← not_lt, order_lt_order_iff_value ha hb,
      order_lt_order_iff_value hb ha, not_lt, not_lt]
  simp [eq, ha, hb, h]

theorem comparisons_of_nan {a b : Word} (h : isNaN a = true ∨ isNaN b = true) :
    lt a b = false ∧ le a b = false ∧ gt a b = false ∧ ge a b = false ∧ eq a b = false := by
  rcases h with h | h <;> simp [lt, le, gt, ge, eq, h]

/-! ## Rounding to an integer (R17) -/

/-- The sign does not matter to how far `rne` is from its argument, nor to its parity. -/
theorem rne_of_finite {x : Word} (h : Finite x) : ∃ k : Int, rne x = some k
    ∧ 2 * (k * 2 ^ 149 - toInt x).natAbs ≤ 2 ^ 149
    ∧ (2 * (k * 2 ^ 149 - toInt x).natAbs = 2 ^ 149 → k % 2 = 0) := by
  obtain ⟨hn, hi⟩ := not_nan_inf_of_finite h
  obtain ⟨hhalf, htie⟩ := nearestEven_spec (units x) (Nat.two_pow_pos 149)
  unfold rne toInt
  cases sign x
  · refine ⟨nearestEven (units x) (2 ^ 149), by simp [hn, hi], ?_⟩
    simp only [Bool.false_eq_true, if_false]
    omega
  · refine ⟨-nearestEven (units x) (2 ^ 149), by simp [hn, hi], ?_⟩
    simp only [if_true]
    omega

theorem rne_of_not_finite {x : Word} (h : ¬ Finite x) : rne x = none := by
  have h' : isNaN x = true ∨ isInf x = true := by
    rw [isNaN_eq_true_iff, isInf_eq_true_iff]
    unfold Finite at h
    omega
  rcases h' with h' | h' <;> simp [rne, h']

end Sys2Proof.F32
end

section
/-! PROOFS. The four operators (spec/00_scope.md R15). -/

namespace Sys2Proof.F32

/-! ## Rounding under a sign -/

/-- The integer of the given sign and absolute value. -/
def withSign (s : Bool) (n : Nat) : Int := if s then -(n : Int) else (n : Int)

theorem toInt_eq_withSign (x : Word) : toInt x = withSign (sign x) (units x) := rfl

@[simp] theorem natAbs_withSign (s : Bool) (n : Nat) : (withSign s n).natAbs = n := by
  cases s <;> simp [withSign]

theorem withSign_lt_zero_iff {s : Bool} {n : Nat} : withSign s n < 0 ↔ s = true ∧ 0 < n := by
  cases s <;> simp [withSign]

theorem withSign_mul (s t : Bool) (n m : Nat) : withSign s n * withSign t m = withSign (s != t) (n * m) := by
  cases s <;> cases t <;> simp [withSign]

theorem withSign_sign (s : Bool) {n : Nat} (h : 0 < n) : (withSign s n).sign = withSign s 1 := by
  cases s <;> simp [withSign, Int.sign_eq_one_iff_pos, h]

theorem eq_withSign (k : Int) : k = withSign (decide (k < 0)) k.natAbs := by
  unfold withSign
  simp only [decide_eq_true_eq]
  split <;> omega

theorem toInt_pack (s : Bool) {m : Nat} (h : m < 2 ^ 31) : toInt (pack s m) = withSign s (magUnits m) := by
  rw [toInt_eq_withSign, sign_pack s h, units_pack s h]

/-- Two integers are no nearer to each other than their absolute values are. -/
theorem natAbs_sub_le_withSign (s t : Bool) (u den n : Nat) :
    (u * den - n : Int).natAbs ≤ (withSign t u * den - withSign s n).natAbs := by
  have h0 : (0 : Int) ≤ u * den := by positivity
  cases s <;> cases t <;> simp only [withSign, if_true, if_false, Bool.false_eq_true, Int.neg_mul] <;> omega

theorem natAbs_withSign_sub (s : Bool) (u den n : Nat) :
    (withSign s u * den - withSign s n).natAbs = (u * den - n : Int).natAbs := by
  cases s <;> simp only [withSign, if_true, if_false, Bool.false_eq_true, Int.neg_mul]
  omega

theorem roundMag_lt (num den : Nat) : roundMag num den < 2 ^ 31 :=
  (roundMag_le_infMag num den).trans_lt (by decide)

theorem roundMag_lt_infMag {num den : Nat} (hd : 0 < den) (h : num < (2 ^ 25 - 1) * 2 ^ 252 * den) :
    roundMag num den < infMag :=
  lt_of_le_of_ne (roundMag_le_infMag num den) fun he => h.not_ge ((roundMag_eq_infMag_iff num hd).1 he)

theorem roundMag_zero (den : Nat) : roundMag 0 den = 0 := by
  simp [roundMag, excessBits, nearestEven]

/-- A magnitude is rounded to itself. -/
theorem roundMag_magUnits_mul {m den : Nat} (hd : 0 < den) (h : magUnits m < (2 ^ 25 - 1) * 2 ^ 252) :
    roundMag (magUnits m * den) den = m := by
  have hfin := roundMag_lt_infMag hd (Nat.mul_lt_mul_of_pos_right h hd)
  obtain ⟨hnear, -⟩ := roundMag_nearest (magUnits m * den) hd hfin m
  have he : magUnits (roundMag (magUnits m * den) den) * den = magUnits m * den := by omega
  exact magUnits_strictMono.injective (Nat.eq_of_mul_eq_mul_right hd he)

/-- The tie rule over signed values: the rounded magnitude under the other sign is as near only where the exact result is
zero, which rounds to zero. -/
theorem roundMag_even_of_tie {s : Bool} {n den : Nat} (hd : 0 < den) (hfin : roundMag n den < infMag) {y : Word}
    (hne : toInt y ≠ withSign s (magUnits (roundMag n den)))
    (htie : (magUnits (roundMag n den) * den - n : Int).natAbs = (toInt y * den - withSign s n).natAbs) :
    roundMag n den % 2 = 0 := by
  obtain ⟨hnear, heven⟩ := roundMag_nearest n hd hfin (mag y)
  have hy := natAbs_sub_le_withSign s (sign y) (magUnits (mag y)) den n
  rw [toInt_eq_withSign, units_eq_magUnits] at hne htie
  by_cases hmag : mag y = roundMag n den
  · rw [hmag] at hne htie
    have hsign : sign y = !s := by
      rw [Bool.eq_not]
      exact fun he => hne (he ▸ rfl)
    rcases Nat.eq_zero_or_pos (roundMag n den) with h0 | hpos
    · rw [h0]
    · have hupos := magUnits_mul_lt hpos hd
      rw [magUnits_zero, Nat.zero_mul] at hupos
      obtain rfl : n = 0 := by
        cases s <;> simp only [hsign, withSign, Bool.not_true, Bool.not_false, if_true, if_false,
          Bool.false_eq_true, Int.neg_mul] at htie <;> omega
      rw [roundMag_zero den]
  · exact heven hmag (by omega)

/-- A magnitude rounded and put under a sign is the result of that sign rounded. -/
theorem isRounded_pack (s : Bool) (n : Nat) {den : Nat} (hd : 0 < den) :
    IsRounded (pack s (roundMag n den)) (withSign s n) den := by
  have hlt := roundMag_lt n den
  constructor <;> rw [natAbs_withSign] <;> intro h
  case finite => rw [Finite, mag_pack s hlt]; exact roundMag_lt_infMag hd h
  case nearest =>
    intro y _
    rw [toInt_pack s hlt, natAbs_withSign_sub]
    exact (roundMag_nearest n hd (roundMag_lt_infMag hd h) (mag y)).1.trans (natAbs_sub_le_withSign s (sign y) _ den n)
  case even =>
    intro y _
    rw [toInt_pack s hlt, natAbs_withSign_sub, mag_pack s hlt]
    exact roundMag_even_of_tie hd (roundMag_lt_infMag hd h)
  case overflow =>
    have hn : 0 < n := (Nat.mul_pos (by decide) hd).trans_le h
    rw [(roundMag_eq_infMag_iff n hd).2 h]
    simp only [withSign_lt_zero_iff, hn, and_true]
    cases s <;> rfl

/-! ## Finite operands -/

/-- Addition of finite operands, which `sub` uses too. -/
theorem addNaN_of_finite (nan : Word) {a b : Word} (ha : Finite a) (hb : Finite b) :
    addNaN nan a b = if toInt a + toInt b = 0 then (if sign a = true ∧ sign b = true then negZero else posZero)
      else pack (toInt a + toInt b < 0) (roundMag (toInt a + toInt b).natAbs 1) := by
  simp [addNaN, not_nan_inf_of_finite ha, not_nan_inf_of_finite hb]

theorem isRounded_addNaN (nan : Word) {a b : Word} (ha : Finite a) (hb : Finite b) :
    IsRounded (addNaN nan a b) (toInt a + toInt b) 1 := by
  rw [addNaN_of_finite nan ha hb]
  split
  · next h0 =>
    have hz (s : Bool) := isRounded_pack s 0 one_pos
    rw [roundMag_zero 1] at hz
    rw [h0]
    split
    · exact hz true
    · exact hz false
  · conv => arg 2; rw [eq_withSign (toInt a + toInt b)]
    exact isRounded_pack _ _ one_pos

theorem addNaN_of_sum_zero (nan : Word) {a b : Word} (ha : Finite a) (hb : Finite b) (h0 : toInt a + toInt b = 0) :
    addNaN nan a b = if sign a = true ∧ sign b = true then 0x80000000 else 0x00000000 := by
  rw [addNaN_of_finite nan ha hb, if_pos h0]
  rfl

theorem sub_eq_addNaN (ν : NanSource) (a : Word) {b : Word} (hb : isNaN b = false) :
    sub ν a b = addNaN (ν [] .sub a b) a (neg b) := by
  simp [sub, hb]

theorem finite_neg {x : Word} (h : Finite x) : Finite (neg x) := by
  rwa [Finite, mag_neg]

theorem mul_eq_pack (ν : NanSource) {a b : Word} (ha : Finite a) (hb : Finite b) :
    mul ν a b = pack (sign a != sign b) (roundMag (units a * units b) (2 ^ 149)) := by
  simp [mul, not_nan_inf_of_finite ha, not_nan_inf_of_finite hb]

theorem div_eq_pack (ν : NanSource) {a b : Word} (ha : Finite a) (hb : Finite b) (h0 : isZero b = false) :
    div ν a b = pack (sign a != sign b) (roundMag (units a * 2 ^ 149) (units b)) := by
  simp [div, not_nan_inf_of_finite ha, not_nan_inf_of_finite hb, h0]

theorem isRounded_mul (ν : NanSource) {a b : Word} (ha : Finite a) (hb : Finite b) :
    IsRounded (mul ν a b) (toInt a * toInt b) (2 ^ 149) := by
  rw [mul_eq_pack ν ha hb, toInt_eq_withSign, toInt_eq_withSign, withSign_mul]
  exact isRounded_pack _ _ (Nat.two_pow_pos 149)

theorem isRounded_div (ν : NanSource) {a b : Word} (ha : Finite a) (hb : Finite b) (h0 : isZero b = false) :
    IsRounded (div ν a b) (toInt a * 2 ^ 149 * (toInt b).sign) (toInt b).natAbs := by
  have hpos : 0 < units b := Nat.pos_of_ne_zero fun h => by simp [isZero_eq_true_iff.2 h] at h0
  have hnum : toInt a * 2 ^ 149 * (toInt b).sign = withSign (sign a != sign b) (units a * 2 ^ 149) := by
    rw [toInt_eq_withSign b, withSign_sign _ hpos, Int.mul_right_comm, toInt_eq_withSign a, withSign_mul, Nat.mul_one]
    cases sign a != sign b <;> simp [withSign]
  rw [div_eq_pack ν ha hb h0, natAbs_toInt, hnum]
  exact isRounded_pack _ _ hpos

theorem operators_of_finite (ν : NanSource) {a b : Word} (ha : Finite a) (hb : Finite b) :
    (IsRounded (add ν a b) (toInt a + toInt b) 1
      ∧ (toInt a + toInt b = 0 → add ν a b = if sign a = true ∧ sign b = true then 0x80000000 else 0x00000000))
    ∧ (IsRounded (sub ν a b) (toInt a - toInt b) 1
      ∧ (toInt a - toInt b = 0 → sub ν a b = if sign a = true ∧ sign b = false then 0x80000000 else 0x00000000))
    ∧ (IsRounded (mul ν a b) (toInt a * toInt b) (2 ^ 149) ∧ sign (mul ν a b) = (sign a != sign b))
    ∧ (isZero b = false →
      IsRounded (div ν a b) (toInt a * 2 ^ 149 * (toInt b).sign) (toInt b).natAbs
      ∧ sign (div ν a b) = (sign a != sign b)) := by
  refine ⟨⟨isRounded_addNaN _ ha hb, addNaN_of_sum_zero _ ha hb⟩, ?_, ⟨isRounded_mul ν ha hb, ?_⟩,
    fun h0 => ⟨isRounded_div ν ha hb h0, ?_⟩⟩
  · have hround := isRounded_addNaN (ν [] .sub a b) ha (finite_neg hb)
    have hzero := addNaN_of_sum_zero (ν [] .sub a b) ha (finite_neg hb)
    simp only [toInt_neg, sign_neg, Bool.not_eq_true', ← Int.sub_eq_add_neg] at hround hzero
    rw [sub_eq_addNaN ν a (not_nan_inf_of_finite hb).1]
    exact ⟨hround, hzero⟩
  · rw [mul_eq_pack ν ha hb, sign_pack _ (roundMag_lt _ _)]
  · rw [div_eq_pack ν ha hb h0, sign_pack _ (roundMag_lt _ _)]

/-! ## NaNs, infinities and division by zero -/

theorem isNaN_of_isInf {x : Word} (h : isInf x = true) : isNaN x = false := by
  rw [isInf_eq_true_iff] at h
  simp [isNaN, h]

theorem isZero_of_isInf {x : Word} (h : isInf x = true) : isZero x = false := by
  rw [isInf_eq_true_iff] at h
  simp [isZero, h, infMag]

theorem finite_of_isZero {x : Word} (h : isZero x = true) : Finite x := by
  have h0 : mag x = 0 := by simpa [isZero] using h
  rw [Finite, h0]
  decide

theorem isInf_neg (x : Word) : isInf (neg x) = isInf x := by
  rw [isInf, mag_neg, isInf]

theorem isNaN_neg (x : Word) : isNaN (neg x) = isNaN x := by
  rw [isNaN, mag_neg, isNaN]

/-- The infinity under the sign of a product or quotient. -/
theorem pack_bne_infMag (s t : Bool) :
    pack (s != t) infMag = if s = t then 0x7F800000 else 0x7F800000 ||| 0x80000000 := by
  cases s <;> cases t <;> rfl

/-- The zero under the sign of a product or quotient. -/
theorem pack_bne_zero (s t : Bool) :
    pack (s != t) 0 = if s = t then 0x00000000 else 0x00000000 ||| 0x80000000 := by
  cases s <;> cases t <;> rfl

section
variable {ν : NanSource} (hν : NanSource.Ok ν) {a b : Word}
include hν

theorem operators_of_nan (h : isNaN a = true ∨ isNaN b = true) :
    isNaN (add ν a b) = true ∧ isNaN (sub ν a b) = true ∧ isNaN (mul ν a b) = true ∧ isNaN (div ν a b) = true := by
  rcases h with h | h <;> simp [add, addNaN, sub, mul, div, h, hν]

theorem operators_of_inf_inf (ha : isInf a = true) (hb : isInf b = true) :
    (if sign a = sign b then add ν a b = a ∧ isNaN (sub ν a b) = true
      else isNaN (add ν a b) = true ∧ sub ν a b = a)
    ∧ mul ν a b = pack (sign a != sign b) infMag ∧ isNaN (div ν a b) = true := by
  have han := isNaN_of_isInf ha
  have hbn := isNaN_of_isInf hb
  refine ⟨?_, by simp [mul, han, hbn, ha, isZero_of_isInf ha, isZero_of_isInf hb], by simp [div, han, hbn, ha, hb, hν]⟩
  rw [sub_eq_addNaN ν a hbn]
  cases hs : sign a <;> cases ht : sign b <;>
    simp [add, addNaN, han, hbn, ha, hb, isInf_neg, isNaN_neg, sign_neg, hs, ht, hν]

theorem operators_of_inf_finite (ha : isInf a = true) (hb : Finite b) :
    add ν a b = a ∧ sub ν a b = a ∧ div ν a b = pack (sign a != sign b) infMag
    ∧ (if isZero b = true then isNaN (mul ν a b) = true else mul ν a b = pack (sign a != sign b) infMag) := by
  have han := isNaN_of_isInf ha
  have haz := isZero_of_isInf ha
  obtain ⟨hbn, hbi⟩ := not_nan_inf_of_finite hb
  refine ⟨by simp [add, addNaN, han, hbn, ha, hbi],
    by simp [sub_eq_addNaN ν a hbn, addNaN, han, hbn, ha, hbi, isInf_neg, isNaN_neg],
    by simp [div, han, hbn, ha, hbi], ?_⟩
  split
  · next h => simp [mul, han, hbn, ha, h, hν]
  · next h => simp [mul, han, hbn, ha, haz, h]

theorem operators_of_finite_inf (ha : Finite a) (hb : isInf b = true) :
    add ν a b = b ∧ sub ν a b = b ^^^ 0x80000000 ∧ div ν a b = pack (sign a != sign b) 0
    ∧ (if isZero a = true then isNaN (mul ν a b) = true else mul ν a b = pack (sign a != sign b) infMag) := by
  have hbn := isNaN_of_isInf hb
  have hbz := isZero_of_isInf hb
  obtain ⟨han, hai⟩ := not_nan_inf_of_finite ha
  refine ⟨by simp [add, addNaN, han, hbn, hb, hai],
    (by simp [sub_eq_addNaN ν a hbn, addNaN, han, hbn, hb, hai, isInf_neg, isNaN_neg] : sub ν a b = neg b),
    by simp [div, han, hbn, hb, hai], ?_⟩
  split
  · next h => simp [mul, han, hbn, hb, h, hν]
  · next h => simp [mul, han, hbn, hb, hbz, h]

theorem div_of_isZero (ha : Finite a) (hb : isZero b = true) :
    if isZero a = true then isNaN (div ν a b) = true else div ν a b = pack (sign a != sign b) infMag := by
  have ha := not_nan_inf_of_finite ha
  have hb' := not_nan_inf_of_finite (finite_of_isZero hb)
  split
  · next h => simp [div, ha, hb', hb, h, hν]
  · next h => simp [div, ha, hb', hb, h]

end

/-! ## Conversion of an integer -/

/-- An integer of at most 17 bits is exact in binary32. -/
theorem ofNat_exact {n : Nat} (h : n ≤ 2 ^ 16) : Finite (ofNat n) ∧ toInt (ofNat n) = n * 2 ^ 149 := by
  obtain ⟨m, hm⟩ := exists_magUnits_eq 149 n (by omega)
  have hsmall : magUnits m < (2 ^ 25 - 1) * 2 ^ 252 := by omega
  have hround : roundMag (n * 2 ^ 149) 1 = m := by
    simpa [hm] using roundMag_magUnits_mul one_pos hsmall
  have hfin : m < infMag := by
    refine magUnits_strictMono.lt_iff_lt.1 ?_
    rw [magUnits_infMag]
    omega
  have hlt : m < 2 ^ 31 := hfin.trans (by decide)
  rw [Finite, ofNat, hround, mag_pack false hlt, toInt_pack false hlt, hm]
  exact ⟨hfin, by simp [withSign]⟩

end Sys2Proof.F32
end

section
/-! PROOFS. The statements of spec/00_scope.md. -/

namespace Sys2Proof.F32

/-- Settles O33: a quotient is rounded to one of the two magnitudes it lies between. -/
theorem roundingIsNearestEven : Obligations.RoundingIsNearestEven := by
  intro num den hd
  refine ⟨fun hfin m hm => ?_, roundMag_eq_infMag_iff num hd, roundMag_le_infMag num den⟩
  have hinf : infMag < 2 ^ 31 := by decide
  rw [units_pack false (hfin.trans hinf), units_pack false (hm.trans hinf)]
  exact roundMag_nearest num hd hfin m

/-- Settles O34: a finite result is a magnitude rounded under a sign (`isRounded_pack`); the rest is a case for each kind
of operand. -/
theorem operatorsRoundToNearest : Obligations.OperatorsRoundToNearest := by
  refine ⟨fun ν a b => operators_of_finite ν, fun ν a b hν => ?_, fun n => ofNat_exact⟩
  intro signed
  have hinf : pack (sign a != sign b) infMag = signed 0x7F800000 := pack_bne_infMag (sign a) (sign b)
  have hzero : pack (sign a != sign b) 0 = signed 0x00000000 := pack_bne_zero (sign a) (sign b)
  rw [← hinf, ← hzero]
  exact ⟨operators_of_nan hν, operators_of_inf_inf hν, operators_of_inf_finite hν, operators_of_finite_inf hν,
    div_of_isZero hν⟩

/-- Settles O35: the signed magnitude bits order the values. -/
theorem comparisonsFollowValues : Obligations.ComparisonsFollowValues := by
  refine ⟨fun a b ha hb => ⟨lt_iff_value ha hb, le_iff_value ha hb, lt_iff_value hb ha, le_iff_value hb ha,
    eq_iff_value ha hb⟩, fun a b => comparisons_of_nan, by decide, fun x lo hi => ⟨?_, ?_, ?_, (clampTh_nan · lo hi)⟩⟩
  · exact fun hgt => by simp [clampTh, hgt]
  · exact fun hgt hge hle => by simp [clampTh, hgt, hge, hle]
  · exact fun hgt hout => by simp only [clampTh, hgt, Bool.and_eq_true, if_neg hout, Bool.false_eq_true, if_false]

/-- Settles O36, from `nearestEven_spec` on the magnitude. -/
theorem rneIsNearestEven : Obligations.RneIsNearestEven := by
  refine ⟨fun x => rne_of_finite, fun x h => ?_⟩
  have hbad := rne_of_not_finite h
  exact ⟨hbad, by simp [Machine.decodeMode, hbad], by simp [Machine.decodeWave, hbad],
    by simp [Machine.decodeSync, hbad], by simp [Machine.srcIdx, hbad]⟩

end Sys2Proof.F32
end

section
/-! PROOFS. What a command can do, said once for all of them: it raises one error and does nothing else, or it is
consumed with an effect of its own. -/

namespace Sys2Proof.Machine

/-- `Effect s i u`: in state `s` the guards of command `i` are met, and `u` is the state it makes of `s` before it is
counted in `pc`. -/
inductive Effect (s : State) : Instr → State → Prop
  | nop : Effect s .nop s
  | reset : Effect s .reset (resetUnit s)
  | creset (c : Fin 4) : Effect s (.creset c) (oscWrite s c (cresetState (oscRead s c)))
  | wrcfg {c : Fin 4} {sel : Nat} {data : Word} {r : Fin 16} (hsel : cfgSel sel = some r) :
      Effect s (.wrcfg c sel data) (cfgWrite s c r data)
  | rdreg {c : Fin 4} {sel : Nat} {v : Word} (hread : regRead s c sel = some v) :
      Effect s (.rdreg c sel) { s with resp := v }
  | modinit {sel : Nat} {data : Word} {i : Fin 21} (hsel : writableSlot sel = some i)
      (hboundary : atTickBoundary s = true) :
      Effect s (.modinit sel data) (modWrite s i { value := data, next := data, delta := F32.posZero })
  | modtick {sel : Nat} {data : Word} {i : Fin 21} (hsel : writableSlot sel = some i)
      (hboundary : atTickBoundary s = true) :
      Effect s (.modtick sel data) (modWrite s i (tickedSlot (Config.params.nan s.pc) (modSlot s i) data))
  | rdmod {sel aux : Nat} {i : Fin 21} {v : Word} (hsel : slotSel sel = some i)
      (hfield : slotField (modSlot s i) aux = some v) :
      Effect s (.rdmod sel aux) { s with resp := v }
  | beginBurst {n : Nat} (hclosed : s.inBurst = false) (hcount : badCount s n = false) :
      Effect s (.beginBurst n)
        { s with burstN := Fin.ofNat (Config.CP + 1) n, inBurst := true, syncBuf := [] }
  | render {c : Fin 4} (hopen : s.inBurst = true) :
      Effect s (.render c) (withVoice s c (renderVoice Config.params (Config.params.nan s.pc) s.cores[c].cfg s.mods
        s.offset.toNat s.burstN.val (voiceOf s c)))
  | endBurst (hopen : s.inBurst = true) : Effect s .endBurst (closeBurst Config.params.busLen s)
  | tick (hclosed : s.inBurst = false) (hoffset : s.offset.toNat = Config.CP) :
      Effect s .tick { s with offset := 0 }

/-- A command raises one error, or is consumed with its effect. -/
theorem exec_cases (i : Instr) (s : State) :
    (∃ e, exec i s = .next (raiseError e s)) ∨ ∃ u, Effect s i u ∧ exec i s = .next (retire u) := by
  cases i with
  | nop => exact .inr ⟨_, .nop, execNop_eq s⟩
  | reset => exact .inr ⟨_, .reset, execReset_eq s⟩
  | creset c => exact .inr ⟨_, .creset c, execCreset_eq c s⟩
  | wrcfg c sel data =>
    obtain ⟨-, h⟩ | ⟨r, hsel, h⟩ := execWrcfg_cases c sel data s
    · exact .inl ⟨_, h⟩
    · exact .inr ⟨_, .wrcfg hsel, h⟩
  | rdreg c sel =>
    obtain ⟨-, h⟩ | ⟨v, hread, h⟩ := execRdreg_cases c sel s
    · exact .inl ⟨_, h⟩
    · exact .inr ⟨_, .rdreg hread, h⟩
  | modinit sel data =>
    obtain ⟨-, h⟩ | ⟨-, -, -, h⟩ | ⟨i, hsel, hboundary, h⟩ := execModinit_cases sel data s
    · exact .inl ⟨_, h⟩
    · exact .inl ⟨_, h⟩
    · exact .inr ⟨_, .modinit hsel hboundary, h⟩
  | modtick sel data =>
    obtain ⟨-, h⟩ | ⟨-, -, -, h⟩ | ⟨i, hsel, hboundary, h⟩ := execModtick_cases sel data s
    · exact .inl ⟨_, h⟩
    · exact .inl ⟨_, h⟩
    · exact .inr ⟨_, .modtick hsel hboundary, h⟩
  | rdmod sel aux =>
    obtain h | ⟨i, v, hsel, hfield, h⟩ := execRdmod_cases sel aux s
    · exact .inl ⟨_, h⟩
    · exact .inr ⟨_, .rdmod hsel hfield, h⟩
  | beginBurst n =>
    obtain ⟨-, h⟩ | ⟨-, -, h⟩ | ⟨hclosed, hcount, h⟩ := execBegin_cases n s
    · exact .inl ⟨_, h⟩
    · exact .inl ⟨_, h⟩
    · exact .inr ⟨_, .beginBurst hclosed hcount, h⟩
  | render c =>
    obtain ⟨-, h⟩ | ⟨hopen, h⟩ := execRender_cases c s
    · exact .inl ⟨_, h⟩
    · exact .inr ⟨_, .render hopen, h⟩
  | endBurst =>
    obtain ⟨-, h⟩ | ⟨hopen, h⟩ := execEnd_cases s
    · exact .inl ⟨_, h⟩
    · exact .inr ⟨_, .endBurst hopen, h⟩
  | tick =>
    obtain h | ⟨hclosed, hoffset, h⟩ := execTick_cases s
    · exact .inl ⟨_, h⟩
    · exact .inr ⟨_, .tick hclosed hoffset, h⟩

/-- The next states of a command: one error raised, or its effect and one more command counted. -/
theorem eq_of_exec_next {i : Instr} {s t : State} (h : exec i s = .next t) :
    (∃ e, t = raiseError e s) ∨ ∃ u, Effect s i u ∧ t = retire u := by
  obtain ⟨e, he⟩ | ⟨u, hu, he⟩ := exec_cases i s <;> cases h.symm.trans he
  · exact .inl ⟨e, rfl⟩
  · exact .inr ⟨u, hu, rfl⟩

/-- A word that decodes to a command is run as that command (R305). -/
theorem runWord_of_decode {cmd : Cmd} {i : Instr} (h : decode cmd = .instr i) (s : State) :
    runWord cmd s = exec i s := by
  unfold runWord
  rw [h]

end Sys2Proof.Machine
end

section
/-! PROOFS. The statements of spec/10_state.md. -/

namespace Sys2Proof.Machine

/-- The effect of a command other than the two reads (R110) and RESET (R402) leaves RESP alone. -/
theorem Effect.resp_eq {s u : State} {i : Instr} (h : Effect s i u) (hrdreg : ∀ c sel, i ≠ .rdreg c sel)
    (hrdmod : ∀ sel aux, i ≠ .rdmod sel aux) (hreset : i ≠ .reset) : u.resp = s.resp := by
  cases h with
  | rdreg => exact absurd rfl (hrdreg _ _)
  | rdmod => exact absurd rfl (hrdmod _ _)
  | reset => exact absurd rfl hreset
  | nop | beginBurst | endBurst | tick => rfl
  | creset => exact oscWrite_resp _ _ _
  | wrcfg => exact cfgWrite_resp _ _ _ _
  | modinit | modtick => exact modWrite_resp _ _ _
  | render => exact withVoice_resp _ _ _

/-- Settles O20: an error sets STATUS only (`raiseError_resp`), and `Effect.resp_eq` speaks of the rest. -/
theorem respChangedByReadsOnly : Obligations.RespChangedByReadsOnly := by
  intro i s t h hrdreg hrdmod hreset
  obtain ⟨e, rfl⟩ | ⟨u, hu, rfl⟩ := eq_of_exec_next h
  · exact raiseError_resp e s
  · exact (retire_resp u).trans (hu.resp_eq hrdreg hrdmod hreset)

/-- Settles O6: the oldest word leaves the port (`step_word`) and is run as what it decodes to. -/
theorem stepRunsDecodedCommand : Obligations.StepRunsDecodedCommand :=
  fun _ _ _ _ hpending hdecode => (step_word hpending).trans (runWord_of_decode hdecode _)

end Sys2Proof.Machine
end

section
/-! PROOFS. One step of the executor, and the induction over what it can do that carries an invariant across it. -/

namespace Sys2Proof.Machine

/-- What a step makes of a state: nothing where no word is pending; else the oldest word leaves the port, and one error
is raised or the effect of one command is counted. -/
theorem eq_of_step_next {s t : State} (h : step s = .next t) :
    t = s ∨ ∃ rest : List Cmd, (∃ e, t = raiseError e { s with pending := rest })
      ∨ ∃ i u, Effect { s with pending := rest } i u ∧ t = retire u := by
  cases hp : s.pending with
  | nil =>
    cases (step_idle hp).symm.trans h
    exact .inl rfl
  | cons cmd rest =>
    rw [step_word hp] at h
    refine .inr ⟨rest, ?_⟩
    cases hdecode : decode cmd with
    | instr i =>
      rw [runWord_of_decode hdecode] at h
      obtain herror | ⟨u, hu, ht⟩ := eq_of_exec_next h
      · exact .inl herror
      · exact .inr ⟨i, u, hu, ht⟩
    | illegalOp =>
      simp only [runWord, hdecode, Host.Outcome.next.injEq] at h
      exact .inl ⟨.illegalOp, h.symm⟩
    | rsvField =>
      simp only [runWord, hdecode, Host.Outcome.next.injEq] at h
      exact .inl ⟨.rsvField, h.symm⟩

/-- A property that no move of the port and of the command index and no error bit touches, and that the effect of every
command keeps, every step keeps. -/
theorem step_keeps {Q : State → Prop} (hframe : ∀ s rest k, Q s → Q { s with pending := rest, pc := k })
    (herror : ∀ s (e : ErrorBit), Q s → Q { s with status := s.status ||| e.bit })
    (heffect : ∀ {s i u}, Effect s i u → Q s → Q u) {s t : State} (hs : Q s) (h : step s = .next t) : Q t := by
  obtain rfl | ⟨rest, ⟨e, rfl⟩ | ⟨i, u, hu, rfl⟩⟩ := eq_of_step_next h
  · exact hs
  · exact hframe _ rest _ (herror _ e (hframe s rest s.pc hs))
  · exact hframe u u.pending _ (heffect hu (hframe s rest s.pc hs))

end Sys2Proof.Machine
end

section
/-! PROOFS. RENDER's accesses lie inside the memory spaces (spec/20_memory.md R203), and what it exports to SYNC_BUF is
a fraction or −1.0 at a sample of the burst (spec/43_render.md R564). -/

namespace Sys2Proof.Machine

/-- The spaces of a voice are in canonical form, within their index ranges (R200, R203). -/
structure Voice.MemOk (P : Params) (v : Voice) : Prop where
  busA : Mem.wf busReset P.busLen v.busA = true
  busB : Mem.wf busReset P.busLen v.busB = true
  syncBuf : Mem.wf syncReset Config.CP v.syncBuf = true

/-- A sample of a burst keeps the memory form: its taps and its output lie on the bus, and what a master exports goes
to a word of SYNC_BUF. -/
theorem sampleStep_memOk {P : Params} (hD : P.D < P.L) (ν : NanSource) {e : Sample} (he : e.s < Config.CP) (wv : Wave)
    (role : Role) {v : Voice} (hv : v.MemOk P) : (sampleStep P ν e wv role v).MemOk P := by
  have hwindow : KeptInWindow P e (fun m => Mem.wf busReset P.busLen m = true) :=
    fun μ _ _ x hk hm => Mem.wf_accumulate μ hm x (tap_index_lt P he hk)
  obtain ⟨hA, hB⟩ := sampleStep_buses hwindow hD ν wv role ⟨hv.busA, hv.busB⟩
  refine ⟨hA, hB, ?_⟩
  obtain h | ⟨-, wrapped, -, h⟩ := sampleStep_syncBuf P ν e wv role v
  · rw [h]
    exact hv.syncBuf
  · rw [h]
    exact Mem.wf_write hv.syncBuf _ he

theorem renderVoice_memOk {P : Params} (hD : P.D < P.L) (ν : NanSource) (cfg : Vector Word 16)
    (mods : Vector ModSlot 21) (o : Nat) {n : Nat} (hn : n ≤ Config.CP) {v : Voice} (hv : v.MemOk P) :
    (renderVoice P ν cfg mods o n v).MemOk P :=
  renderVoice_induct (Q := Voice.MemOk P) P ν cfg mods o n v ⟨hv.busA, hv.busB, hv.syncBuf⟩
    fun _ μ _ _ _ hs hu => sampleStep_memOk hD μ (hs.trans_le hn) _ _ hu

/-- The content of SYNC_BUF in an open burst of `n` samples: exports, and −1.0 from word `n` on (R206). -/
structure BurstExports (n : Nat) (m : Mem) : Prop where
  wf : Mem.wf syncReset Config.CP m = true
  exports : ∀ j, exportOk (Mem.read syncReset m j) = true
  tail : ∀ j, n ≤ j → Mem.read syncReset m j = syncReset

theorem BurstExports.write {n : Nat} {m : Mem} (h : BurstExports n m) {s : Nat} (hs : s < n) (hn : n ≤ Config.CP)
    {x : Word} (hx : exportOk x = true) : BurstExports n (Mem.write syncReset m s x) where
  wf := Mem.wf_write h.wf x (hs.trans_le hn)
  exports j := by
    rw [Mem.read_write h.wf]
    split
    · exact hx
    · exact h.exports j
  tail j hj := by
    rw [Mem.read_write h.wf, if_neg (by omega)]
    exact h.tail j hj

theorem exportOk_syncReset : exportOk syncReset = true := by decide

/-- A fraction taken from the start of the sample on is in [0, 1] (R563). -/
theorem rfrac_fractionOk (ν : NanSource) (w x : Word) : fractionOk (rfrac ν w x F32.posZero) = true := by
  have hbounds : F32.le F32.posZero F32.one = true := by decide
  unfold rfrac
  split
  · simpa [fractionOk] using F32.clampTh_between hbounds (F32.add ν F32.posZero (F32.div ν x w))
  · decide

/-- What a master exports after a full step of the phase is a wrap fraction or −1.0 (R564). -/
theorem advance_exportOk (P : Params) (ν : NanSource) (e : Sample) (wv : Wave) (δ : Word) (v : Voice) :
    exportOk ((advance P ν e wv δ F32.posZero v).2.getD F32.negOne) = true := by
  unfold advance wrapEvent
  dsimp only
  split
  · simp [exportOk, rfrac_fractionOk]
  · exact exportOk_syncReset

theorem sampleStep_burstExports (P : Params) (ν : NanSource) {e : Sample} (wv : Wave) (role : Role) {v : Voice}
    {n : Nat} (he : e.s < n) (hn : n ≤ Config.CP) (hv : BurstExports n v.syncBuf) :
    BurstExports n (sampleStep P ν e wv role v).syncBuf := by
  obtain h | ⟨-, wrapped, hwrapped, h⟩ := sampleStep_syncBuf P ν e wv role v
  · rw [h]
    exact hv
  · rw [h, hwrapped]
    exact hv.write he hn (advance_exportOk ..)

theorem renderVoice_burstExports (P : Params) (ν : NanSource) (cfg : Vector Word 16) (mods : Vector ModSlot 21)
    (o : Nat) {n : Nat} (hn : n ≤ Config.CP) {v : Voice} (hv : BurstExports n v.syncBuf) :
    BurstExports n (renderVoice P ν cfg mods o n v).syncBuf :=
  renderVoice_induct (Q := fun u => BurstExports n u.syncBuf) P ν cfg mods o n v hv
    fun _ μ _ _ _ hs hu => sampleStep_burstExports P μ _ _ hs hn hu

end Sys2Proof.Machine
end

section
/-! PROOFS. Command words as bytes (spec/20_memory.md R207, R208). -/

namespace Sys2Proof

/-- The bytes of a word, put together from the most significant down, are the word: bit `i` of the
whole is bit `i % 8` of byte `i / 8`. -/
theorem append_cmdBytes (cmd : Cmd) :
    (cmd.extractLsb' 56 8 ++ cmd.extractLsb' 48 8 ++ cmd.extractLsb' 40 8 ++ cmd.extractLsb' 32 8
      ++ cmd.extractLsb' 24 8 ++ cmd.extractLsb' 16 8 ++ cmd.extractLsb' 8 8 ++ cmd.extractLsb' 0 8 : BitVec 64)
      = cmd := by
  ext i hi
  simp only [BitVec.getElem_append, BitVec.getElem_extractLsb']
  grind

theorem cmdsOfBytes_cmdBytes_append (cmd : Cmd) (rest : List Byte) :
    cmdsOfBytes (cmdBytes cmd ++ rest) = (cmdsOfBytes rest).map (cmd :: ·) := by
  simp only [cmdBytes, List.cons_append, List.nil_append, cmdsOfBytes, append_cmdBytes]

/-- The bytes of command words carry these words (R207). -/
theorem cmdsOfBytes_flatMap_cmdBytes (cmds : List Cmd) : cmdsOfBytes (cmds.flatMap cmdBytes) = some cmds := by
  induction cmds with
  | nil => rfl
  | cons cmd cmds ih => rw [List.flatMap_cons, cmdsOfBytes_cmdBytes_append, ih, Option.map_some]

/-- Bytes that carry command words are eight to a word (R208). -/
theorem length_of_cmdsOfBytes {bytes : List Byte} {cmds : List Cmd} (h : cmdsOfBytes bytes = some cmds) :
    bytes.length = 8 * cmds.length := by
  induction bytes using cmdsOfBytes.induct generalizing cmds with
  | case1 =>
    cases h
    rfl
  | case2 b0 b1 b2 b3 b4 b5 b6 b7 rest ih =>
    obtain ⟨tail, htail, rfl⟩ := Option.map_eq_some_iff.1 h
    simp only [List.length_cons, ih htail]
    omega
  | case3 bytes hnil hlong => simp [cmdsOfBytes] at h

end Sys2Proof
end

section
/-! PROOFS. The statements of spec/20_memory.md. -/

namespace Sys2Proof.Machine

theorem burstN_le (s : State) : s.burstN.val ≤ Config.CP := Nat.le_of_lt_succ s.burstN.isLt

/-- Only RESET, BEGIN, RENDER and END write a memory space, and each of them inside it. -/
theorem Effect.memOk {s u : State} {i : Instr} (h : Effect s i u) (hs : s.MemOk) : u.MemOk := by
  cases h with
  | nop | creset | wrcfg | rdreg | modinit | modtick | rdmod | tick => exact ⟨hs.busA, hs.busB, hs.syncBuf⟩
  | reset => exact ⟨Mem.wf_nil _ _, Mem.wf_nil _ _, Mem.wf_nil _ _⟩
  | beginBurst => exact ⟨hs.busA, hs.busB, Mem.wf_nil _ _⟩
  | render =>
    obtain ⟨hA, hB, hsync⟩ := renderVoice_memOk Config.D_lt_L (Config.params.nan s.pc) _ s.mods s.offset.toNat
      (burstN_le s) (v := voiceOf s _) ⟨hs.busA, hs.busB, hs.syncBuf⟩
    exact ⟨hA, hB, hsync⟩
  | endBurst => exact ⟨Mem.wf_shiftDown _ _ hs.busA, Mem.wf_shiftDown _ _ hs.busB, hs.syncBuf⟩

/-- Settles O51: no effect of a command leaves a memory space (`Effect.memOk`); nothing else of a step touches one. -/
theorem stepKeepsMemoryForm : Obligations.StepKeepsMemoryForm :=
  fun _ _ => step_keeps (fun _ _ _ h => ⟨h.busA, h.busB, h.syncBuf⟩) (fun _ _ h => ⟨h.busA, h.busB, h.syncBuf⟩)
    Effect.memOk

/-- Only RESET and BEGIN, which clear SYNC_BUF, and RENDER write SYNC_BUF; only they and END move BURST_N or INBURST. -/
theorem Effect.syncOk {s u : State} {i : Instr} (h : Effect s i u) (hmem : s.MemOk) (hs : s.SyncOk) : u.SyncOk := by
  cases h with
  | nop | creset | wrcfg | rdreg | modinit | modtick | rdmod | tick => exact ⟨hs.exports, hs.tail⟩
  | reset => exact ⟨fun _ => exportOk_syncReset, fun _ _ _ => rfl⟩
  | beginBurst => exact ⟨fun _ => exportOk_syncReset, fun _ _ _ => rfl⟩
  | render hopen =>
    obtain ⟨-, hexports, htail⟩ := renderVoice_burstExports Config.params (Config.params.nan s.pc) _ s.mods
      s.offset.toNat (burstN_le s) (v := voiceOf s _) ⟨hmem.syncBuf, hs.exports, hs.tail hopen⟩
    exact ⟨hexports, fun _ => htail⟩
  | endBurst => exact ⟨hs.exports, fun hopen => absurd hopen Bool.false_ne_true⟩

/-- Settles O53: the memory form, which reading back a word that a master exports needs, is carried along with SYNC_BUF's. -/
theorem stepKeepsSyncBuffer : Obligations.StepKeepsSyncBuffer := by
  intro s t hmem hsync h
  have hboth : t.MemOk ∧ t.SyncOk :=
    step_keeps (Q := fun s => s.MemOk ∧ s.SyncOk)
      (fun _ _ _ ⟨hm, hs⟩ => ⟨⟨hm.busA, hm.busB, hm.syncBuf⟩, ⟨hs.exports, hs.tail⟩⟩)
      (fun _ _ ⟨hm, hs⟩ => ⟨⟨hm.busA, hm.busB, hm.syncBuf⟩, ⟨hs.exports, hs.tail⟩⟩)
      (fun hu ⟨hm, hs⟩ => ⟨hu.memOk hm, hu.syncOk hm hs⟩) ⟨hmem, hsync⟩ h
  exact hboth.2

/-- Settles O5: bytes of whole words carry these words, and bytes that carry words are eight to a word. -/
theorem serializedCommandsArrive : Obligations.SerializedCommandsArrive := by
  refine ⟨fun cmds s => ?_, fun bytes s hpartial => ?_⟩
  · rw [hostSendBytes, cmdsOfBytes_flatMap_cmdBytes]
  · have hnone : cmdsOfBytes bytes = none := by
      refine Option.eq_none_iff_forall_ne_some.2 fun cmds h => hpartial ?_
      rw [length_of_cmdsOfBytes h, Nat.mul_mod_right]
    rw [hostSendBytes, hnone]

/-- A read inside a space answers its word (R201). -/
theorem hostRead_of_lt {P : Params} {sp : HostSpace} {j : Nat} (h : j < sp.words P) (s : State) :
    hostRead P sp j s = .ok (sp.wordAt s j) := if_pos h

/-- A read outside a space is refused (R201). -/
theorem hostRead_of_le {P : Params} {sp : HostSpace} {j : Nat} (h : sp.words P ≤ j) (s : State) :
    hostRead P sp j s = .refused (.hostReadOutsideSpace j) := if_neg h.not_gt

/-- Settles O55: the buses have 64 + L words and SYNC_BUF has 64. -/
theorem hostReadsAreBounded : Obligations.HostReadsAreBounded :=
  fun s _ => ⟨fun h => ⟨hostRead_of_lt (sp := .busA) h s, hostRead_of_lt (sp := .busB) h s⟩,
    fun h => ⟨hostRead_of_le (sp := .busA) h s, hostRead_of_le (sp := .busB) h s⟩,
    fun h => hostRead_of_lt (sp := .syncBuf) h s, fun h => hostRead_of_le (sp := .syncBuf) h s⟩

end Sys2Proof.Machine
end

section
/-! PROOFS. What a command word decodes to, said once for every word: the three outcomes of spec/30_encoding.md R305, and
the fields that the selected row of the opcode table fixes (R304). -/

namespace Sys2Proof

/-! ## Rows of the opcode table -/

/-- A selected word holds the row's match wherever the row's mask is all ones. -/
theorem extractLsb'_of_selects {row : OpRow} {cmd : Cmd} (h : row.selects cmd = true) {start len : Nat}
    (hmask : row.maskBits.extractLsb' start len = BitVec.allOnes len) :
    cmd.extractLsb' start len = row.matchBits.extractLsb' start len := by
  have hmatch : cmd &&& row.maskBits = row.matchBits := eq_of_beq h
  rw [← hmatch, BitVec.extractLsb'_and, hmask, BitVec.and_allOnes]

/-- Every row fixes the whole op field, and stands in the table where its op field says. -/
theorem row_fixes_op : ∀ row ∈ opcodeTable, row.maskBits.extractLsb' 56 8 = BitVec.allOnes 8
    ∧ opcodeTable[opField row.matchBits]? = some row := by
  decide

/-- Only the row that the op field names can select a word. -/
theorem getElem?_of_selects {row : OpRow} {cmd : Cmd} (hrow : row ∈ opcodeTable) (h : row.selects cmd = true) :
    opcodeTable[opField cmd]? = some row := by
  obtain ⟨hmask, hplace⟩ := row_fixes_op row hrow
  have hop : opField cmd = opField row.matchBits := congrArg BitVec.toNat (extractLsb'_of_selects h hmask)
  rwa [hop]

/-- The opcodes with a row are 0x00 to 0x0B. -/
theorem le_of_getElem?_opcodeTable {op : Nat} {row : OpRow} (h : opcodeTable[op]? = some row) : op ≤ 0x0B :=
  Nat.le_of_lt_succ (List.getElem?_eq_some_iff.1 h).1

/-- Every opcode up to 0x0B has a row and a command. -/
theorem exists_row_command {op : Nat} (h : op ≤ 0x0B) (cmd : Cmd) :
    ∃ row i, opcodeTable[op]? = some row ∧ commandOf op cmd = some i := by
  interval_cases op <;> exact ⟨_, _, rfl, rfl⟩

/-! ## The outcomes of decoding (R305) -/

/-- The first check (R306): no row of the table has an opcode above 0x0B. -/
theorem decode_illegalOp {cmd : Cmd} (h : 0x0B < opField cmd) : decode cmd = .illegalOp := by
  have hnone : opcodeTable[opField cmd]? = none := List.getElem?_eq_none h
  rw [decode, hnone]

/-- The second check: the row that the op field names selects the word, or a reserved field of it is nonzero. -/
theorem decode_of_row {cmd : Cmd} {row : OpRow} {i : Instr} (hrow : opcodeTable[opField cmd]? = some row)
    (hcmd : commandOf (opField cmd) cmd = some i) :
    decode cmd = if row.selects cmd then .instr i else .rsvField := by
  rw [decode, hrow, hcmd]

theorem decode_rsvField {cmd : Cmd} (hop : opField cmd ≤ 0x0B)
    (h : ∀ row ∈ opcodeTable, row.selects cmd = false) : decode cmd = .rsvField := by
  obtain ⟨row, i, hrow, hcmd⟩ := exists_row_command hop cmd
  rw [decode_of_row hrow hcmd, h row (List.mem_of_getElem? hrow), if_neg Bool.false_ne_true]

/-- A word is illegal, or it has a nonzero reserved field, or the row that its op field names selects it. -/
theorem decode_cases (cmd : Cmd) :
    (0x0B < opField cmd ∧ decode cmd = .illegalOp)
    ∨ (opField cmd ≤ 0x0B ∧ (∀ row ∈ opcodeTable, row.selects cmd = false) ∧ decode cmd = .rsvField)
    ∨ ∃ row i, opcodeTable[opField cmd]? = some row ∧ row.selects cmd = true
        ∧ commandOf (opField cmd) cmd = some i ∧ decode cmd = .instr i := by
  obtain hop | hop := Nat.lt_or_ge 0x0B (opField cmd)
  · exact .inl ⟨hop, decode_illegalOp hop⟩
  · obtain ⟨row, i, hrow, hcmd⟩ := exists_row_command hop cmd
    cases hsel : row.selects cmd with
    | true => exact .inr (.inr ⟨row, i, hrow, hsel, hcmd, by rw [decode_of_row hrow hcmd, hsel, if_pos rfl]⟩)
    | false =>
      have hnone : ∀ r ∈ opcodeTable, r.selects cmd = false := by
        intro r hr
        by_contra hother
        cases hrow.symm.trans (getElem?_of_selects hr (Bool.eq_true_of_not_eq_false hother))
        exact hother hsel
      exact .inr (.inl ⟨hop, hnone, decode_rsvField hop hnone⟩)

/-! ## A command and its word (R301, R303) -/

theorem selField_lt (cmd : Cmd) : selField cmd < 64 := BitVec.isLt _

theorem auxField_lt (cmd : Cmd) : auxField cmd < 65536 := BitVec.isLt _

/-- The command of an opcode has that opcode, and operands cut from their fields fit them. -/
theorem opcode_wf_of_commandOf {op : Nat} {cmd : Cmd} {i : Instr} (h : commandOf op cmd = some i) :
    i.opcode = op ∧ i.wf = true := by
  have hsel : selFits (selField cmd) = true := decide_eq_true (selField_lt cmd)
  have haux : auxFits (auxField cmd) = true := decide_eq_true (auxField_lt cmd)
  unfold commandOf at h
  split at h <;> cases h <;> simp [Instr.opcode, Instr.wf, hsel, haux]

theorem mod_eq_of_selFits {sel : Nat} (h : selFits sel = true) : sel % 64 = sel :=
  Nat.mod_eq_of_lt (of_decide_eq_true h)

theorem mod_eq_of_auxFits {aux : Nat} (h : auxFits aux = true) : aux % 65536 = aux :=
  Nat.mod_eq_of_lt (of_decide_eq_true h)

/-- The operands of a well-formed command are read back from its word. -/
theorem commandOf_encode {i : Instr} (h : i.wf = true) : commandOf i.opcode (encode i) = some i := by
  cases i with
  | nop | reset | endBurst | tick => rfl
  | creset | render => simp only [commandOf, encode, Instr.opcode, coreField_packFields]
  | wrcfg | rdreg | modinit | modtick =>
    simp only [commandOf, encode, Instr.opcode, coreField_packFields, selField_packFields, dataField_packFields,
      mod_eq_of_selFits h]
  | rdmod sel aux =>
    obtain ⟨hsel, haux⟩ : selFits sel = true ∧ auxFits aux = true := Bool.and_eq_true_iff.1 h
    simp only [commandOf, encode, Instr.opcode, selField_packFields, auxField_packFields, mod_eq_of_selFits hsel,
      mod_eq_of_auxFits haux]
  | beginBurst n => simp only [commandOf, encode, Instr.opcode, auxField_packFields, mod_eq_of_auxFits h]

/-- The row of its opcode selects the word of a command, whose reserved fields are zero. -/
theorem row_selects_encode (i : Instr) : Laws.RowSelects.Statement i := by
  cases i with
  | nop => exact Laws.RowSelects.nop
  | reset => exact Laws.RowSelects.reset
  | creset core => exact Laws.RowSelects.creset core
  | wrcfg core sel data => exact Laws.RowSelects.wrcfg core sel data
  | rdreg core sel => exact Laws.RowSelects.rdreg core sel
  | modinit sel data => exact Laws.RowSelects.modinit sel data
  | modtick sel data => exact Laws.RowSelects.modtick sel data
  | rdmod sel aux => exact Laws.RowSelects.rdmod sel aux
  | beginBurst n => exact Laws.RowSelects.beginBurst n
  | render core => exact Laws.RowSelects.render core
  | endBurst => exact Laws.RowSelects.endBurst
  | tick => exact Laws.RowSelects.tick

theorem decode_encode {i : Instr} (h : i.wf = true) : decode (encode i) = .instr i := by
  obtain ⟨hop, row, hrow, hselects⟩ := row_selects_encode i
  have hcmd : commandOf i.opcode (encode i) = some i := commandOf_encode h
  rw [← hop] at hrow hcmd
  rw [decode_of_row hrow hcmd, hselects, if_pos rfl]

/-! ## The word of a decoded command (R301, R304) -/

/-- The match of every row has zero operand fields. -/
theorem match_operands_zero : ∀ row ∈ opcodeTable, coreField row.matchBits = 0 ∧ selField row.matchBits = 0
    ∧ auxField row.matchBits = 0 ∧ dataField row.matchBits = 0 := by
  decide

/-- Which operand fields of its word a command uses. -/
structure FieldUse where
  core : Bool
  sel : Bool
  aux : Bool
  data : Bool

/-- The fields of R303: those that the command's operands fill. -/
def Instr.fieldUse : Instr → FieldUse
  | .nop | .reset | .endBurst | .tick => ⟨false, false, false, false⟩
  | .creset _ | .render _ => ⟨true, false, false, false⟩
  | .wrcfg _ _ _ => ⟨true, true, false, true⟩
  | .rdreg _ _ => ⟨true, true, false, false⟩
  | .modinit _ _ | .modtick _ _ => ⟨false, true, false, true⟩
  | .rdmod _ _ => ⟨false, true, true, false⟩
  | .beginBurst _ => ⟨false, false, true, false⟩

/-- The mask that covers the op field and every unused operand field. -/
def FieldUse.mask (u : FieldUse) : Cmd :=
  0xFF#8 ++ cond u.core 0#2 3#2 ++ cond u.sel 0#6 0x3F#6 ++ cond u.aux 0#16 0xFFFF#16 ++ cond u.data 0#32 0xFFFFFFFF#32

/-- The mask of a row covers what its command does not use, and the command's word holds the fields that it uses. -/
theorem mask_encode_of_commandOf {op : Nat} {cmd : Cmd} {row : OpRow} {i : Instr} (hrow : opcodeTable[op]? = some row)
    (hcmd : commandOf op cmd = some i) :
    row.maskBits = i.fieldUse.mask ∧ encode i = packFields op (cond i.fieldUse.core (coreField cmd) 0)
      (cond i.fieldUse.sel (selField cmd) 0) (cond i.fieldUse.aux (auxField cmd) 0)
      (cond i.fieldUse.data (dataField cmd) 0) := by
  unfold commandOf at hcmd
  split at hcmd <;> cases hcmd <;> cases hrow <;> exact ⟨by simp only [Instr.fieldUse]; decide, rfl⟩

theorem FieldUse.mask_core : ∀ {u : FieldUse}, u.core = false → u.mask.extractLsb' 54 2 = BitVec.allOnes 2
  | ⟨false, sel, aux, data⟩, _ => by revert sel aux data; decide

theorem FieldUse.mask_sel : ∀ {u : FieldUse}, u.sel = false → u.mask.extractLsb' 48 6 = BitVec.allOnes 6
  | ⟨core, false, aux, data⟩, _ => by revert core aux data; decide

theorem FieldUse.mask_aux : ∀ {u : FieldUse}, u.aux = false → u.mask.extractLsb' 32 16 = BitVec.allOnes 16
  | ⟨core, sel, false, data⟩, _ => by revert core sel data; decide

theorem FieldUse.mask_data : ∀ {u : FieldUse}, u.data = false → u.mask.extractLsb' 0 32 = BitVec.allOnes 32
  | ⟨core, sel, aux, false⟩, _ => by revert core sel aux; decide

theorem cond_eq_left {α : Type} {b : Bool} {x y : α} (h : b = false → x = y) : cond b x y = x := by
  cases b with
  | true => rfl
  | false => exact (h rfl).symm

/-- A selected word is packed from its op field and its used operand fields: the others hold the row's match, zero. -/
theorem packFields_of_selects {row : OpRow} {cmd : Cmd} (hrow : row ∈ opcodeTable) (h : row.selects cmd = true)
    {u : FieldUse} (hmask : row.maskBits = u.mask) :
    packFields (opField cmd) (cond u.core (coreField cmd) 0) (cond u.sel (selField cmd) 0)
      (cond u.aux (auxField cmd) 0) (cond u.data (dataField cmd) 0) = cmd := by
  obtain ⟨hcore, hsel, haux, hdata⟩ := match_operands_zero row hrow
  have hfixed {start len : Nat} (hall : u.mask.extractLsb' start len = BitVec.allOnes len) :
      cmd.extractLsb' start len = row.matchBits.extractLsb' start len :=
    extractLsb'_of_selects h (hmask ▸ hall)
  have hcore0 (hu : u.core = false) : coreField cmd = 0 :=
    (congrArg BitVec.toFin (hfixed (FieldUse.mask_core hu))).trans hcore
  have hsel0 (hu : u.sel = false) : selField cmd = 0 :=
    (congrArg BitVec.toNat (hfixed (FieldUse.mask_sel hu))).trans hsel
  have haux0 (hu : u.aux = false) : auxField cmd = 0 :=
    (congrArg BitVec.toNat (hfixed (FieldUse.mask_aux hu))).trans haux
  have hdata0 (hu : u.data = false) : dataField cmd = 0 := (hfixed (FieldUse.mask_data hu)).trans hdata
  rw [cond_eq_left hcore0, cond_eq_left hsel0, cond_eq_left haux0, cond_eq_left hdata0, packFields_fields]

/-- A word that the row of its op field selects is the word of its command. -/
theorem encode_of_selects {cmd : Cmd} {row : OpRow} {i : Instr} (hrow : opcodeTable[opField cmd]? = some row)
    (h : row.selects cmd = true) (hcmd : commandOf (opField cmd) cmd = some i) : encode i = cmd := by
  obtain ⟨hmask, hencode⟩ := mask_encode_of_commandOf hrow hcmd
  exact hencode.trans (packFields_of_selects (List.mem_of_getElem? hrow) h hmask)

end Sys2Proof
end

section
/-! PROOFS. The statements of spec/30_encoding.md. -/

namespace Sys2Proof

/-- Settles O1: the row of the command's opcode selects its word, and the operands are read back from it. -/
theorem decodeOfEncode : Obligations.DecodeOfEncode := fun _ hwf => decode_encode hwf

/-- Settles O2: a row has selected the word (`decode_cases`), so the fields that the command does not use are zero. -/
theorem encodeOfDecode : Obligations.EncodeOfDecode := by
  intro cmd i hdecode
  obtain ⟨-, h⟩ | ⟨-, -, h⟩ | ⟨row, j, hrow, hselects, hcmd, h⟩ := decode_cases cmd <;> cases hdecode.symm.trans h
  exact ⟨encode_of_selects hrow hselects hcmd, (opcode_wf_of_commandOf hcmd).2⟩

/-- Settles O3: the three cases of `decode_cases` exclude each other. -/
theorem decodeErrorsInOrder : Obligations.DecodeErrorsInOrder := by
  intro cmd
  obtain ⟨hop, hdecode⟩ | ⟨hop, hnone, hdecode⟩ | ⟨row, i, hrow, hselects, hcmd, hdecode⟩ := decode_cases cmd
  · have hnone : ¬ ∃ row ∈ opcodeTable, row.selects cmd = true := fun ⟨_, hrow, hselects⟩ =>
      hop.not_ge (le_of_getElem?_opcodeTable (getElem?_of_selects hrow hselects))
    simp [hdecode, hop, hop.not_ge, hnone]
  · simpa [hdecode, hop, hop.not_gt] using hnone
  · have hle : opField cmd ≤ 0x0B := le_of_getElem?_opcodeTable hrow
    have hsome : ∃ row ∈ opcodeTable, row.selects cmd = true := ⟨row, List.mem_of_getElem? hrow, hselects⟩
    have hopcode : i.opcode = opField cmd := (opcode_wf_of_commandOf hcmd).1
    simp [hdecode, hle, hle.not_gt, hsome, hopcode]

/-- Settles O4: the fields and the words by evaluation; each word decodes to its command by `decode_encode`. -/
theorem workedEncodings : Obligations.WorkedEncodings := by
  have hwrcfg : encode (.wrcfg 1 0x00 0x3F800000) = 0x034000003F800000 := by decide
  have hbegin : encode (.beginBurst 64) = 0x0800004000000000 := by decide
  have hrender : encode (.render 3) = 0x09C0000000000000 := by decide
  refine ⟨by decide, ?_, hwrcfg, ?_, hbegin, ?_, hrender⟩
  · exact hwrcfg ▸ decode_encode (by decide)
  · exact hbegin ▸ decode_encode (by decide)
  · exact hrender ▸ decode_encode (by decide)

end Sys2Proof

namespace Sys2Proof.Machine

/-- Settles O8: the word is taken (`step_word`) and its decoding raises ILLEGAL_OP. -/
theorem illegalOpcodeOnlySetsStatus : Obligations.IllegalOpcodeOnlySetsStatus := by
  intro s cmd rest hpending hop
  rw [step_word hpending, runWord, decode_illegalOp hop]
  rfl

/-- Settles O9: the word is taken (`step_word`) and its decoding raises RSV_FIELD. -/
theorem reservedFieldOnlySetsStatus : Obligations.ReservedFieldOnlySetsStatus := by
  intro s cmd rest hpending hop hnone
  rw [step_word hpending, runWord, decode_rsvField hop hnone]
  rfl

end Sys2Proof.Machine
end

section
/-! PROOFS. What the control commands do with a register number in range, and which commands change a configuration
register (spec/40_control.md). -/

namespace Sys2Proof.Machine

/-! ## Register numbers (R102, R104, R108) -/

/-- The number of a configuration register names it and no other. -/
theorem cfgSel_eq_some_iff {sel : Nat} {r : Fin 16} : cfgSel sel = some r ↔ sel = r.val := by
  unfold cfgSel
  split
  · rw [Option.some_inj, Fin.ext_iff]
  · next h => exact ⟨nofun, fun heq => absurd (heq ▸ r.isLt) h⟩

@[simp] theorem cfgSel_val (r : Fin 16) : cfgSel r.val = some r := cfgSel_eq_some_iff.2 rfl

@[simp] theorem regRead_val (s : State) (c : Fin 4) (r : Fin 16) : regRead s c r.val = some (cfgRead s c r) := by
  unfold regRead
  rw [cfgSel_val]

/-- The view of STATUS keeps its five error bits (R109). -/
theorem statusView_eq_ofNat_mod (status : Word) : statusView status = BitVec.ofNat 32 (status.toNat % 32) := by
  apply BitVec.eq_of_toNat_eq
  have hmask : status.toNat &&& 31 = status.toNat % 32 := Nat.and_two_pow_sub_one_eq_mod status.toNat 5
  have hlt : status.toNat % 32 < 2 ^ 32 := by omega
  rw [BitVec.toNat_ofNat, Nat.mod_eq_of_lt hlt, ← hmask]
  exact BitVec.toNat_and status 31

/-! ## The commands with a register number in range -/

theorem exec_wrcfg_val (c : Fin 4) (r : Fin 16) (data : Word) (s : State) :
    exec (.wrcfg c r.val data) s = .next (retire (cfgWrite s c r data)) := by
  show execWrcfg c r.val data s = _
  rw [execWrcfg, cfgSel_val]

theorem exec_rdreg_of_regRead {s : State} {c : Fin 4} {sel : Nat} {v : Word} (h : regRead s c sel = some v) :
    exec (.rdreg c sel) s = .next { s with pc := s.pc + 1, resp := v } := by
  show execRdreg c sel s = _
  rw [execRdreg, h]
  rfl

/-! ## Who changes a configuration register -/

/-- RESET clears every configuration register (R402). -/
@[simp] theorem cfgRead_resetUnit (s : State) (c : Fin 4) (r : Fin 16) : cfgRead (resetUnit s) c r = 0 := by
  simp [cfgRead, resetUnit]

/-- A WRCFG of another register leaves the register alone, and so does every command but WRCFG and RESET (R407). -/
theorem Effect.cfgRead_eq {s u : State} {i : Instr} (h : Effect s i u) {c : Fin 4} {r : Fin 16}
    (hwrcfg : ∀ data, i ≠ .wrcfg c r.val data) (hreset : i ≠ .reset) : cfgRead u c r = cfgRead s c r := by
  cases h with
  | @wrcfg d sel data q hsel =>
    have hother : ¬ (c = d ∧ r = q) := by
      rintro ⟨rfl, rfl⟩
      exact hwrcfg data (by rw [cfgSel_eq_some_iff.1 hsel])
    rw [cfgRead_cfgWrite, if_neg hother]
  | reset => exact absurd rfl hreset
  | nop | rdreg | modinit | modtick | rdmod | beginBurst | endBurst | tick => rfl
  | creset => exact cfgRead_oscWrite ..
  | render => exact cfgRead_withVoice ..

end Sys2Proof.Machine
end

section
/-! PROOFS. The statements of spec/40_control.md. -/

namespace Sys2Proof.Machine

/-- Settles O17: WRCFG and RESET by their effects; an error sets STATUS only, and `Effect.cfgRead_eq` speaks of the
other commands. -/
theorem configChangedByWrcfgAndResetOnly : Obligations.ConfigChangedByWrcfgAndResetOnly := by
  intro i s t c r h
  refine ⟨?_, ?_, fun hwrcfg hreset => ?_⟩
  · rintro data rfl
    cases h.symm.trans (exec_wrcfg_val c r data s)
    rw [cfgRead_retire, cfgRead_cfgWrite, if_pos ⟨rfl, rfl⟩]
  · rintro rfl
    cases h.symm.trans (execReset_eq s)
    rw [cfgRead_retire, cfgRead_resetUnit]
  · obtain ⟨e, rfl⟩ | ⟨u, hu, rfl⟩ := eq_of_exec_next h
    · exact cfgRead_raiseError e s c r
    · exact (cfgRead_retire u c r).trans (hu.cfgRead_eq hwrcfg hreset)

/-- Settles O12: zero is the word that `encode` gives NOP, so a step that takes it runs NOP. -/
theorem zeroWordIsNop : Obligations.ZeroWordIsNop := by
  have hzero : encode .nop = 0 := by decide
  have hdecode : decode 0 = .instr .nop := hzero ▸ decode_encode rfl
  exact ⟨hdecode, execNop_eq, fun _ _ hpending => stepRunsDecodedCommand _ _ _ _ hpending hdecode⟩

/-- Settles O15: CRESET is one write of the core's state registers. -/
theorem cresetResetsOneCore : Obligations.CresetResetsOneCore := by
  intro c s
  refine ⟨_, execCreset_eq c s, ?_, fun d hd => ?_, fun d r => ?_, rfl⟩
  · rw [oscRead_retire, oscRead_oscWrite, if_pos rfl]
    rfl
  · rw [oscRead_retire, oscRead_oscWrite, if_neg hd]
  · rw [cfgRead_retire, cfgRead_oscWrite]

/-- Settles O16: a WRCFG with a register number in range is one write of that register. -/
theorem wrcfgStoresTheWord : Obligations.WrcfgStoresTheWord := by
  intro c r data s
  refine ⟨_, exec_wrcfg_val c r data s, ?_, fun d q hother => ?_, fun d => ?_, rfl⟩
  · rw [cfgRead_retire, cfgRead_cfgWrite, if_pos ⟨rfl, rfl⟩]
  · rw [cfgRead_retire, cfgRead_cfgWrite, if_neg (mt Prod.mk_inj.2 hother)]
  · rw [oscRead_retire, oscRead_cfgWrite]

/-- Settles O18: a register number is evaluated to its register, and RDREG copies the register's view to RESP. -/
theorem rdregReadsTheRegister : Obligations.RdregReadsTheRegister := by
  intro c s
  have hstatus : regRead s c 0x23 = some (BitVec.ofNat 32 (s.status.toNat % 32)) :=
    congrArg some (statusView_eq_ofNat_mod s.status)
  exact ⟨fun r => exec_rdreg_of_regRead (regRead_val s c r), exec_rdreg_of_regRead rfl, exec_rdreg_of_regRead rfl,
    exec_rdreg_of_regRead rfl, exec_rdreg_of_regRead rfl, exec_rdreg_of_regRead rfl, exec_rdreg_of_regRead rfl,
    exec_rdreg_of_regRead rfl, exec_rdreg_of_regRead rfl, exec_rdreg_of_regRead hstatus, exec_rdreg_of_regRead rfl⟩

end Sys2Proof.Machine
end

section
/-! PROOFS. Sums that are exact in binary32, and a division by 64 that a multiplication by 64 undoes, but for a quotient
that underflows (spec/00_scope.md R15). -/

namespace Sys2Proof.F32

/-! ## Finite values -/

/-- A pattern is its sign and its magnitude bits. -/
theorem pack_sign_mag (x : Word) : pack (sign x) (mag x) = x := by
  apply BitVec.eq_of_toNat_eq
  have hx := x.isLt
  simp only [pack, sign, mag, BitVec.msb_eq_decide, BitVec.toNat_ofNat, decide_eq_true_eq]
  split <;> omega

theorem finite_pack (s : Bool) {m : Nat} (h : m < infMag) : Finite (pack s m) := by
  rwa [Finite, mag_pack s (h.trans (by decide))]

theorem units_le_of_finite {x : Word} (h : Finite x) : units x ≤ (2 ^ 25 - 2) * 2 ^ 252 := by
  rw [units_eq_magUnits, ← magUnits_infMag_pred]
  exact magUnits_strictMono.monotone (Nat.le_sub_one_of_lt h)

/-- The magnitude of a finite value is rounded to itself. -/
theorem roundMag_units_mul {x : Word} (h : Finite x) {den : Nat} (hd : 0 < den) :
    roundMag (units x * den) den = mag x := by
  have hle := units_le_of_finite h
  rw [units_eq_magUnits] at hle ⊢
  exact roundMag_magUnits_mul hd (hle.trans_lt (by decide))

/-- A difference is finite only where both operands are. -/
theorem finite_of_finite_sub {ν : NanSource} (hν : NanSource.Ok ν) {a b : Word} (h : Finite (sub ν a b)) :
    Finite a ∧ Finite b := by
  obtain ⟨hnan, hinf⟩ := not_nan_inf_of_finite h
  have hn : isNaN a = false ∧ isNaN b = false := by
    by_contra hn
    have hab : isNaN a = true ∨ isNaN b = true := by simpa [imp_iff_not_or, or_comm] using hn
    obtain ⟨-, hsub, -, -⟩ := operators_of_nan hν hab
    simp [hsub] at hnan
  rcases finite_or_isInf hn.1 with fa | ia <;> rcases finite_or_isInf hn.2 with fb | ib
  · exact ⟨fa, fb⟩
  · have hsub : sub ν a b = neg b := (operators_of_finite_inf hν fa ib).2.1
    simp [hsub, isInf_neg, ib] at hinf
  · have hsub : sub ν a b = a := (operators_of_inf_finite hν ia fb).2.1
    simp [hsub, ia] at hinf
  · have hsub := (operators_of_inf_inf hν ia ib).1
    split at hsub
    · simp [hsub.2] at hnan
    · simp [hsub.2, ia] at hinf

/-- A quotient by a finite value is finite only where the dividend is. -/
theorem finite_of_finite_div {ν : NanSource} (hν : NanSource.Ok ν) {a b : Word} (hb : Finite b)
    (h : Finite (div ν a b)) : Finite a := by
  obtain ⟨hnan, hinf⟩ := not_nan_inf_of_finite h
  have hna : isNaN a = false := by
    by_contra hna
    obtain ⟨-, -, -, hdiv⟩ := operators_of_nan hν (b := b) (.inl (eq_true_of_ne_false hna))
    simp [hdiv] at hnan
  refine (finite_or_isInf hna).resolve_right fun ia => ?_
  have hdiv : div ν a b = pack (sign a != sign b) infMag := (operators_of_inf_finite hν ia hb).2.2.1
  rw [hdiv, isInf, mag_pack _ (by decide), beq_self_eq_true] at hinf
  exact absurd hinf (by decide)

/-! ## Exact sums -/

/-- A sum that is a binary32 value is that value, the same bits where it is no zero. -/
theorem add_of_toInt_add_eq (ν : NanSource) {a b c : Word} (ha : Finite a) (hb : Finite b) (hc : Finite c)
    (h : toInt a + toInt b = toInt c) :
    Finite (add ν a b) ∧ toInt (add ν a b) = toInt c ∧ (isZero c = false → add ν a b = c) := by
  cases hz : isZero c with
  | true =>
    have h0 : toInt c = 0 := Int.natAbs_eq_zero.1 ((natAbs_toInt c).trans (isZero_eq_true_iff.1 hz))
    rw [add, addNaN_of_finite _ ha hb, h, h0, if_pos rfl]
    refine ⟨?_, ?_, nofun⟩ <;> split <;> decide
  | false =>
    have hpos : 0 < units c := Nat.pos_of_ne_zero fun h0 => by simp [isZero_eq_true_iff.2 h0] at hz
    have h0 : toInt c ≠ 0 := fun h0 => by rw [← natAbs_toInt, h0] at hpos; exact hpos.false
    have hsign : decide (toInt c < 0) = sign c := by
      rw [toInt_eq_withSign]
      simp [withSign_lt_zero_iff, hpos]
    have hadd : add ν a b = c := by
      have hround : roundMag (units c) 1 = mag c := by simpa using roundMag_units_mul hc one_pos
      rw [add, addNaN_of_finite _ ha hb, h, if_neg h0, hsign, natAbs_toInt, hround, pack_sign_mag]
    exact ⟨hadd ▸ hc, congrArg toInt hadd, fun _ => hadd⟩

/-! ## Small integers -/

theorem ofNat_64 : ofNat 64 = 0x42800000 := by decide +kernel

theorem sign_ofNat (n : Nat) : sign (ofNat n) = false := sign_pack false (roundMag_lt _ _)

theorem units_ofNat {n : Nat} (h : n ≤ 2 ^ 16) : units (ofNat n) = n * 2 ^ 149 := by
  rw [← natAbs_toInt, (ofNat_exact h).2]
  omega

/-- 0.0 times a finite value is a zero. -/
theorem mul_ofNat_zero (ν : NanSource) {x : Word} (h : Finite x) :
    Finite (mul ν (ofNat 0) x) ∧ toInt (mul ν (ofNat 0) x) = 0 := by
  rw [mul_eq_pack ν (ofNat_exact (by decide)).1 h, units_ofNat (by decide), Nat.zero_mul, Nat.zero_mul, roundMag_zero,
    toInt_pack _ (by decide)]
  exact ⟨finite_pack _ (by decide), by simp [withSign]⟩

/-! ## A division by 64 and a multiplication by 64 -/

/-- 64 times a magnitude is a magnitude. -/
theorem exists_magUnits_eq_mul_64 (m : Nat) : ∃ k, magUnits k = 64 * magUnits m := by
  obtain ⟨e, s, rfl, hs, hn⟩ := exists_significand m
  obtain ⟨k, hk⟩ := exists_magUnits_eq (e + 6) s hs
  refine ⟨k, ?_⟩
  rw [hk, magUnits_significand hs.le hn]
  ring

/-- A magnitude over 64 is within half a unit of a magnitude, and is one where it is an integer. -/
theorem exists_magUnits_near_div_64 (m : Nat) :
    ∃ k, (64 * magUnits k - magUnits m : Int).natAbs ≤ 32 ∧ (64 ∣ magUnits m → 64 * magUnits k = magUnits m) := by
  obtain ⟨e, s, rfl, hs, hn⟩ := exists_significand m
  rw [magUnits_significand hs.le hn]
  rcases Nat.lt_or_ge e 6 with he | he
  · have hsmall : s * 2 ^ e < 2 ^ 24 * 2 ^ 5 :=
      Nat.mul_lt_mul_of_lt_of_le hs (Nat.pow_le_pow_right (by decide) (by omega)) (Nat.two_pow_pos 5)
    obtain ⟨k, hk⟩ := exists_magUnits_eq 0 ((s * 2 ^ e + 32) / 64) (by omega)
    refine ⟨k, ?_⟩
    rw [hk]
    generalize s * 2 ^ e = u at *
    omega
  · obtain ⟨k, hk⟩ := exists_magUnits_eq (e - 6) s hs
    have hexact : 64 * magUnits k = s * 2 ^ e := by
      rw [hk, ← Nat.sub_add_cancel he, Nat.add_sub_cancel, Nat.pow_add]
      ring
    exact ⟨k, by omega, fun _ => hexact⟩

/-- A finite value over 64 is rounded to within half a unit, and exactly where the quotient is an integer. -/
theorem roundMag_div_64 {x : Word} (h : Finite x) :
    roundMag (units x * 2 ^ 149) (64 * 2 ^ 149) < infMag
    ∧ (64 * magUnits (roundMag (units x * 2 ^ 149) (64 * 2 ^ 149)) - units x : Int).natAbs ≤ 32
    ∧ (64 ∣ units x → 64 * magUnits (roundMag (units x * 2 ^ 149) (64 * 2 ^ 149)) = units x) := by
  have hle := units_le_of_finite h
  have hfin : roundMag (units x * 2 ^ 149) (64 * 2 ^ 149) < infMag := roundMag_lt_infMag (by decide) (by omega)
  obtain ⟨k, hnear, hexact⟩ := exists_magUnits_near_div_64 (mag x)
  obtain ⟨hround, -⟩ := roundMag_nearest (units x * 2 ^ 149) (by decide) hfin k
  rw [← units_eq_magUnits] at hnear hexact
  generalize roundMag (units x * 2 ^ 149) (64 * 2 ^ 149) = r at *
  push_cast at hround
  refine ⟨hfin, by omega, fun hdvd => ?_⟩
  have := hexact hdvd
  omega

/-- The quotient of a finite value by 64.0. -/
theorem div_ofNat_64 (ν : NanSource) {d : Word} (h : Finite d) :
    div ν d (ofNat 64) = pack (sign d) (roundMag (units d * 2 ^ 149) (64 * 2 ^ 149)) := by
  have hzero : isZero (ofNat 64) = false := by rw [ofNat_64]; decide
  have hunits : units (ofNat 64) = 64 * 2 ^ 149 := units_ofNat (by decide)
  rw [div_eq_pack ν h (ofNat_exact (by decide)).1 hzero, hunits, sign_ofNat, Bool.bne_false]

/-- The product of 64.0 and a finite value is exact where it is a magnitude. -/
theorem mul_ofNat_64 (μ : NanSource) (s : Bool) {r k : Nat} (hr : r < infMag) (hk : k < infMag)
    (h : magUnits k = 64 * magUnits r) : mul μ (ofNat 64) (pack s r) = pack s k := by
  have hr31 : r < 2 ^ 31 := hr.trans (by decide)
  have hk31 : k < 2 ^ 31 := hk.trans (by decide)
  have hunits : units (ofNat 64) * units (pack s r) = units (pack s k) * 2 ^ 149 := by
    rw [units_ofNat (by decide), units_pack s hr31, units_pack s hk31, h]
    ring
  rw [mul_eq_pack μ (ofNat_exact (by decide)).1 (finite_pack s hr), hunits, roundMag_units_mul (finite_pack s hk)
    (Nat.two_pow_pos 149), mag_pack s hk31, sign_ofNat, sign_pack s hr31, Bool.false_bne]

/-- A finite value divided by 64 and multiplied by 64 is back within 32 units of 2^-149, and comes back itself where it
is a multiple of 64 of them. -/
theorem mul_div_64 (ν μ : NanSource) {d : Word} (h : Finite d) :
    Finite (div ν d (ofNat 64)) ∧ Finite (mul μ (ofNat 64) (div ν d (ofNat 64)))
    ∧ (toInt (mul μ (ofNat 64) (div ν d (ofNat 64))) - toInt d).natAbs ≤ 32
    ∧ ((64 : Int) ∣ toInt d → mul μ (ofNat 64) (div ν d (ofNat 64)) = d) := by
  obtain ⟨hr, hnear, hexact⟩ := roundMag_div_64 h
  rw [div_ofNat_64 ν h]
  generalize roundMag (units d * 2 ^ 149) (64 * 2 ^ 149) = r at *
  obtain ⟨k, hk⟩ := exists_magUnits_eq_mul_64 r
  have hle := units_le_of_finite h
  have hkinf : k < infMag := by
    rw [← magUnits_strictMono.lt_iff_lt, magUnits_infMag]
    omega
  rw [mul_ofNat_64 μ (sign d) hr hkinf hk]
  refine ⟨finite_pack _ hr, finite_pack _ hkinf, ?_, fun hdvd => ?_⟩
  · have hsub := natAbs_withSign_sub (sign d) (magUnits k) 1 (units d)
    rw [toInt_pack _ (hkinf.trans (by decide)), toInt_eq_withSign]
    simp only [Nat.cast_one, mul_one] at hsub
    omega
  · have hkd : magUnits k = magUnits (mag d) := by
      rw [hk, hexact (by rwa [← natAbs_toInt, ← Int.natCast_dvd]), units_eq_magUnits]
    rw [magUnits_strictMono.injective hkd, pack_sign_mag]

end Sys2Proof.F32
end

section
/-! PROOFS. Modulation slots: the commands with a slot number in range, what changes a slot, and what it reads along its
ramp (spec/41_modbus.md). -/

namespace Sys2Proof.Machine

/-! ## Slot numbers -/

@[simp] theorem slotSel_val (i : Fin 21) : slotSel i.val = some i := by
  rw [slotSel, dif_pos i.isLt]

theorem writableSlot_val {i : Fin 21} (h : i ≠ 0) : writableSlot i.val = some i := by
  rw [writableSlot, if_neg (Fin.val_ne_zero_iff.2 h), slotSel_val]

/-- No command may write slot 0 (R450, R454). -/
theorem ne_zero_of_writableSlot {sel : Nat} {i : Fin 21} (h : writableSlot sel = some i) : i ≠ 0 := by
  rintro rfl
  unfold writableSlot slotSel at h
  split at h
  · cases h
  · next hsel =>
    split at h
    · exact hsel (Fin.mk.inj_iff.1 (Option.some.inj h))
    · cases h

theorem atTickBoundary_iff {s : State} : atTickBoundary s = true ↔ s.inBurst = false ∧ s.offset = 0 := by
  simp [atTickBoundary]

/-! ## A write of a slot -/

@[simp] theorem modSlot_modWrite_same (s : State) (i : Fin 21) (m : ModSlot) : modSlot (modWrite s i m) i = m := by
  rw [modSlot_modWrite, if_pos rfl]

theorem modSlot_modWrite_other (s : State) {i j : Fin 21} (m : ModSlot) (h : j ≠ i) :
    modSlot (modWrite s i m) j = modSlot s j := by
  rw [modSlot_modWrite, if_neg h]

/-! ## The commands with a slot number in range -/

theorem exec_modinit_val {i : Fin 21} (hi : i ≠ 0) (data : Word) {s : State} (h : atTickBoundary s = true) :
    exec (.modinit i.val data) s
      = .next (retire (modWrite s i { value := data, next := data, delta := F32.posZero })) := by
  show execModinit i.val data s = _
  simp only [execModinit, writableSlot_val hi, h, if_true]

theorem exec_modtick_val {i : Fin 21} (hi : i ≠ 0) (data : Word) {s : State} (h : atTickBoundary s = true) :
    exec (.modtick i.val data) s
      = .next (retire (modWrite s i (tickedSlot (Config.params.nan s.pc) (modSlot s i) data))) := by
  show execModtick i.val data s = _
  simp only [execModtick, modtickWith, writableSlot_val hi, h, if_true]

theorem exec_rdmod_of_slotField {s : State} {i : Fin 21} {aux : Nat} {v : Word}
    (h : slotField (modSlot s i) aux = some v) :
    exec (.rdmod i.val aux) s = .next { s with pc := s.pc + 1, resp := v } := by
  show execRdmod i.val aux s = _
  simp only [execRdmod, slotSel_val, h]
  rfl

/-! ## Slot 0 (R452) -/

theorem modSlot_resetUnit_zero (s : State) : modSlot (resetUnit s) 0 = ModSlot.constantOne := by
  simp [modSlot, resetUnit, ModSlot.constantOne]

/-- MODINIT and MODTICK write another slot, and RESET writes the constant. -/
theorem Effect.modSlot_zero {s u : State} {i : Instr} (h : Effect s i u) (hs : modSlot s 0 = ModSlot.constantOne) :
    modSlot u 0 = ModSlot.constantOne := by
  cases h with
  | nop | creset | wrcfg | rdreg | rdmod | beginBurst | render | endBurst | tick => exact hs
  | reset => exact modSlot_resetUnit_zero s
  | modinit hsel | modtick hsel =>
    exact (modSlot_modWrite_other s _ (ne_zero_of_writableSlot hsel).symm).trans hs

/-- Slot 0 reads 1.0 at every offset of the control period. -/
theorem modRead_constantOne (ν : NanSource) {k : Nat} (h : k ≤ 64) : modRead ν ModSlot.constantOne k = F32.one := by
  obtain ⟨hnan, hinf⟩ := F32.not_nan_inf_of_finite (F32.ofNat_exact (n := k) (by omega)).1
  have hmul : F32.mul ν (F32.ofNat k) F32.posZero = F32.posZero := F32.mul_posZero ν hnan hinf (F32.sign_ofNat k)
  show F32.add ν F32.one (F32.mul ν (F32.ofNat k) F32.posZero) = F32.one
  rw [hmul, F32.add_one_posZero]

/-! ## The ramp of a ticked slot (R454, R456) -/

@[simp] theorem tickedSlot_value (ν : NanSource) (m : ModSlot) (data : Word) :
    (tickedSlot ν m data).value = m.next := rfl

@[simp] theorem tickedSlot_next (ν : NanSource) (m : ModSlot) (data : Word) : (tickedSlot ν m data).next = data := rfl

theorem tickedSlot_delta (ν : NanSource) (m : ModSlot) (data : Word) :
    (tickedSlot ν m data).delta = F32.div ν (F32.sub ν data m.next) 0x42800000 := by
  rw [← F32.ofNat_64]
  rfl

section
variable {ν : NanSource} (hν : NanSource.Ok ν) (μ : NanSource) {m : ModSlot} {data : Word}
include hν

/-- With a finite delta a slot reads its value at offset 0, where the delta is multiplied by zero. -/
theorem modRead_tickedSlot_zero (h : F32.Finite (tickedSlot ν m data).delta) :
    F32.Finite (modRead μ (tickedSlot ν m data) 0)
    ∧ F32.toInt (modRead μ (tickedSlot ν m data) 0) = F32.toInt m.next
    ∧ (F32.isZero m.next = false → modRead μ (tickedSlot ν m data) 0 = m.next) := by
  have hsub : F32.Finite (F32.sub ν data m.next) := F32.finite_of_finite_div hν (F32.ofNat_exact (by decide)).1 h
  have hnext : F32.Finite m.next := (F32.finite_of_finite_sub hν hsub).2
  obtain ⟨hfin, hzero⟩ := F32.mul_ofNat_zero μ h
  exact F32.add_of_toInt_add_eq μ hnext hfin hnext (by rw [hzero, add_zero, tickedSlot_value])

/-- Where the difference is exact and comes back from its division by 64, a slot reads its next value at offset 64. -/
theorem modRead_tickedSlot_64 (hsub : F32.Finite (F32.sub ν data m.next))
    (hexact : F32.toInt (F32.sub ν data m.next) = F32.toInt data - F32.toInt m.next)
    (hdvd : (64 : Int) ∣ F32.toInt (F32.sub ν data m.next)) :
    F32.Finite (modRead μ (tickedSlot ν m data) 64)
    ∧ F32.toInt (modRead μ (tickedSlot ν m data) 64) = F32.toInt data := by
  obtain ⟨hdata, hnext⟩ := F32.finite_of_finite_sub hν hsub
  have hback : F32.mul μ (F32.ofNat 64) (tickedSlot ν m data).delta = F32.sub ν data m.next :=
    (F32.mul_div_64 ν μ hsub).2.2.2 hdvd
  obtain ⟨hfin, hval, -⟩ := F32.add_of_toInt_add_eq μ hnext hsub hdata (by omega)
  rw [modRead, hback]
  exact ⟨hfin, hval⟩

end

end Sys2Proof.Machine
end

section
/-! PROOFS. Modes, waveforms, roles and slots by their numbers (spec/43_render.md R552 to R554, spec/41_modbus.md
R453). -/

namespace Sys2Proof.Machine

section
variable {x : Word} {k : Int}

theorem decodeMode_of_rne (h : F32.rne x = some k) : decodeMode x = Mode.ofInt k := by
  simp only [decodeMode, h]

theorem number_decodeMode (h : F32.rne x = some k) (h0 : 0 ≤ k) (h11 : k ≤ 11) : ((decodeMode x).number : Int) = k := by
  rw [decodeMode_of_rne h]
  interval_cases k <;> rfl

theorem number_decodeWave (h : F32.rne x = some k) (h0 : 0 ≤ k) (h4 : k ≤ 4) : ((decodeWave x).number : Int) = k := by
  simp only [decodeWave, h]
  interval_cases k <;> rfl

theorem decodeWave_of_gt (h : F32.rne x = some k) (h4 : 4 < k) : decodeWave x = .clipped := by
  simp only [decodeWave, h]
  rw [if_neg (by omega), if_neg (by omega), if_neg (by omega), if_neg (by omega)]

theorem decodeSync_of_pos (h : F32.rne x = some k) (h1 : 1 ≤ k) : decodeSync x = .slave := by
  simp only [decodeSync, h]
  rw [if_neg (by omega)]

theorem val_srcIdx (h : F32.rne x = some k) (h0 : 0 ≤ k) (h20 : k ≤ 20) : ((srcIdx x).val : Int) = k := by
  simp only [srcIdx, h]
  rw [dif_pos ⟨h0, by omega⟩]
  exact Int.toNat_of_nonneg h0

end

theorem Mode.ofInt_of_out {k : Int} (h : k < 0 ∨ 11 < k) : Mode.ofInt k = .off := by
  unfold Mode.ofInt
  split
  case h_12 => rfl
  all_goals omega

section
variable {x : Word}

/-- A selector that decodes to no mode number means mode 0, `BAD` among them (R552). -/
theorem decodeMode_of_out (h : ∀ k : Int, F32.rne x = some k → k < 0 ∨ 11 < k) : decodeMode x = .off := by
  cases hr : F32.rne x with
  | none => simp only [decodeMode, hr]
  | some k => rw [decodeMode_of_rne hr, Mode.ofInt_of_out (h k hr)]

theorem decodeWave_of_neg (h : ∀ k : Int, F32.rne x = some k → k < 0) : decodeWave x = .saw := by
  cases hr : F32.rne x with
  | none => simp only [decodeWave, hr]
  | some k => simp only [decodeWave, hr, if_pos (h k hr).le]

theorem decodeSync_of_nonpos (h : ∀ k : Int, F32.rne x = some k → k ≤ 0) : decodeSync x = .master := by
  cases hr : F32.rne x with
  | none => simp only [decodeSync, hr]
  | some k => simp only [decodeSync, hr, if_pos (h k hr)]

theorem srcIdx_of_out (h : ∀ k : Int, F32.rne x = some k → k < 0 ∨ 20 < k) : srcIdx x = 0 := by
  cases hr : F32.rne x with
  | none => simp only [srcIdx, hr]
  | some k =>
    have hout := h k hr
    simp only [srcIdx, hr]
    rw [dif_neg (by omega)]

end

end Sys2Proof.Machine
end

section
/-! PROOFS. The relations between the unit's registers, which every command keeps (spec/10_state.md R108, R109, R112;
spec/42_burst.md R500, R502). -/

namespace Sys2Proof.Machine

theorem ErrorBit.bit_toNat_lt (e : ErrorBit) : e.bit.toNat < 32 := by
  cases e <;> decide

theorem offset_zero_position (n : Fin (Config.CP + 1)) : (0 : Word).toNat + n.val ≤ Config.CP := by
  show 0 + n.val ≤ Config.CP
  rw [Nat.zero_add]
  exact Nat.le_of_lt_succ n.isLt

theorem closed_iff_zero : false = true ↔ (0 : Fin (Config.CP + 1)) ≠ 0 := by decide

/-- BEGIN takes a count of 1 to 64 that ends within the control period (R500). -/
theorem badCount_eq_false_iff {s : State} {n : Nat} :
    badCount s n = false ↔ n ≠ 0 ∧ n ≤ Config.CP ∧ s.offset.toNat + n ≤ Config.CP := by
  simp [badCount, and_assoc]

/-- END moves OFFSET to the end of the burst, without a wrap (R503). -/
theorem toNat_closeBurst_offset {s : State} (h : s.offset.toNat + s.burstN.val ≤ Config.CP) (len : Nat) :
    (closeBurst len s).offset.toNat = s.offset.toNat + s.burstN.val := by
  have hsum : s.offset.toNat + s.burstN.val ≤ 64 := h
  show (s.offset + BitVec.ofNat 32 s.burstN.val).toNat = _
  simp only [BitVec.toNat_add, BitVec.toNat_ofNat]
  omega

theorem State.UnitOk.raise {s : State} (h : s.UnitOk) (e : ErrorBit) :
    State.UnitOk { s with status := s.status ||| e.bit } where
  slotZero := h.slotZero
  position := h.position
  openBurst := h.openBurst
  statusBits := by
    rw [BitVec.toNat_or]
    exact Nat.or_lt_two_pow (n := 5) h.statusBits e.bit_toNat_lt

/-- Only RESET, BEGIN, END and TICK move OFFSET, BURST_N or INBURST, and only RESET and an error STATUS. -/
theorem Effect.unitOk {s u : State} {i : Instr} (h : Effect s i u) (hs : s.UnitOk) : u.UnitOk := by
  have hslot : modSlot u 0 = ModSlot.constantOne := h.modSlot_zero hs.slotZero
  cases h with
  | nop | creset | wrcfg | rdreg | modinit | modtick | rdmod | render =>
    exact ⟨hslot, hs.position, hs.openBurst, hs.statusBits⟩
  | reset => exact ⟨hslot, offset_zero_position 0, closed_iff_zero, (by decide : 0 < 32)⟩
  | @beginBurst n hclosed hcount =>
    obtain ⟨hn0, hn, hposition⟩ := badCount_eq_false_iff.1 hcount
    have hval : (Fin.ofNat (Config.CP + 1) n).val = n := Nat.mod_eq_of_lt (Nat.lt_succ_of_le hn)
    exact ⟨hslot, hval.symm ▸ hposition, iff_of_true rfl fun h0 => hn0 (hval.symm.trans (congrArg Fin.val h0)),
      hs.statusBits⟩
  | endBurst =>
    have hoffset := toNat_closeBurst_offset hs.position Config.params.busLen
    exact ⟨hslot, hoffset.trans_le hs.position, closed_iff_zero, hs.statusBits⟩
  | tick => exact ⟨hslot, offset_zero_position s.burstN, hs.openBurst, hs.statusBits⟩

end Sys2Proof.Machine
end

section
/-! PROOFS. The statements of spec/41_modbus.md. -/

namespace Sys2Proof.Machine

/-- Settles O52: an error sets one of the five STATUS bits (`State.UnitOk.raise`), and `Effect.unitOk` speaks of the
effects. -/
theorem stepKeepsUnitRegisters : Obligations.StepKeepsUnitRegisters :=
  fun _ _ => step_keeps (fun _ _ _ h => ⟨h.slotZero, h.position, h.openBurst, h.statusBits⟩) (fun _ e h => h.raise e)
    Effect.unitOk

/-- Settles O22: a MODTICK at a boundary is one write of its slot, and a unit's NaN source answers NaNs. -/
theorem modtickMovesTheSlot : Obligations.ModtickMovesTheSlot := by
  intro i data s hi hclosed hoffset
  have hnan : NanSource.Ok (Config.params.nan s.pc) := Config.params_ok.nan_isNaN s.pc
  have hboundary : atTickBoundary s = true := atTickBoundary_iff.2 ⟨hclosed, hoffset⟩
  refine ⟨_, _, exec_modtick_val hi data hboundary, hnan, ?_, ?_, ?_, fun j hj => ?_, rfl⟩
  · rw [modSlot_retire, modSlot_modWrite_same, tickedSlot_value]
  · rw [modSlot_retire, modSlot_modWrite_same, tickedSlot_next]
  · rw [modSlot_retire, modSlot_modWrite_same, tickedSlot_delta]
  · rw [modSlot_retire, modSlot_modWrite_other s _ hj]

/-- Settles O24: no command's effect moves slot 0 off the constant (`Effect.modSlot_zero`), an error changes no slot,
and 1.0 plus a multiple of +0.0 is 1.0. -/
theorem slotZeroIsConstant : Obligations.SlotZeroIsConstant := by
  refine ⟨by decide, fun i s t hs h => ?_, ?_⟩
  · obtain ⟨e, rfl⟩ | ⟨u, hu, rfl⟩ := eq_of_exec_next h
    · exact (modSlot_raiseError e s 0).trans hs
    · exact (modSlot_retire u 0).trans (hu.modSlot_zero hs)
  · rintro ν m k rfl hk
    exact modRead_constantOne ν hk

/-- Settles O26: `e` is the rounded difference divided by 64 and multiplied by 64 (`F32.mul_div_64`). -/
theorem rampReachesNext : Obligations.RampReachesNext := by
  intro ν μ m data hν
  refine ⟨modRead_tickedSlot_zero hν μ, fun hsub => ?_, modRead_tickedSlot_64 hν μ⟩
  obtain ⟨hdelta, hfin, hnear, hback⟩ := F32.mul_div_64 ν μ hsub
  exact ⟨hdelta, _, hfin, hnear, hback, rfl⟩

/-- Settles O37: a case for each selector in and out of its range; the numbers of the names by evaluation. -/
theorem selectorsDecode : Obligations.SelectorsDecode :=
  ⟨fun _ => ⟨fun _ => number_decodeMode, decodeMode_of_out, fun _ => number_decodeWave, fun _ => decodeWave_of_gt,
    decodeWave_of_neg, fun _ => decodeSync_of_pos, decodeSync_of_nonpos, fun _ => val_srcIdx, srcIdx_of_out⟩,
    by decide, by decide⟩

/-- Settles O21: a MODINIT at a boundary is one write of its slot. -/
theorem modinitSetsTheSlot : Obligations.ModinitSetsTheSlot := by
  intro i data s hi hclosed hoffset
  refine ⟨_, exec_modinit_val hi data (atTickBoundary_iff.2 ⟨hclosed, hoffset⟩), ?_, fun j hj => ?_, rfl⟩
  · rw [modSlot_retire, modSlot_modWrite_same]
    rfl
  · rw [modSlot_retire, modSlot_modWrite_other s _ hj]

/-- Settles O23: RDMOD copies the field that `aux` names to RESP. -/
theorem rdmodReadsTheField : Obligations.RdmodReadsTheField :=
  fun _ _ => ⟨exec_rdmod_of_slotField rfl, exec_rdmod_of_slotField rfl, exec_rdmod_of_slotField rfl⟩

end Sys2Proof.Machine
end

section
/-! PROOFS. What the sequencing commands do in each burst state, and what END makes of a bus word
(spec/42_burst.md). -/

namespace Sys2Proof.Machine

/-! ## The two errors of R508 -/

theorem raiseError_sequence (s : State) :
    raiseError .sequence s = { s with pc := s.pc + 1, status := s.status ||| 0x10 } := rfl

theorem raiseError_badCount (s : State) :
    raiseError .badCount s = { s with pc := s.pc + 1, status := s.status ||| 0x08 } := rfl

/-! ## The guards -/

theorem badCount_eq_true_iff {s : State} {n : Nat} :
    badCount s n = true ↔ n = 0 ∨ Config.CP < n ∨ Config.CP < s.offset.toNat + n := by
  simp [badCount, or_assoc]

/-- A count that BEGIN takes is stored as it is (R500). -/
theorem val_ofNat_of_badCount {s : State} {n : Nat} (h : badCount s n = false) :
    (Fin.ofNat (Config.CP + 1) n).val = n :=
  Nat.mod_eq_of_lt (Nat.lt_succ_of_le (badCount_eq_false_iff.1 h).2.1)

theorem atTickBoundary_eq_false_iff {s : State} : atTickBoundary s = false ↔ s.inBurst = true ∨ s.offset ≠ 0 := by
  simp [atTickBoundary, or_iff_not_imp_left]

theorem offset_toNat_eq_CP_iff {s : State} : s.offset.toNat = Config.CP ↔ s.offset = 64 :=
  BitVec.toNat_inj (x := s.offset) (y := 64)

/-! ## The commands in each burst state -/

section
variable {s : State}

theorem exec_begin_of_open (hopen : s.inBurst = true) (n : Nat) :
    exec (.beginBurst n) s = .next (raiseError .sequence s) :=
  if_pos hopen

theorem exec_begin_of_badCount (hclosed : s.inBurst = false) {n : Nat} (hcount : badCount s n = true) :
    exec (.beginBurst n) s = .next (raiseError .badCount s) :=
  (if_neg (ne_true_of_eq_false hclosed)).trans (if_pos hcount)

theorem exec_begin_of_count (hclosed : s.inBurst = false) {n : Nat} (hcount : badCount s n = false) :
    exec (.beginBurst n) s
      = .next (retire { s with burstN := Fin.ofNat (Config.CP + 1) n, inBurst := true, syncBuf := [] }) :=
  (if_neg (ne_true_of_eq_false hclosed)).trans (if_neg (ne_true_of_eq_false hcount))

theorem exec_end_of_open (hopen : s.inBurst = true) :
    exec .endBurst s = .next (retire (closeBurst Config.params.busLen s)) :=
  if_pos hopen

theorem exec_end_of_closed (hclosed : s.inBurst = false) : exec .endBurst s = .next (raiseError .sequence s) :=
  if_neg (ne_true_of_eq_false hclosed)

theorem exec_render_of_closed (hclosed : s.inBurst = false) (c : Fin 4) :
    exec (.render c) s = .next (raiseError .sequence s) :=
  if_neg (ne_true_of_eq_false hclosed)

theorem exec_tick_of_end (hclosed : s.inBurst = false) (hoffset : s.offset = 64) :
    exec .tick s = .next (retire { s with offset := 0 }) := by
  refine if_neg ?_
  simp [hclosed, offset_toNat_eq_CP_iff.2 hoffset]

theorem exec_tick_of_not_end (h : s.inBurst = true ∨ s.offset ≠ 64) :
    exec .tick s = .next (raiseError .sequence s) := by
  refine if_pos ?_
  simpa [offset_toNat_eq_CP_iff] using h

theorem exec_modinit_of_not_boundary {i : Fin 21} (hi : i ≠ 0) (data : Word) (h : atTickBoundary s = false) :
    exec (.modinit i.val data) s = .next (raiseError .sequence s) := by
  show execModinit i.val data s = _
  simp only [execModinit, writableSlot_val hi, h, Bool.false_eq_true, if_false]

theorem exec_modtick_of_not_boundary {i : Fin 21} (hi : i ≠ 0) (data : Word) (h : atTickBoundary s = false) :
    exec (.modtick i.val data) s = .next (raiseError .sequence s) := by
  show execModtick i.val data s = _
  simp only [execModtick, modtickWith, writableSlot_val hi, h, Bool.false_eq_true, if_false]

end

/-! ## What stands after a command -/

/-- END moves each bus down by the burst length (R503). -/
theorem busRead_closeBurst (len : Nat) (s : State) (b : Bus) (j : Nat) :
    busRead (closeBurst len s) b j = if j + s.burstN.val < len then busRead s b (j + s.burstN.val) else busReset := by
  cases b with
  | A => exact Mem.read_shiftDown busReset len s.burstN.val s.busA j
  | B => exact Mem.read_shiftDown busReset len s.burstN.val s.busB j

/-- BEGIN opens a burst only with a count that is not 0; RESET and END leave none open; the other commands leave
INBURST and BURST_N alone. -/
theorem Effect.burstN_pos {s u : State} {i : Instr} (h : Effect s i u)
    (hs : s.inBurst = true → 1 ≤ s.burstN.val) : u.inBurst = true → 1 ≤ u.burstN.val := by
  cases h with
  | nop | creset | wrcfg | rdreg | modinit | modtick | rdmod | render | tick => exact hs
  | reset | endBurst => exact nofun
  | beginBurst _ hcount =>
    intro _
    exact (val_ofNat_of_badCount hcount).symm ▸ Nat.one_le_iff_ne_zero.2 (badCount_eq_false_iff.1 hcount).1

end Sys2Proof.Machine
end

section
/-! PROOFS. The statements of spec/42_burst.md. -/

namespace Sys2Proof.Machine

/-- Settles O28: a count of 0 is a bad count, and `Effect.burstN_pos` speaks of the commands' effects. -/
theorem zeroBurstRefused : Obligations.ZeroBurstRefused := by
  refine ⟨fun s hclosed => ?_, fun i s t hs h => ?_⟩
  · rw [exec_begin_of_badCount hclosed (badCount_eq_true_iff.2 (.inl rfl)), raiseError_badCount]
  · obtain ⟨e, rfl⟩ | ⟨u, hu, rfl⟩ := eq_of_exec_next h
    · rwa [raiseError_inBurst, raiseError_burstN]
    · rw [retire_inBurst, retire_burstN]
      exact hu.burstN_pos hs

/-- Settles O30: a bus word after END is the one `BURST_N` words up, or +0.0 where the bus ends before it
(`busRead_closeBurst`). -/
theorem endShiftsTheBuses : Obligations.EndShiftsTheBuses := by
  intro s hopen
  refine ⟨_, exec_end_of_open hopen, fun b j hin => ?_, fun b j _ hout => ?_, rfl⟩
  · rw [busRead_retire, busRead_closeBurst, if_pos hin]
  · rw [busRead_retire, busRead_closeBurst, if_neg (Nat.not_lt.2 hout)]
    rfl

/-- Settles O27: the count is stored as it is, and the empty SYNC_BUF reads −1.0 everywhere. -/
theorem beginOpensTheBurst : Obligations.BeginOpensTheBurst := by
  intro n s hclosed hpos hfit
  have hcount : badCount s n = false :=
    badCount_eq_false_iff.2 ⟨Nat.one_le_iff_ne_zero.1 hpos, le_of_add_le_right hfit, hfit⟩
  exact ⟨_, exec_begin_of_count hclosed hcount, val_ofNat_of_badCount hcount, rfl, Mem.read_nil syncReset, rfl⟩

/-- Settles O29: BEGIN looks at INBURST first, and at its count only with no burst open. -/
theorem beginRefusals : Obligations.BeginRefusals := by
  refine fun n s => ⟨fun hopen => ?_, fun hclosed hcount => ?_⟩
  · rw [exec_begin_of_open hopen, raiseError_sequence]
  · rw [exec_begin_of_badCount hclosed (badCount_eq_true_iff.2 hcount), raiseError_badCount]

/-- Settles O31: with no burst open and OFFSET 64, TICK's guard lets it complete. -/
theorem tickReturnsOffsetToZero : Obligations.TickReturnsOffsetToZero :=
  fun _ => exec_tick_of_end

/-- Settles O32: the refusing case of each command in turn; a slot other than 0 passes BAD_SEL. -/
theorem sequenceErrors : Obligations.SequenceErrors := by
  intro s
  rw [← raiseError_sequence s]
  refine ⟨fun i data hi hstate => ?_, fun n hopen => exec_begin_of_open hopen n,
    fun c hclosed => exec_render_of_closed hclosed c, exec_end_of_closed, exec_tick_of_not_end⟩
  have hboundary := atTickBoundary_eq_false_iff.2 hstate
  exact ⟨exec_modinit_of_not_boundary hi data hboundary, exec_modtick_of_not_boundary hi data hboundary⟩

end Sys2Proof.Machine
end

section
/-! PROOFS. Rounding keeps the order of an exact result and a binary32 value, and what that says of sums, differences and
products of values in a range (spec/00_scope.md R15, R16). -/

namespace Sys2Proof.F32

/-! ## Comparisons as comparisons of integers -/

theorem le_iff_toInt {a b : Word} (ha : isNaN a = false) (hb : isNaN b = false) :
    le a b = true ↔ toInt a ≤ toInt b := by
  rw [le_iff, ← not_lt, order_lt_order_iff_toInt, not_lt]
  simp [ha, hb]

theorem lt_iff_toInt {a b : Word} (ha : isNaN a = false) (hb : isNaN b = false) :
    lt a b = true ↔ toInt a < toInt b := by
  rw [lt_iff, order_lt_order_iff_toInt]
  simp [ha, hb]

theorem lt_le_trans {a b c : Word} (h : lt a b = true) (h' : le b c = true) : lt a c = true := by
  rw [lt_iff] at *
  rw [le_iff] at h'
  exact ⟨h.1, h'.2.1, h.2.2.trans_le h'.2.2⟩

theorem le_lt_trans {a b c : Word} (h : le a b = true) (h' : lt b c = true) : lt a c = true := by
  rw [lt_iff] at *
  rw [le_iff] at h
  exact ⟨h.1, h'.2.1, h.2.2.trans_lt h'.2.2⟩

/-- Of two numbers the one that is not at least the other is less. -/
theorem lt_of_le_eq_false {a b : Word} (ha : isNaN a = false) (hb : isNaN b = false) (h : le b a = false) :
    lt a b = true := by
  rw [lt_iff_toInt ha hb, ← not_le, ← le_iff_toInt hb ha, h]
  exact Bool.false_ne_true

/-- `x` is a number from `lo` to `hi`. -/
abbrev Within (lo hi x : Word) : Prop := le lo x = true ∧ le x hi = true

theorem Within.notNaN {lo hi x : Word} (h : Within lo hi x) : isNaN x = false := (le_iff.1 h.1).2.1

theorem Within.finite {lo hi x : Word} (h : Within lo hi x) (hlo : Finite lo) (hhi : Finite hi) : Finite x := by
  have hinf := order_of_finite_bounds hlo
  have hinf' := order_of_finite_bounds hhi
  obtain ⟨-, -, hle⟩ := le_iff.1 h.1
  obtain ⟨-, -, hle'⟩ := le_iff.1 h.2
  refine (finite_or_isInf h.notNaN).resolve_right fun hx => ?_
  have hends : order x = -(infMag : Int) ∨ order x = infMag := by
    rw [order_of_isInf hx]
    cases sign x
    · exact .inr rfl
    · exact .inl rfl
  omega

theorem within_iff_toInt {lo hi x : Word} (hlo : isNaN lo = false) (hhi : isNaN hi = false) (hx : isNaN x = false) :
    Within lo hi x ↔ toInt lo ≤ toInt x ∧ toInt x ≤ toInt hi := by
  rw [Within, le_iff_toInt hlo hx, le_iff_toInt hx hhi]

/-! ## Rounding keeps the order -/

/-- A result on one side of a binary32 value is rounded to that side of it, or to the value itself. -/
theorem IsRounded.compare {r c : Word} {num : Int} {den : Nat} (h : IsRounded r num den) (hd : 0 < den)
    (hc : Finite c) : (toInt c * den ≤ num → le c r = true) ∧ (num ≤ toInt c * den → le r c = true) := by
  have hd' : (0 : Int) < den := by exact_mod_cast hd
  have hcn := (not_nan_inf_of_finite hc).1
  rcases Nat.lt_or_ge num.natAbs ((2 ^ 25 - 1) * 2 ^ 252 * den) with hfin | hover
  · have hnear := h.nearest hfin c hc
    have hrn := (not_nan_inf_of_finite (h.finite hfin)).1
    rw [le_iff_toInt hcn hrn, le_iff_toInt hrn hcn]
    refine ⟨fun hle => ?_, fun hle => ?_⟩
    all_goals
      by_contra hlt
      have := Int.mul_lt_mul_of_pos_right (Int.not_le.1 hlt) hd'
      omega
  · have hr := h.overflow hover
    have hbound : (toInt c * den).natAbs ≤ (2 ^ 25 - 2) * 2 ^ 252 * den := by
      rw [Int.natAbs_mul, natAbs_toInt, Int.natAbs_natCast]
      exact Nat.mul_le_mul_right den (units_le_of_finite hc)
    have horder := order_of_finite_bounds hc
    split at hr <;> rw [hr]
    · exact ⟨fun hle => by omega, fun _ => le_iff.2 ⟨rfl, hcn, horder.1.le⟩⟩
    · exact ⟨fun _ => le_iff.2 ⟨hcn, rfl, horder.2.le⟩, fun hle => by omega⟩

/-- A result between two binary32 values is rounded to a value between them. -/
theorem IsRounded.within {r lo hi : Word} {num : Int} {den : Nat} (h : IsRounded r num den) (hd : 0 < den)
    (hlo : Finite lo) (hhi : Finite hi) (hnum : toInt lo * den ≤ num ∧ num ≤ toInt hi * den) : Within lo hi r :=
  ⟨(h.compare hd hlo).1 hnum.1, (h.compare hd hhi).2 hnum.2⟩

section
variable (ν : NanSource) {a b lo hi : Word} (ha : Finite a) (hb : Finite b) (hlo : Finite lo) (hhi : Finite hi)
include ha hb hlo hhi

theorem add_within (h : toInt lo ≤ toInt a + toInt b ∧ toInt a + toInt b ≤ toInt hi) :
    Within lo hi (add ν a b) := by
  obtain ⟨⟨hround, -⟩, -⟩ := operators_of_finite ν ha hb
  exact hround.within one_pos hlo hhi (by simpa using h)

theorem sub_within (h : toInt lo ≤ toInt a - toInt b ∧ toInt a - toInt b ≤ toInt hi) :
    Within lo hi (sub ν a b) := by
  obtain ⟨-, ⟨hround, -⟩, -⟩ := operators_of_finite ν ha hb
  exact hround.within one_pos hlo hhi (by simpa using h)

theorem mul_within (h : toInt lo * 2 ^ 149 ≤ toInt a * toInt b ∧ toInt a * toInt b ≤ toInt hi * 2 ^ 149) :
    Within lo hi (mul ν a b) :=
  (isRounded_mul ν ha hb).within (Nat.two_pow_pos 149) hlo hhi (by exact_mod_cast h)

end

/-! ## Values of the constants -/

theorem toInt_posZero : toInt posZero = 0 := by decide
theorem toInt_half : toInt half = 2 ^ 148 := by decide +kernel
theorem toInt_one : toInt one = 2 ^ 149 := by decide +kernel

theorem finite_posZero : Finite posZero := by decide
theorem finite_half : Finite half := by decide
theorem finite_one : Finite one := by decide

/-! ## Values in the ranges of the phase accumulator -/

/-- A fraction of an increment is no less than zero and no more than the increment. -/
theorem mul_fraction_within (ν : NanSource) {f w hi : Word} (hf : Within posZero one f) (hw : Within posZero hi w)
    (hhi : Finite hi) : Within posZero w (mul ν f w) := by
  have hff := hf.finite finite_posZero finite_one
  have hwf := hw.finite finite_posZero hhi
  obtain ⟨hf0, hf1⟩ := (within_iff_toInt rfl rfl hf.notNaN).1 hf
  have hw0 := (le_iff_toInt rfl hw.notNaN).1 hw.1
  rw [toInt_posZero] at hf0 hw0
  rw [toInt_one] at hf1
  refine mul_within ν hff hwf finite_posZero hwf ⟨?_, ?_⟩
  · rw [toInt_posZero, Int.zero_mul]
    exact Int.mul_nonneg hf0 hw0
  · rw [Int.mul_comm (toInt w)]
    exact Int.mul_le_mul_of_nonneg_right hf1 hw0

end Sys2Proof.F32
end

section
/-! PROOFS. The induction over all that a sample of RENDER does to a voice (spec/43_render.md R562 to R567). -/

namespace Sys2Proof.Machine

/-- Each single change that a sample can make of a voice keeps `Q`: the phase and section move, the noise waveform draws
a level, a word of one bus in the window takes a sum, and a master writes the sample's SYNC_BUF word.  Unlike the
property of `OnBuses`, which is one of both buses, `Q` may speak of each bus, and of the rest of the voice. -/
structure KeptBySample (P : Params) (e : Sample) (wv : Wave) (role : Role) (Q : Voice → Prop) : Prop where
  move : ∀ {v : Voice} (p : Word) (b : Bool), Q v → Q { v with osc := { v.osc with pos := p, sect := b } }
  draw : ∀ {v : Voice}, wv = .noise → Q v →
    Q { v with osc := { v.osc with nval := P.noise v.drawIx }, drawIx := v.drawIx + 1 }
  addA : ∀ {v : Voice} (μ : NanSource) (x : Word) {k : Nat}, k < P.L → Q v →
    Q { v with busA := accumulate μ v.busA (e.s + k) x }
  addB : ∀ {v : Voice} (μ : NanSource) (x : Word) {k : Nat}, k < P.L → Q v →
    Q { v with busB := accumulate μ v.busB (e.s + k) x }
  exportWord : ∀ {v : Voice} (x : Word), role = .master → Q v →
    Q { v with syncBuf := Mem.write syncReset v.syncBuf e.s x }

section
variable {P : Params} {e : Sample} {wv : Wave} {role : Role} {Q : Voice → Prop} (hQ : KeptBySample P e wv role Q)
  (ν : NanSource) {v : Voice} (h : Q v)
include hQ h

/-- A correction of any table on both buses. -/
theorem placeOn_kept (κ : NanSource) (rom : Word → Nat → Word) (x r : Word) :
    Q { v with busA := placeOn ν rom P.L e.gA x r e.s v.busA, busB := placeOn κ rom P.L e.gB x r e.s v.busB } := by
  have hA : Q { v with busA := placeOn ν rom P.L e.gA x r e.s v.busA } :=
    placeOn_induct (Q := fun m => Q { v with busA := m }) ν rom P.L e.gA x r e.s (fun μ _ _ y hk => hQ.addA μ y hk)
      v.busA h
  exact placeOn_induct
    (Q := fun m => Q { v with busA := placeOn ν rom P.L e.gA x r e.s v.busA, busB := m }) κ rom P.L e.gB x r e.s
    (fun μ _ _ y hk => hQ.addB μ y hk) v.busB hA

theorem placeStep_kept (r x : Word) : Q (placeStep P ν e r x v) := placeOn_kept hQ _ h _ P.step x r

theorem placeSlope_kept (r x : Word) : Q (placeSlope P ν e r x v) := placeOn_kept hQ _ h _ P.slope x r

theorem onThresh_kept (r : Word) : Q (onThresh P ν e wv r v) := by
  cases wv with
  | saw => exact h
  | rect => exact hQ.move v.osc.pos false (placeStep_kept hQ _ h r _)
  | tri | clipped => exact hQ.move v.osc.pos false (placeSlope_kept hQ _ h r _)
  | noise => exact hQ.move v.osc.pos false (placeStep_kept hQ _ (hQ.draw rfl h) r _)

theorem onWrap_kept (r : Word) : Q (onWrap P ν e wv r v) := by
  cases wv with
  | saw | rect => exact hQ.move v.osc.pos true (placeStep_kept hQ _ h r _)
  | tri => exact hQ.move v.osc.pos true (placeSlope_kept hQ _ h r _)
  | noise => exact hQ.move v.osc.pos true (placeStep_kept hQ _ (hQ.draw rfl h) r _)
  | clipped => exact hQ.move v.osc.pos true (placeSlope_kept hQ _ (placeStep_kept hQ _ h r _) r _)

theorem onSync_kept (f : Word) : Q (onSync P ν e wv f v) := by
  cases wv with
  | saw | rect => exact hQ.move _ true (placeStep_kept hQ _ h f _)
  | tri | clipped => exact hQ.move _ true (placeSlope_kept hQ _ (placeStep_kept hQ _ h f _) f _)
  | noise => exact hQ.move _ true (placeStep_kept hQ _ (hQ.draw rfl h) f _)

theorem threshEvent_kept (p rb : Word) : Q (threshEvent P ν e wv p rb v) := by
  unfold threshEvent
  split
  · exact onThresh_kept hQ _ h _
  · exact h

theorem wrapEvent_kept (p rb : Word) : Q (wrapEvent P ν e wv p rb v).1 := by
  unfold wrapEvent
  split
  · exact hQ.move _ _ (onWrap_kept hQ _ h _)
  · exact hQ.move _ _ h

theorem advance_kept (δ rb : Word) : Q (advance P ν e wv δ rb v).1 :=
  wrapEvent_kept hQ _ (threshEvent_kept hQ _ h _ rb) _ rb

theorem freeSample_kept : Q (freeSample P ν e wv role v) := by
  have hmoved := advance_kept hQ ν h e.w F32.posZero
  cases role with
  | master => exact hQ.exportWord _ rfl hmoved
  | slave => exact hmoved

theorem output_kept (hD : P.D < P.L) : Q (output P ν e wv v) := hQ.addB _ _ hD (hQ.addA _ _ hD h)

/-- A sample of RENDER keeps what each of its single changes keeps. -/
theorem sampleStep_kept (hD : P.D < P.L) : Q (sampleStep P ν e wv role v) := by
  unfold sampleStep
  dsimp only
  split
  · exact output_kept hQ _ (onSync_kept hQ _ (advance_kept hQ _ h _ _) _) hD
  · exact output_kept hQ _ (freeSample_kept hQ _ h) hD

end

end Sys2Proof.Machine
end

section
/-! PROOFS. RENDER keeps the state registers of a core in range: POS in [0, 1), NVAL a draw, LAST_MODE and LAST_WAVE
numbers of a mode and a waveform (spec/10_state.md R104, R107; spec/43_render.md R568; spec/44_waveforms.md R606). -/

namespace Sys2Proof.Machine

open F32 (Within)

/-! ## The phase (R558, R563, R565) -/

/-- An increment is in [0, 0.5] and no NaN (R558). -/
theorem clampIncrement_within (x : Word) : Within F32.posZero F32.half (clampIncrement x) :=
  F32.clampTh_between (by decide) x

theorem sampleOf_w_within (ν : NanSource) (cfg : Vector Word 16) (ρ : Ramps) (s : Nat) :
    Within F32.posZero F32.half (sampleOf ν cfg ρ s).w := clampIncrement_within _

theorem clampFraction_within (x : Word) : Within F32.posZero F32.one (F32.clampTh x F32.posZero F32.one) :=
  F32.clampTh_between (by decide) x

theorem phaseOk_iff {x : Word} : phaseOk x = true ↔ F32.le F32.posZero x = true ∧ F32.lt x F32.one = true := by
  simp [phaseOk]

/-- Every value in [0, 0.5] is a phase. -/
theorem phaseOk_of_within_half {x : Word} (h : Within F32.posZero F32.half x) : phaseOk x = true :=
  phaseOk_iff.2 ⟨h.1, F32.le_lt_trans h.2 (by decide)⟩

theorem phaseOk_posZero : phaseOk F32.posZero = true := by decide

/-- A phase moved by an increment stays below 1.5, so it is a phase again, less 1.0 where it has reached that. -/
theorem phaseOk_move (μ κ : NanSource) {x w : Word} (hx : phaseOk x = true) (hw : Within F32.posZero F32.half w) :
    phaseOk (if F32.ge (F32.add μ x w) F32.one = true then F32.sub κ (F32.add μ x w) F32.one else F32.add μ x w)
      = true := by
  obtain ⟨hx0, hx1⟩ := phaseOk_iff.1 hx
  obtain ⟨-, hxn, -⟩ := F32.le_iff.1 hx0
  have hxf : F32.Finite x :=
    Within.finite ⟨hx0, F32.le_iff.2 ⟨hxn, rfl, (F32.lt_iff.1 hx1).2.2.le⟩⟩ F32.finite_posZero F32.finite_one
  have hwf := hw.finite F32.finite_posZero F32.finite_half
  have htop : F32.Finite 0x3FC00000 := by decide
  have htop_val : F32.toInt 0x3FC00000 = 2 ^ 149 + 2 ^ 148 := by decide +kernel
  have hp : Within F32.posZero 0x3FC00000 (F32.add μ x w) := by
    rw [F32.le_iff_toInt rfl hxn, F32.toInt_posZero] at hx0
    rw [F32.lt_iff_toInt hxn rfl, F32.toInt_one] at hx1
    obtain ⟨hw0, hw1⟩ := (F32.within_iff_toInt rfl rfl hw.notNaN).1 hw
    rw [F32.toInt_posZero] at hw0
    rw [F32.toInt_half] at hw1
    refine F32.add_within μ hxf hwf F32.finite_posZero htop ?_
    rw [F32.toInt_posZero, htop_val]
    omega
  have hpf := hp.finite F32.finite_posZero htop
  split
  · next hge =>
    obtain ⟨-, hp1⟩ := (F32.within_iff_toInt rfl rfl hp.notNaN).1 hp
    rw [F32.ge, F32.le_iff_toInt rfl hp.notNaN, F32.toInt_one] at hge
    rw [htop_val] at hp1
    refine phaseOk_of_within_half (F32.sub_within κ hpf F32.finite_one F32.finite_posZero F32.finite_half ?_)
    rw [F32.toInt_posZero, F32.toInt_half, F32.toInt_one]
    omega
  · next hlt =>
    exact phaseOk_iff.2 ⟨hp.1, F32.lt_of_le_eq_false hp.notNaN rfl (eq_false_of_ne_true hlt)⟩

/-! ## The registers that hold a level or a number (R104, R107, R606) -/

/-- NVAL, LAST_MODE and LAST_WAVE are in range: the state registers of a core whose range does not depend on how the
phase moves. -/
structure Osc.HeldOk (o : Osc) : Prop where
  level : levelOk o.nval = true
  lastSeen : lastSeenOk o = true

theorem levelOk_posZero : levelOk F32.posZero = true := by decide

theorem levelOk_noise {P : Params} (hP : P.Ok) (n : Nat) : levelOk (P.noise n) = true := by
  simpa [levelOk] using hP.noise_range n

theorem heldOk_keptBySample {P : Params} (hP : P.Ok) (e : Sample) (wv : Wave) (role : Role) :
    KeptBySample P e wv role fun v => v.osc.HeldOk where
  move _ _ h := ⟨h.level, h.lastSeen⟩
  draw _ h := ⟨levelOk_noise hP _, h.lastSeen⟩
  addA _ _ _ _ h := h
  addB _ _ _ _ h := h
  exportWord _ _ h := h

/-! ## A sample and a RENDER -/

theorem freeSample_osc (P : Params) (ν : NanSource) (e : Sample) (wv : Wave) (role : Role) (v : Voice) :
    (freeSample P ν e wv role v).osc = (advance P ν e wv e.w F32.posZero v).1.osc := by
  cases role <;> rfl

/-- The state registers after a sample are those after its sync event, or else after its free step (R562). -/
theorem sampleStep_osc (P : Params) (ν : NanSource) (e : Sample) (wv : Wave) (role : Role) (v : Voice) :
    (sampleStep P ν e wv role v).osc
      = if role = .slave ∧ F32.ge (Mem.read syncReset v.syncBuf e.s) F32.posZero = true
        then (syncedSample P (ν.sub 0) e wv
          (F32.clampTh (Mem.read syncReset v.syncBuf e.s) F32.posZero F32.one) v).osc
        else (advance P (ν.sub 1) e wv e.w F32.posZero v).1.osc := by
  unfold sampleStep output
  dsimp only
  split
  · rfl
  · exact freeSample_osc ..

/-- The state registers of a core are in range (R104, R107, R568). -/
structure Osc.Ok (o : Osc) : Prop where
  phase : phaseOk o.pos = true
  held : o.HeldOk

/-- A sample at an increment of R558 keeps the state registers in range: a free step moves the phase, and a sync event
sets it to a fraction of the increment. -/
theorem sampleStep_oscOk {P : Params} (hP : P.Ok) (ν : NanSource) {e : Sample} (wv : Wave) (role : Role)
    (hw : Within F32.posZero F32.half e.w) {v : Voice} (h : v.osc.Ok) : (sampleStep P ν e wv role v).osc.Ok := by
  refine ⟨?_, sampleStep_kept (heldOk_keptBySample hP e wv role) ν h.held hP.D_lt⟩
  rw [sampleStep_osc]
  split
  · have hpos := F32.mul_fraction_within (((ν.sub 0).sub 3).sub 5)
      (clampFraction_within (Mem.read syncReset v.syncBuf e.s)) hw F32.finite_half
    exact phaseOk_of_within_half ⟨hpos.1, F32.le_trans hpos.2 hw.2⟩
  · rw [advance_pos]
    exact phaseOk_move _ _ h.phase hw

theorem Mode.number_lt (m : Mode) : m.number < 12 := by
  cases m <;> decide

theorem Wave.number_lt (wv : Wave) : wv.number < 5 := by
  cases wv <;> decide

/-- The selector's reset puts POS and NVAL at +0.0, and the numbers it writes are those of a mode and a waveform
(R555). -/
theorem selectOsc_ok (m : Mode) (wv : Wave) {o : Osc} (h : o.Ok) : (selectOsc m wv o).Ok := by
  unfold selectOsc
  split
  · refine ⟨phaseOk_posZero, levelOk_posZero, ?_⟩
    have hm := m.number_lt
    have hwv := wv.number_lt
    simp only [lastSeenOk, BitVec.toNat_ofNat, Bool.or_eq_true, Bool.and_eq_true, decide_eq_true_eq]
    exact .inr (by omega)
  · exact h

theorem renderVoice_oscOk {P : Params} (hP : P.Ok) (ν : NanSource) (cfg : Vector Word 16) (mods : Vector ModSlot 21)
    (o n : Nat) {v : Voice} (h : v.osc.Ok) : (renderVoice P ν cfg mods o n v).osc.Ok :=
  renderVoice_induct (Q := fun u => u.osc.Ok) P ν cfg mods o n v (selectOsc_ok _ _ h)
    fun _ μ _ _ _ _ hu => sampleStep_oscOk hP μ _ _ (sampleOf_w_within ..) hu

/-! ## The commands -/

theorem State.oscOk_iff {s : State} : s.OscOk ↔ ∀ c, (oscRead s c).Ok :=
  ⟨fun h c => ⟨h.phase c, h.level c, h.lastSeen c⟩,
    fun h => ⟨fun c => (h c).phase, fun c => (h c).held.level, fun c => (h c).held.lastSeen⟩⟩

theorem cresetState_ok (o : Osc) : (cresetState o).Ok := ⟨phaseOk_posZero, levelOk_posZero, rfl⟩

/-- Writing state registers in range to one core leaves those of every core in range. -/
theorem State.OscOk.oscWrite {s : State} (h : s.OscOk) (c : Fin 4) {o : Osc} (ho : o.Ok) :
    (oscWrite s c o).OscOk := by
  refine State.oscOk_iff.2 fun d => ?_
  rw [oscRead_oscWrite]
  split
  · exact ho
  · exact State.oscOk_iff.1 h d

/-- Only RESET, CRESET and RENDER write the state registers of a core. -/
theorem Effect.oscOk {s u : State} {i : Instr} (h : Effect s i u) (hs : s.OscOk) : u.OscOk := by
  cases h with
  | nop | rdreg | modinit | modtick | rdmod | beginBurst | endBurst | tick =>
    exact ⟨hs.phase, hs.level, hs.lastSeen⟩
  | wrcfg => exact State.oscOk_iff.2 fun d => (oscRead_cfgWrite ..).symm ▸ State.oscOk_iff.1 hs d
  | reset =>
    refine State.oscOk_iff.2 fun d => ?_
    have hread : oscRead (resetUnit s) d = cresetState (oscRead s d) := by simp [oscRead, resetUnit]
    exact hread ▸ cresetState_ok _
  | creset c => exact hs.oscWrite c (cresetState_ok _)
  | @render c _ =>
    obtain ⟨hphase, hlevel, hlast⟩ := hs.oscWrite c (renderVoice_oscOk Config.params_ok (Config.params.nan s.pc)
      s.cores[c].cfg s.mods s.offset.toNat s.burstN.val (v := voiceOf s c) (State.oscOk_iff.1 hs c))
    exact ⟨hphase, hlevel, hlast⟩

end Sys2Proof.Machine
end

section
/-! PROOFS. The increment and threshold of a sample, and the ramps of an unmodulated parameter (spec/43_render.md R558 to
R561). -/

namespace Sys2Proof.F32

/-! ## Clamping -/

/-- A value up to the upper bound is not clamped downwards. -/
theorem le_clampTh {x lo hi : Word} (h : le x hi = true) (hlo : isNaN lo = false) :
    le x (clampTh x lo hi) = true := by
  obtain ⟨hx, -, -⟩ := le_iff.1 h
  cases hge : le lo x with
  | true =>
    have hgt : lt hi x = false := by
      rw [lt, decide_eq_false (not_lt.2 (le_iff.1 h).2.2), Bool.and_false]
    simp [clampTh, gt, ge, hgt, hge, h, le_refl_of_not_nan hx]
  | false =>
    have hlt := lt_iff.1 (lt_of_le_eq_false hx hlo hge)
    rcases clampTh_cases x lo hi with e | ⟨e, -, -⟩ | e <;> rw [e]
    · exact h
    · exact le_refl_of_not_nan hx
    · exact le_iff.2 ⟨hx, hlo, hlt.2.2.le⟩

/-- Two numbers of the same value, at most the sign of a zero apart, are clamped to the same value. -/
theorem order_clampTh_congr {x y : Word} (lo hi : Word) (hx : isNaN x = false) (hy : isNaN y = false)
    (h : order x = order y) : order (clampTh x lo hi) = order (clampTh y lo hi) := by
  unfold clampTh gt ge lt le
  rw [hx, hy, h]
  split
  · rfl
  · split
    · exact h
    · rfl

theorem order_eq_of_toInt_eq {x y : Word} (h : toInt x = toInt y) : order x = order y := by
  have hxy := order_lt_order_iff_toInt x y
  have hyx := order_lt_order_iff_toInt y x
  omega

/-! ## Operations that leave a value as it is -/

section
variable (ν : NanSource)

/-- A zero times a finite value is a zero. -/
theorem isZero_mul {a b : Word} (ha : isZero a = true) (hb : Finite b) : isZero (mul ν a b) = true := by
  rw [mul_eq_pack ν (finite_of_isZero ha) hb, isZero_eq_true_iff.1 ha, Nat.zero_mul, roundMag_zero]
  cases sign a != sign b <;> rfl

/-- 1.0 times a number is that number, to the bit. -/
theorem mul_one_of_notNaN {x : Word} (h : isNaN x = false) : mul ν x one = x := by
  have hone : units one = 2 ^ 149 := by decide +kernel
  rcases finite_or_isInf h with hf | hi
  · rw [mul_eq_pack ν hf finite_one, hone, roundMag_units_mul hf (Nat.two_pow_pos 149)]
    show pack (sign x != false) (mag x) = x
    rw [Bool.bne_false, pack_sign_mag]
  · have hmag := isInf_eq_true_iff.1 hi
    have hmul : mul ν x one = pack (sign x != false) infMag := by
      unfold mul
      rw [h, hi, isZero_of_isInf hi]
      rfl
    rw [hmul, Bool.bne_false, ← hmag, pack_sign_mag]

/-- A finite value less itself is +0.0. -/
theorem sub_self_of_finite {x : Word} (h : Finite x) : sub ν x x = posZero := by
  rw [(operators_of_finite ν h h).2.1.2 (Int.sub_self _), if_neg]
  · rfl
  · simp

/-- +0.0 over a positive integer is +0.0. -/
theorem posZero_div_ofNat {n : Nat} (h0 : 1 ≤ n) (h : n ≤ 2 ^ 16) : div ν posZero (ofNat n) = posZero := by
  have hz : isZero (ofNat n) = false := by
    rw [← Bool.not_eq_true, isZero_eq_true_iff, units_ofNat h]
    omega
  have hunits : units posZero = 0 := rfl
  rw [div_eq_pack ν finite_posZero (ofNat_exact h).1 hz, hunits, Nat.zero_mul, roundMag_zero, sign_ofNat]
  rfl

/-- An integer times +0.0 is +0.0. -/
theorem ofNat_mul_posZero {n : Nat} (h : n ≤ 2 ^ 16) : mul ν (ofNat n) posZero = posZero := by
  obtain ⟨hnan, hinf⟩ := not_nan_inf_of_finite (ofNat_exact h).1
  exact mul_posZero ν hnan hinf (sign_ofNat n)

/-- A finite value plus +0.0 has the same value. -/
theorem add_posZero_of_finite {x : Word} (h : Finite x) :
    Finite (add ν x posZero) ∧ toInt (add ν x posZero) = toInt x := by
  obtain ⟨hf, hval, -⟩ := add_of_toInt_add_eq ν h finite_posZero h (by rw [toInt_posZero, Int.add_zero])
  exact ⟨hf, hval⟩

end

end Sys2Proof.F32

namespace Sys2Proof.Machine

open F32 (Within)

/-! ## The increment and the threshold (R558, R560) -/

/-- The increment clamped from below, `wt_s` of R560. -/
theorem clampThreshold_bound_within (w : Word) :
    Within F32.twoPowNeg24 F32.half (F32.clampTh w F32.twoPowNeg24 F32.half) :=
  F32.clampTh_between (by decide) w

/-- For `wt` in [2^-24, 0.5] the rounded difference `1.0 − wt` is at least `wt` and at most `1.0 − 2^-24`. -/
theorem complement_within (ν : NanSource) {wt : Word} (h : Within F32.twoPowNeg24 F32.half wt) :
    Within wt 0x3F7FFFFF (F32.sub ν F32.one wt) := by
  have hf := h.finite (by decide) F32.finite_half
  have hlow : F32.toInt F32.twoPowNeg24 = 2 ^ 125 := by decide +kernel
  have htop : F32.toInt 0x3F7FFFFF = 2 ^ 149 - 2 ^ 125 := by decide +kernel
  obtain ⟨h0, h1⟩ := (F32.within_iff_toInt rfl rfl h.notNaN).1 h
  rw [hlow] at h0
  rw [F32.toInt_half] at h1
  refine F32.sub_within ν F32.finite_one hf hf (by decide) ?_
  rw [F32.toInt_one, htop]
  omega

theorem clampThreshold_within (ν : NanSource) (q w : Word) :
    Within (F32.clampTh w F32.twoPowNeg24 F32.half)
      (F32.sub ν F32.one (F32.clampTh w F32.twoPowNeg24 F32.half)) (clampThreshold ν q w) :=
  F32.clampTh_between (complement_within ν (clampThreshold_bound_within w)).1 q

/-! ## The parameters of a sample by their ramps -/

section
variable (ν : NanSource) (cfg : Vector Word 16) (ρ : Ramps) (s : Nat)

theorem sampleOf_w : (sampleOf ν cfg ρ s).w = clampIncrement (ρ.w.at (ν.sub 0) s) := rfl

theorem sampleOf_gA : (sampleOf ν cfg ρ s).gA = F32.mul (ν.sub 4) cfg[CfgSel.LEVEL_A] (ρ.a.at (ν.sub 1) s) := rfl

theorem sampleOf_gB : (sampleOf ν cfg ρ s).gB = F32.mul (ν.sub 5) cfg[CfgSel.LEVEL_B] (ρ.a.at (ν.sub 1) s) := rfl

end

/-! ## Ramps without modulation (R558, R559, R561) -/

/-- A ramp from a finite value to itself is flat: its step is +0.0. -/
theorem Ramp.make_self (ν : NanSource) {x : Word} (hx : F32.Finite x) {n : Nat} (h0 : 1 ≤ n) (hn : n ≤ 2 ^ 16) :
    Ramp.make ν x x n = { start := x, step := F32.posZero } := by
  rw [Ramp.make, F32.sub_self_of_finite ν hx, F32.posZero_div_ofNat ν h0 hn]

/-- A flat ramp has the value of its start at every sample. -/
theorem Ramp.at_flat (ν : NanSource) (x : Word) {s : Nat} (hs : s ≤ 2 ^ 16) :
    Ramp.at ν { start := x, step := F32.posZero } s = F32.add ν x F32.posZero := by
  rw [Ramp.at, F32.ofNat_mul_posZero ν hs]

/-- With PM_AMT zero the pitch curve gives 1.0, so the increment starts and ends at W_BASE (R558). -/
theorem pitchAt_unmodulated {P : Params} (hP : P.Ok) (ν : NanSource) {cfg : Vector Word 16}
    (hamt : F32.isZero cfg[CfgSel.PM_AMT] = true) (hbase : F32.isNaN cfg[CfgSel.W_BASE] = false) {x : Word}
    (hx : F32.Finite x) : pitchAt P ν cfg x = cfg[CfgSel.W_BASE] := by
  rw [pitchAt, hP.pitch_zero _ (F32.isZero_mul _ hamt hx), F32.mul_one_of_notNaN _ hbase]

/-- With AM_AMT zero the amplitude curve gives 1.0 (R559). -/
theorem ampAt_unmodulated {P : Params} (hP : P.Ok) (ν : NanSource) {cfg : Vector Word 16}
    (hamt : F32.isZero cfg[CfgSel.AM_AMT] = true) {x : Word} (hx : F32.Finite x) : ampAt P ν cfg x = F32.one := by
  rw [ampAt, hP.amp_zero _ (F32.isZero_mul _ hamt hx)]

/-- The ramp of a parameter whose curve gives one finite value at both ends is flat. -/
theorem rampOf_constant (ν : NanSource) {curve : NanSource → Word → Word} {m : ModSlot} {o n : Nat} {y : Word}
    (hy : F32.Finite y) (h0 : 1 ≤ n) (hn : n ≤ 2 ^ 16) (hcurve : ∀ μ x, F32.Finite x → curve μ x = y)
    (hslot : ∀ κ, F32.Finite (modRead κ m o) ∧ F32.Finite (modRead κ m (o + n))) :
    rampOf ν curve m o n = { start := y, step := F32.posZero } := by
  rw [rampOf, hcurve _ _ (hslot _).1, hcurve _ _ (hslot _).2, Ramp.make_self _ hy h0 hn]

section
variable {P : Params} (hP : P.Ok) (ν μ : NanSource) {cfg : Vector Word 16} {mods : Vector ModSlot 21} {o n s : Nat}
  (h0 : 1 ≤ n) (hn : n ≤ 2 ^ 16) (hs : s ≤ 2 ^ 16)
include hP h0 hn hs

/-- Without pitch modulation the increment's ramp stays at W_BASE. -/
theorem rampsOf_w_unmodulated (hamt : F32.isZero cfg[CfgSel.PM_AMT] = true) (hbase : F32.Finite cfg[CfgSel.W_BASE])
    (hslot : ∀ κ, F32.Finite (modRead κ mods[srcIdx cfg[CfgSel.PM_SRC]] o)
      ∧ F32.Finite (modRead κ mods[srcIdx cfg[CfgSel.PM_SRC]] (o + n))) :
    (rampsOf P μ cfg mods o n).w.at ν s = F32.add ν cfg[CfgSel.W_BASE] F32.posZero := by
  have hnan := (F32.not_nan_inf_of_finite hbase).1
  have hramp : (rampsOf P μ cfg mods o n).w = { start := cfg[CfgSel.W_BASE], step := F32.posZero } :=
    rampOf_constant _ hbase h0 hn (fun κ _ => pitchAt_unmodulated hP κ hamt hnan) hslot
  rw [hramp, Ramp.at_flat _ _ hs]

/-- Without amplitude modulation the amplitude's ramp stays at 1.0. -/
theorem rampsOf_a_unmodulated (hamt : F32.isZero cfg[CfgSel.AM_AMT] = true)
    (hslot : ∀ κ, F32.Finite (modRead κ mods[srcIdx cfg[CfgSel.AM_SRC]] o)
      ∧ F32.Finite (modRead κ mods[srcIdx cfg[CfgSel.AM_SRC]] (o + n))) :
    (rampsOf P μ cfg mods o n).a.at ν s = F32.one := by
  have hramp : (rampsOf P μ cfg mods o n).a = { start := F32.one, step := F32.posZero } :=
    rampOf_constant _ F32.finite_one h0 hn (fun κ _ => ampAt_unmodulated hP κ hamt) hslot
  rw [hramp, Ramp.at_flat _ _ hs, F32.add_one_posZero]

end

end Sys2Proof.Machine
end

section
/-! PROOFS. Named NaN sources for the operations of a command (spec/93_implementation_defined.md item 5). -/

namespace Sys2Proof

theorem NanSource.Ok.sub {ν : NanSource} (hν : NanSource.Ok ν) (k : Nat) : NanSource.Ok (ν.sub k) :=
  fun path op a b => hν (k :: path) op a b

/-- The sources of the operations at the given positions of a command, by their number in the list. -/
def NanSource.places (ν : NanSource) (positions : List (List Nat)) (i : Nat) : NanSource :=
  (positions.getD i []).foldl NanSource.sub ν

theorem NanSource.Ok.places {ν : NanSource} (hν : NanSource.Ok ν) (positions : List (List Nat)) (i : Nat) :
    NanSource.Ok (ν.places positions i) := by
  unfold NanSource.places
  generalize positions.getD i [] = path
  induction path generalizing ν with
  | nil => exact hν
  | cons k path ih => exact ih (hν.sub k)

/-- Two sources as one: the operations of the first at position 0, those of the second at position 1. -/
def NanSource.both (ν κ : NanSource) : NanSource
  | 1 :: path => κ path
  | _ :: path => ν path
  | [] => ν []

theorem NanSource.Ok.both {ν κ : NanSource} (hν : NanSource.Ok ν) (hκ : NanSource.Ok κ) :
    NanSource.Ok (ν.both κ) := by
  intro path op a b
  unfold NanSource.both
  split
  · exact hκ ..
  · exact hν ..
  · exact hν ..

end Sys2Proof
end

section
/-! PROOFS. What a sample of RENDER does to the state registers and to SYNC_BUF, and what a RENDER leaves unchanged
(spec/43_render.md R562 to R567). -/

namespace Sys2Proof.Machine

/-- A move answers the wrap fraction where the phase reaches 1.0, and nothing elsewhere (R563). -/
theorem advance_wrapped (P : Params) (ν : NanSource) (e : Sample) (wv : Wave) (δ rb : Word) (v : Voice) :
    (advance P ν e wv δ rb v).2
      = if F32.ge (F32.add (ν.sub 0) v.osc.pos δ) F32.one = true
        then some (rfrac ((ν.sub 2).sub 1) e.w
          (F32.sub ((ν.sub 2).sub 0) (F32.add (ν.sub 0) v.osc.pos δ) F32.one) rb)
        else none := by
  unfold advance wrapEvent
  dsimp only
  split <;> rfl

/-- A master exports its wrap fraction, or −1.0, to the sample's own word (R564). -/
theorem freeSample_master_syncBuf (P : Params) (ν : NanSource) (e : Sample) (wv : Wave) (v : Voice) :
    (freeSample P ν e wv .master v).syncBuf
      = Mem.write syncReset v.syncBuf e.s ((advance P ν e wv e.w F32.posZero v).2.getD F32.negOne) := by
  unfold freeSample exportWrap
  dsimp only
  rw [advance_syncBuf]

/-! ## The voice of a state -/

theorem voiceOf_withVoice (s : State) (c : Fin 4) (v : Voice) : voiceOf (withVoice s c v) c = v := by
  rw [voiceOf, oscRead_withVoice, if_pos rfl]
  rfl

theorem exec_render_of_open {s : State} (hopen : s.inBurst = true) (c : Fin 4) :
    exec (.render c) s = .next (retire (withVoice s c (renderVoice Config.params (Config.params.nan s.pc)
      s.cores[c].cfg s.mods s.offset.toNat s.burstN.val (voiceOf s c)))) :=
  if_pos hopen

@[simp] theorem oscRead_withVoice_same (s : State) (c : Fin 4) (v : Voice) : oscRead (withVoice s c v) c = v.osc := by
  rw [oscRead_withVoice, if_pos rfl]

theorem oscRead_withVoice_other (s : State) {c d : Fin 4} (v : Voice) (h : d ≠ c) :
    oscRead (withVoice s c v) d = oscRead s d := by
  rw [oscRead_withVoice, if_neg h]

/-! ## A RENDER by its mode (R555, R556) -/

section
variable (P : Params) (ν : NanSource) {cfg : Vector Word 16} (mods : Vector ModSlot 21) (o n : Nat) (v : Voice)

theorem renderVoice_of_minBlep (h : decodeMode cfg[CfgSel.MODE] = .minBlep) :
    renderVoice P ν cfg mods o n v = (List.range n).foldl (fun u s => sampleStep P ((ν.sub 1).sub (2 * s))
        (sampleOf ((ν.sub 1).sub (2 * s + 1)) cfg (rampsOf P (ν.sub 0) cfg mods o n) s)
        (decodeWave cfg[CfgSel.WAVE]) (decodeSync cfg[CfgSel.SYNC]) u)
      { v with osc := selectOsc .minBlep (decodeWave cfg[CfgSel.WAVE]) v.osc } := by
  rw [renderVoice, h]
  exact if_pos rfl

theorem renderVoice_of_other (h : decodeMode cfg[CfgSel.MODE] ≠ .minBlep) :
    renderVoice P ν cfg mods o n v
      = { v with osc := selectOsc (decodeMode cfg[CfgSel.MODE]) (decodeWave cfg[CfgSel.WAVE]) v.osc } :=
  if_neg h

end

/-! ## What a RENDER leaves unchanged (R567) -/

/-- `v` stands where a RENDER of `n` samples in mode `m` can have brought `v₀`, as far as R567 says it. -/
structure Voice.RenderedFrom (P : Params) (m : Mode) (wv : Wave) (role : Role) (n : Nat) (v₀ v : Voice) : Prop where
  lastMode : v.osc.lastMode = BitVec.ofNat 32 m.number
  lastWave : v.osc.lastWave = BitVec.ofNat 32 wv.number
  busA : ∀ j, n + P.L ≤ j + 1 → Mem.read busReset v.busA j = Mem.read busReset v₀.busA j
  busB : ∀ j, n + P.L ≤ j + 1 → Mem.read busReset v.busB j = Mem.read busReset v₀.busB j
  syncBuf : ∀ j, ¬ (role = .master ∧ m = .minBlep ∧ j < n) →
    Mem.read syncReset v.syncBuf j = Mem.read syncReset v₀.syncBuf j
  drawIx : m ≠ .minBlep ∨ wv ≠ .noise → v.drawIx = v₀.drawIx

/-- The selector writes LAST_MODE and LAST_WAVE, unless they hold the numbers already (R555). -/
theorem selectOsc_lastSeen (m : Mode) (wv : Wave) (o : Osc) :
    (selectOsc m wv o).lastMode = BitVec.ofNat 32 m.number
    ∧ (selectOsc m wv o).lastWave = BitVec.ofNat 32 wv.number := by
  unfold selectOsc
  split
  · exact ⟨rfl, rfl⟩
  · next h =>
    obtain ⟨hmode, hwave⟩ := not_or.1 h
    exact ⟨(not_ne_iff.1 hmode).symm, (not_ne_iff.1 hwave).symm⟩

/-- Sample `s` of `n` adds to bus words `s ..< s + L` and exports to SYNC_BUF word `s`. -/
theorem renderedFrom_keptBySample (P : Params) {e : Sample} (wv : Wave) (role : Role) {n : Nat} (hs : e.s < n)
    (v₀ : Voice) : KeptBySample P e wv role (Voice.RenderedFrom P .minBlep wv role n v₀) where
  move _ _ h := ⟨h.lastMode, h.lastWave, h.busA, h.busB, h.syncBuf, h.drawIx⟩
  draw hwv h :=
    ⟨h.lastMode, h.lastWave, h.busA, h.busB, h.syncBuf, fun hno => absurd hwv (hno.resolve_left (· rfl))⟩
  addA μ x k hk h := by
    refine ⟨h.lastMode, h.lastWave, fun j hj => ?_, h.busB, h.syncBuf, h.drawIx⟩
    exact (Mem.read_accumulate_other μ _ _ x j (by omega)).trans (h.busA j hj)
  addB μ x k hk h := by
    refine ⟨h.lastMode, h.lastWave, h.busA, fun j hj => ?_, h.syncBuf, h.drawIx⟩
    exact (Mem.read_accumulate_other μ _ _ x j (by omega)).trans (h.busB j hj)
  exportWord x hrole h := by
    refine ⟨h.lastMode, h.lastWave, h.busA, h.busB, fun j hj => ?_, h.drawIx⟩
    exact (Mem.read_write_other _ _ _ x j fun hje => hj ⟨hrole, rfl, hje ▸ hs⟩).trans (h.syncBuf j hj)

theorem renderVoice_renderedFrom {P : Params} (hD : P.D < P.L) (ν : NanSource) (cfg : Vector Word 16)
    (mods : Vector ModSlot 21) (o n : Nat) (v : Voice) :
    Voice.RenderedFrom P (decodeMode cfg[CfgSel.MODE]) (decodeWave cfg[CfgSel.WAVE]) (decodeSync cfg[CfgSel.SYNC]) n v
      (renderVoice P ν cfg mods o n v) := by
  obtain ⟨hmode, hwave⟩ := selectOsc_lastSeen (decodeMode cfg[CfgSel.MODE]) (decodeWave cfg[CfgSel.WAVE]) v.osc
  refine renderVoice_induct P ν cfg mods o n v
    ⟨hmode, hwave, fun _ _ => rfl, fun _ _ => rfl, fun _ _ => rfl, fun _ => rfl⟩ ?_
  intro hm μ κ s u hs hu
  rw [hm] at hu ⊢
  exact sampleStep_kept (renderedFrom_keptBySample P _ _ hs v) μ hu hD

end Sys2Proof.Machine
end

section
/-! PROOFS. A sample and a RENDER of mode 1 as their parts (spec/43_render.md R550, R555, R562). -/

namespace Sys2Proof.Machine

section
variable (P : Params) (ν : NanSource) (e : Sample) (wv : Wave) {role : Role} (v : Voice)

/-- A slave's sample with a sync event (R562, R565). -/
theorem sampleStep_of_synced
    (h : role = .slave ∧ F32.ge (Mem.read syncReset v.syncBuf e.s) F32.posZero = true) :
    sampleStep P ν e wv role v = output P (ν.sub 2) e wv (syncedSample P (ν.sub 0) e wv
      (F32.clampTh (Mem.read syncReset v.syncBuf e.s) F32.posZero F32.one) v) :=
  congrArg (output P (ν.sub 2) e wv) (if_pos h)

/-- A sample without a sync event (R562). -/
theorem sampleStep_of_free
    (h : ¬ (role = .slave ∧ F32.ge (Mem.read syncReset v.syncBuf e.s) F32.posZero = true)) :
    sampleStep P ν e wv role v = output P (ν.sub 2) e wv (freeSample P (ν.sub 1) e wv role v) :=
  congrArg (output P (ν.sub 2) e wv) (if_neg h)

/-- A master takes no sync event. -/
theorem sampleStep_master :
    sampleStep P ν e wv .master v = output P (ν.sub 2) e wv (freeSample P (ν.sub 1) e wv .master v) :=
  sampleStep_of_free P ν e wv v fun h => nomatch h.1

theorem sampleStep_master_syncBuf :
    (sampleStep P ν e wv .master v).syncBuf
      = Mem.write syncReset v.syncBuf e.s ((advance P (ν.sub 1) e wv e.w F32.posZero v).2.getD F32.negOne) := by
  rw [sampleStep_master]
  exact freeSample_master_syncBuf ..

end

/-- The selector in mode 1 resets a core that did not run this waveform in mode 1 last (R555). -/
theorem selectOsc_minBlep (wv : Wave) (o : Osc) :
    selectOsc .minBlep wv o = if o.lastMode ≠ 1 ∨ o.lastWave ≠ BitVec.ofNat 32 wv.number
      then { pos := F32.posZero, sect := true, nval := F32.posZero, lastMode := 1,
             lastWave := BitVec.ofNat 32 wv.number }
      else o :=
  if_congr (or_congr ne_comm ne_comm) rfl rfl

/-- A burst of one sample of a core that goes on in mode 1 with its waveform is that sample. -/
theorem renderVoice_one (P : Params) (ν : NanSource) {cfg : Vector Word 16} (mods : Vector ModSlot 21) (o : Nat)
    {v : Voice} {wv : Wave} {role : Role} (hm : decodeMode cfg[CfgSel.MODE] = .minBlep)
    (hwv : decodeWave cfg[CfgSel.WAVE] = wv) (hrole : decodeSync cfg[CfgSel.SYNC] = role)
    (hlastMode : v.osc.lastMode = 1) (hlastWave : v.osc.lastWave = BitVec.ofNat 32 wv.number) :
    renderVoice P ν cfg mods o 1 v = sampleStep P ((ν.sub 1).sub 0)
      (sampleOf ((ν.sub 1).sub 1) cfg (rampsOf P (ν.sub 0) cfg mods o 1) 0) wv role v := by
  have hselect : selectOsc .minBlep wv v.osc = v.osc := by
    rw [selectOsc_minBlep, if_neg (not_or.2 ⟨not_not.2 hlastMode, not_not.2 hlastWave⟩)]
  rw [renderVoice_of_minBlep P ν mods o 1 v hm, hwv, hrole, hselect]
  rfl

/-! ## The sawtooth's free step (R603) -/

section
variable {P : Params} {ν : NanSource} {e : Sample} {v : Voice}

theorem threshEvent_saw (p rb : Word) : threshEvent P ν e .saw p rb v = v := if_neg fun h => h.1 rfl

/-- Below 1.0 a master sawtooth's step moves the phase and exports −1.0. -/
theorem freeSample_saw_of_lt (h : F32.ge (F32.add (ν.sub 0) v.osc.pos e.w) F32.one = false) :
    freeSample P ν e .saw .master v
      = { v with osc := { v.osc with pos := F32.add (ν.sub 0) v.osc.pos e.w }
                 syncBuf := Mem.write syncReset v.syncBuf e.s F32.negOne } := by
  simp only [freeSample, exportWrap, advance, threshEvent_saw, wrapEvent, h, Bool.false_eq_true, if_false,
    Option.getD_none]

/-- From 1.0 on it places the step of size +1.0 at the wrap fraction, which it exports, and sets SECT. -/
theorem freeSample_saw_of_ge (h : F32.ge (F32.add (ν.sub 0) v.osc.pos e.w) F32.one = true) :
    let p1 := F32.sub ((ν.sub 2).sub 0) (F32.add (ν.sub 0) v.osc.pos e.w) F32.one
    let rw := rfrac ((ν.sub 2).sub 1) e.w p1 F32.posZero
    freeSample P ν e .saw .master v
      = { placeStep P ((ν.sub 2).sub 2) e rw F32.one v with
          osc := { v.osc with pos := p1, sect := true }
          syncBuf := Mem.write syncReset v.syncBuf e.s rw } := by
  simp only [freeSample, exportWrap, advance, threshEvent_saw, wrapEvent, h, if_true, Option.getD_some]
  rfl

end

/-! ## The output (R566) -/

/-- Bus word `d` takes the naive value at the bus's gain, and no other word changes. -/
theorem output_reads (P : Params) (ν : NanSource) {e : Sample} (wv : Wave) {v : Voice} {hi d : Nat}
    (hd : e.s + P.D = d) (hA : Mem.wf busReset hi v.busA = true) (hB : Mem.wf busReset hi v.busB = true) :
    let u := output P ν e wv v
    let y := naive (ν.sub 0) wv v.osc.pos v.osc.sect v.osc.nval e.th
    Mem.read busReset u.busA d = F32.add (ν.sub 1) (Mem.read busReset v.busA d) (F32.mul (ν.sub 2) e.gA y)
    ∧ Mem.read busReset u.busB d = F32.add (ν.sub 3) (Mem.read busReset v.busB d) (F32.mul (ν.sub 4) e.gB y)
    ∧ ∀ j, j ≠ d → Mem.read busReset u.busA j = Mem.read busReset v.busA j
        ∧ Mem.read busReset u.busB j = Mem.read busReset v.busB j := by
  subst hd
  exact ⟨Mem.read_write_same hA _ _, Mem.read_write_same hB _ _, fun j hj =>
    ⟨Mem.read_accumulate_other _ _ _ _ j hj, Mem.read_accumulate_other _ _ _ _ j hj⟩⟩

/-! ## One sample of a master sawtooth -/

section
variable {P : Params} {ν : NanSource} {e : Sample} {v : Voice} {hi d : Nat} (hd : e.s + P.D = d)
  (hA : Mem.wf busReset hi v.busA = true) (hB : Mem.wf busReset hi v.busB = true)
include hd hA hB

theorem sampleStep_saw_of_lt (h : F32.ge (F32.add ((ν.sub 1).sub 0) v.osc.pos e.w) F32.one = false) :
    let p := F32.add ((ν.sub 1).sub 0) v.osc.pos e.w
    let y := F32.sub ((ν.sub 2).sub 0) F32.half p
    let u := sampleStep P ν e .saw .master v
    u.osc = { v.osc with pos := p }
    ∧ u.syncBuf = Mem.write syncReset v.syncBuf e.s F32.negOne
    ∧ Mem.read busReset u.busA d
      = F32.add ((ν.sub 2).sub 1) (Mem.read busReset v.busA d) (F32.mul ((ν.sub 2).sub 2) e.gA y)
    ∧ Mem.read busReset u.busB d
      = F32.add ((ν.sub 2).sub 3) (Mem.read busReset v.busB d) (F32.mul ((ν.sub 2).sub 4) e.gB y)
    ∧ ∀ j, j ≠ d → Mem.read busReset u.busA j = Mem.read busReset v.busA j
        ∧ Mem.read busReset u.busB j = Mem.read busReset v.busB j := by
  intro p y u
  have hu : u = output P (ν.sub 2) e .saw { v with
      osc := { v.osc with pos := p }, syncBuf := Mem.write syncReset v.syncBuf e.s F32.negOne } :=
    (sampleStep_master P ν e .saw v).trans (congrArg (output P (ν.sub 2) e .saw) (freeSample_saw_of_lt h))
  rw [hu]
  exact ⟨rfl, rfl, output_reads P _ .saw hd hA hB⟩

theorem sampleStep_saw_of_ge (hfits : e.s + P.L ≤ hi)
    (h : F32.ge (F32.add ((ν.sub 1).sub 0) v.osc.pos e.w) F32.one = true) :
    let μ := (ν.sub 1).sub 2
    let p1 := F32.sub (μ.sub 0) (F32.add ((ν.sub 1).sub 0) v.osc.pos e.w) F32.one
    let rw := rfrac (μ.sub 1) e.w p1 F32.posZero
    let y := F32.sub ((ν.sub 2).sub 0) F32.half p1
    let w := placeStep P (μ.sub 2) e rw F32.one v
    let u := sampleStep P ν e .saw .master v
    u.osc = { v.osc with pos := p1, sect := true }
    ∧ u.syncBuf = Mem.write syncReset v.syncBuf e.s rw
    ∧ Mem.read busReset u.busA d
      = F32.add ((ν.sub 2).sub 1) (Mem.read busReset w.busA d) (F32.mul ((ν.sub 2).sub 2) e.gA y)
    ∧ Mem.read busReset u.busB d
      = F32.add ((ν.sub 2).sub 3) (Mem.read busReset w.busB d) (F32.mul ((ν.sub 2).sub 4) e.gB y)
    ∧ ∀ j, j ≠ d → Mem.read busReset u.busA j = Mem.read busReset w.busA j
        ∧ Mem.read busReset u.busB j = Mem.read busReset w.busB j := by
  intro μ p1 rw y w u
  have hu : u = output P (ν.sub 2) e .saw { w with
      osc := { v.osc with pos := p1, sect := true }, syncBuf := Mem.write syncReset v.syncBuf e.s rw } :=
    (sampleStep_master P ν e .saw v).trans (congrArg (output P (ν.sub 2) e .saw) (freeSample_saw_of_ge h))
  rw [hu]
  exact ⟨rfl, rfl, output_reads P _ .saw hd (placeOn_wf _ _ _ _ _ _ _ hfits _ hA)
    (placeOn_wf _ _ _ _ _ _ _ hfits _ hB)⟩

end

end Sys2Proof.Machine
end

section
/-! PROOFS. The statements of spec/43_render.md. -/

namespace Sys2Proof.Machine

open F32 (Within)

/-- Settles O54: the commands that write a core's state registers reset them or are RENDER (`Effect.oscOk`), and every
sample moves a phase below 1.0 by an increment of at most 0.5 (`phaseOk_move`). -/
theorem stepKeepsCoreRegisters : Obligations.StepKeepsCoreRegisters :=
  fun _ _ => step_keeps (fun _ _ _ h => ⟨h.phase, h.level, h.lastSeen⟩) (fun _ _ h => ⟨h.phase, h.level, h.lastSeen⟩)
    Effect.oscOk

/-- Settles O38: an increment is at most `wt_s`, which is at least 2^-24 and at most the rounded `1.0 − wt_s`. -/
theorem incrementAndThresholdRanges : Obligations.IncrementAndThresholdRanges := by
  intro ν x q w wt th
  have hw : Within F32.posZero F32.half w := clampIncrement_within x
  have hwt : Within F32.twoPowNeg24 F32.half wt := clampThreshold_bound_within w
  have hcomp : Within wt 0x3F7FFFFF (F32.sub ν F32.one wt) := complement_within ν hwt
  have hth : Within wt (F32.sub ν F32.one wt) th := clampThreshold_within ν q w
  have hle : F32.le w wt = true := F32.le_clampTh hw.2 rfl
  exact ⟨⟨hw.notNaN, hw⟩, hth.1, hth.2, F32.le_trans hle hth.1,
    F32.lt_le_trans (b := F32.twoPowNeg24) (by decide) (F32.le_trans hwt.1 hth.1),
    F32.le_lt_trans (F32.le_trans hth.2 hcomp.2) (by decide)⟩

/-- Refutes O39: at 0x3E800001, which is 0.25 plus 2^-25, the exact difference has an odd multiple of 2^-25 above 0.5,
where binary32 values are 2^-24 apart. -/
theorem not_thresholdComplementExact : ¬ Obligations.ThresholdComplementExact := by
  intro h
  have hodd : F32.clampTh (clampIncrement 0x3E800001) 0x33800000 0x3F000000 = 0x3E800001 := by decide
  have hexact := h (fun _ _ _ _ => 0x7FC00000) 0x3E800001
  rw [hodd] at hexact
  exact absurd hexact (by decide +kernel)

/-- Settles O40: without modulation both curves give 1.0, so the ramps stay at W_BASE and at 1.0. -/
theorem unmodulatedRamps : Obligations.UnmodulatedRamps := by
  intro ν μ cfg mods o n s h0 hn hs
  have hn' : n ≤ 2 ^ 16 := by omega
  have hs' : s ≤ 2 ^ 16 := by omega
  refine ⟨fun hamt hbase hslot => ?_, fun hamt hslot => ⟨fun hlevel => ?_, fun hlevel => ?_⟩⟩
  · have hw := rampsOf_w_unmodulated Config.params_ok (ν.sub 0) μ h0 hn' hs' hamt hbase hslot
    obtain ⟨hfin, hval⟩ := F32.add_posZero_of_finite (ν.sub 0) hbase
    rw [sampleOf_w, hw]
    exact F32.order_clampTh_congr _ _ (F32.not_nan_inf_of_finite hfin).1 (F32.not_nan_inf_of_finite hbase).1
      (F32.order_eq_of_toInt_eq hval)
  · rw [sampleOf_gA, rampsOf_a_unmodulated Config.params_ok _ μ h0 hn' hs' hamt hslot,
      F32.mul_one_of_notNaN _ hlevel]
  · rw [sampleOf_gB, rampsOf_a_unmodulated Config.params_ok _ μ h0 hn' hs' hamt hslot,
      F32.mul_one_of_notNaN _ hlevel]

/-- Settles O44: POS as `advance_pos` says; a master writes what `advance` answers (`advance_wrapped`) to its own word. -/
theorem freeStepMovesAndExports : Obligations.FreeStepMovesAndExports := by
  intro P ν e wv v hν hwf
  refine ⟨ν.sub 0, (ν.sub 2).sub 0, (ν.sub 2).sub 1, hν.sub 0, (hν.sub 2).sub 0, (hν.sub 2).sub 1, ?_⟩
  intro p p1 rw m sl
  have hsync : m.syncBuf = Mem.write syncReset v.syncBuf e.s (if F32.ge p F32.one = true then rw else F32.negOne) := by
    rw [freeSample_master_syncBuf, advance_wrapped, apply_ite (Option.getD · F32.negOne)]
    rfl
  refine ⟨(congrArg Osc.pos (freeSample_osc ..)).trans (advance_pos ..), rfl, ?_, fun j hj => ?_,
    advance_syncBuf ..⟩
  · rw [hsync, Mem.read_write hwf, if_pos rfl]
    rfl
  · rw [hsync, Mem.read_write hwf, if_neg hj]

/-- Settles O45: the sync event comes last in the sample and sets POS to a fraction of the increment
(`F32.mul_fraction_within`). -/
theorem syncSetsThePhase : Obligations.SyncSetsThePhase := by
  intro P ν e wv v x hν hw hge
  have hosc := sampleStep_osc P ν e wv .slave v
  rw [if_pos ⟨rfl, hge⟩] at hosc
  have hpos := congrArg Osc.pos hosc
  refine ⟨((ν.sub 0).sub 3).sub 5, ((hν.sub 0).sub 3).sub 5, hpos, ?_, congrArg Osc.sect hosc, ?_⟩
  · rw [hpos]
    exact (F32.mul_fraction_within _ (clampFraction_within _) (hw ▸ clampIncrement_within x) F32.finite_half).2
  · exact (sampleStep_syncBuf P ν e wv .slave v).resolve_right fun h => nomatch h.1

/-- Settles O47: every single change of a sample keeps `Voice.RenderedFrom`, and a RENDER puts back its voice only. -/
theorem renderChangesOnlyItsVoice : Obligations.RenderChangesOnlyItsVoice := by
  intro c s hopen m wv role
  have hframe : Voice.RenderedFrom Config.params m wv role s.burstN.val (voiceOf s c)
      (renderVoice Config.params (Config.params.nan s.pc) s.cores[c].cfg s.mods s.offset.toNat s.burstN.val
        (voiceOf s c)) :=
    renderVoice_renderedFrom Config.D_lt_L ..
  refine ⟨_, exec_render_of_open hopen c, ?_, ?_, fun d hd => ?_, fun d r => ?_, fun b j hj => ?_, hframe.syncBuf,
    hframe.drawIx, rfl⟩
  · rw [oscRead_retire, oscRead_withVoice_same, hframe.lastMode]
  · rw [oscRead_retire, oscRead_withVoice_same, hframe.lastWave]
  · rw [oscRead_retire, oscRead_withVoice_other s _ hd]
  · rw [cfgRead_retire, cfgRead_withVoice]
  · cases b with
    | A => exact hframe.busA j hj
    | B => exact hframe.busB j hj

/-- Settles O48: in these modes a RENDER is the selector alone (`renderVoice_of_other`). -/
theorem otherModesRenderNothing : Obligations.OtherModesRenderNothing := by
  intro c s hopen hmode m wv
  have hrender := exec_render_of_open hopen c
  rw [renderVoice_of_other _ _ _ _ _ _ hmode] at hrender
  refine ⟨_, hrender, ?_, fun d hd => ?_, fun d r => ?_, rfl⟩
  · rw [oscRead_retire, oscRead_withVoice_same]
    rfl
  · rw [oscRead_retire, oscRead_withVoice_other s _ hd]
  · rw [cfgRead_retire, cfgRead_withVoice]

/-- Settles O49: the burst is one sample (`renderVoice_one`), a free step without a wrap (`sampleStep_saw_of_lt`) or with
one (`sampleStep_saw_of_ge`) and the output. -/
theorem renderOneSawSample : Obligations.RenderOneSawSample := by
  intro c s hopen hn hmem hmode hwave hsync hlastMode hlastWave
  have hν : NanSource.Ok (Config.params.nan s.pc) := Config.params_ok.nan_isNaN s.pc
  have hn' : s.burstN.val = 1 := congrArg Fin.val hn
  have hfits : 0 + Config.params.L ≤ Config.params.busLen := by
    rw [Params.busLen]
    omega
  have hexec := exec_render_of_open hopen c
  rw [hn'] at hexec
  generalize Config.params.nan s.pc = ν at hν hexec
  refine ⟨retire (withVoice s c (sampleStep Config.params ((ν.sub 1).sub 0) (sampleOf ((ν.sub 1).sub 1) s.cores[c].cfg
      (rampsOf Config.params (ν.sub 0) s.cores[c].cfg s.mods s.offset.toNat 1) 0) .saw .master (voiceOf s c))),
    ν.places [[1, 1], [0], [1, 0, 1, 0], [1, 0, 1, 2, 0], [1, 0, 1, 2, 1], [1, 0, 1, 2, 1], [1, 0, 1, 2, 2],
      [1, 0, 2, 1], [1, 0, 2, 2], [1, 0, 2, 0], [1, 0, 2, 3], [1, 0, 2, 4]], hν.places _, ?_⟩
  intro e p p1 rw u
  have hd : e.s + Config.params.D = Config.params.D := Nat.zero_add _
  refine ⟨?_, fun j hj => ?_, fun hp => ?_, fun hp => ?_⟩
  · rw [hexec, renderVoice_one Config.params ν s.mods _ hmode hwave hsync hlastMode hlastWave]
  · have hsyncBuf := sampleStep_master_syncBuf Config.params ((ν.sub 1).sub 0) e .saw (voiceOf s c)
    exact (congrArg (Mem.read syncReset · j) hsyncBuf).trans (Mem.read_write_other _ _ _ _ _ hj)
  · obtain ⟨hosc, hword, hA, hB, hother⟩ := sampleStep_saw_of_lt (P := Config.params) (ν := (ν.sub 1).sub 0)
      (e := e) (v := voiceOf s c) hd hmem.busA hmem.busB hp
    refine ⟨(oscRead_withVoice_same s c _).trans hosc, hA, hB, fun b j hj => ?_,
      (congrArg (Mem.read syncReset · 0) hword).trans (Mem.read_write_same hmem.syncBuf 0 _)⟩
    cases b with
    | A => exact (hother j hj).1
    | B => exact (hother j hj).2
  · obtain ⟨hosc, hword, hA, hB, hother⟩ := sampleStep_saw_of_ge (P := Config.params) (ν := (ν.sub 1).sub 0)
      (e := e) (v := voiceOf s c) hd hmem.busA hmem.busB hfits hp
    exact ⟨(oscRead_withVoice_same s c _).trans hosc, hA, hB, hother,
      (congrArg (Mem.read syncReset · 0) hword).trans (Mem.read_write_same hmem.syncBuf 0 _)⟩

/-- Settles O59: `advance` is `threshEvent` and then `wrapEvent`, at the operations' own positions. -/
theorem advanceRaisesItsEvents : Obligations.AdvanceRaisesItsEvents := by
  intro P ν e wv δ rb v hν
  exact ⟨ν.places [[0], [2, 0], [2, 1], [2, 1], [1, 0], [1, 1], [1, 1], [1, 2], [2, 2]], hν.places _, rfl⟩

/-- Settles O60: a sample by its two cases, a RENDER by `renderVoice_of_minBlep`; the parameters of a sample are the
formulas of R557 to R561 at the operations' own positions. -/
theorem renderRunsItsSamples : Obligations.RenderRunsItsSamples := by
  refine ⟨fun P ν e wv role v hν => ?_, fun c s hopen hmode => ?_,
    fun P ν κ cfg mods o n k hν hκ => ?_⟩
  · by_cases hsync : role = .slave ∧ F32.ge (Mem.read syncReset v.syncBuf e.s) F32.posZero = true
    · refine ⟨ν.places [[0, 0], [0, 1], [0, 2], [0, 3], [2, 0], [2, 1], [2, 2], [2, 3], [2, 4]], hν.places _, ?_⟩
      intro x f full part u
      have hu : u = syncedSample P (ν.sub 0) e wv f v := if_pos hsync
      exact (sampleStep_of_synced P ν e wv v hsync).trans (congrArg (output P (ν.sub 2) e wv) hu.symm)
    · refine ⟨ν.places [[1], [], [], [], [2, 0], [2, 1], [2, 2], [2, 3], [2, 4]], hν.places _, ?_⟩
      intro x f full part u
      have hu : u = freeSample P (ν.sub 1) e wv role v := (if_neg hsync).trans (by cases role <;> rfl)
      exact (sampleStep_of_free P ν e wv v hsync).trans (congrArg (output P (ν.sub 2) e wv) hu.symm)
  · intro wv wn role selected
    have hν : NanSource.Ok (Config.params.nan s.pc) := Config.params_ok.nan_isNaN s.pc
    refine ⟨_, (Config.params.nan s.pc).sub 0, fun k => ((Config.params.nan s.pc).sub 1).sub (2 * k),
      fun k => ((Config.params.nan s.pc).sub 1).sub (2 * k + 1), hν.sub 0, fun k => (hν.sub 1).sub _,
      fun k => (hν.sub 1).sub _, exec_render_of_open hopen c, ?_⟩
    have hselected : selectOsc .minBlep wv (oscRead s c) = selected := selectOsc_minBlep wv (oscRead s c)
    show voiceOf (withVoice s c _) c = _
    rw [voiceOf_withVoice, renderVoice_of_minBlep _ _ _ _ _ _ hmode, ← hselected]
    rfl
  · exact ⟨(ν.both κ).places [
        [0, 0, 1, 0], [0, 0, 1, 1], [0, 0, 2], [0, 0, 3, 0], [0, 0, 3, 1], [0, 0, 4], [0, 0, 0], [1, 0],
        [0, 1, 1], [0, 1, 2], [0, 1, 3], [0, 1, 4], [0, 1, 0], [1, 1],
        [0, 2, 1], [0, 2, 2], [0, 2, 3], [0, 2, 4], [0, 2, 0], [1, 3], [1, 2], [1, 4], [1, 5]],
      (hν.both hκ).places _, rfl⟩

end Sys2Proof.Machine
end

section
/-! PROOFS. What a placement adds to each word of its window (spec/44_waveforms.md R600, R601; spec/20_memory.md R204). -/

namespace Sys2Proof.Machine

section
variable (ν : NanSource) (rom : Word → Nat → Word) (g size r : Word) (s : Nat)

/-- The taps are placed in rising order, so the last one comes after a shorter placement. -/
theorem placeOn_succ (len : Nat) (m : Mem) :
    placeOn ν rom (len + 1) g size r s m
      = placeTap (ν.sub len) rom g size r s (placeOn ν rom len g size r s m) len := by
  rw [placeOn, List.range_succ, List.foldl_append]
  rfl

/-- Each word of the window takes its own tap and no other. -/
theorem placeOn_read_tap {hi : Nat} {m : Mem} (hm : Mem.wf busReset hi m = true) {k : Nat} :
    ∀ {len : Nat}, s + len ≤ hi → k < len →
      Mem.read busReset (placeOn ν rom len g size r s m) (s + k)
        = F32.add ((ν.sub k).sub 0) (Mem.read busReset m (s + k))
          (F32.mul ((ν.sub k).sub 1) (F32.mul ((ν.sub k).sub 2) g size) (rom r k))
  | len + 1, hlen, hk => by
    have hwf := placeOn_wf ν rom len g size r s (by omega) m hm
    rw [placeOn_succ, placeTap, Mem.read_accumulate _ hwf]
    rcases Nat.lt_succ_iff_lt_or_eq.1 hk with hlt | rfl
    · rw [if_neg (by omega), placeOn_read_tap hm (by omega) hlt]
    · rw [if_pos rfl, placeOn_read_other _ _ _ _ _ _ _ _ _ (.inr (Nat.le_refl _))]

end

/-- `u` is `v` with a correction of size `x` from the table `rom` placed on both buses, and nothing else changed. -/
structure Voice.PlacedFrom (P : Params) (ν : NanSource) (rom : Word → Nat → Word) (e : Sample) (r x : Word)
    (v u : Voice) : Prop where
  busA : u.busA = placeOn (ν.sub 0) rom P.L e.gA x r e.s v.busA
  busB : u.busB = placeOn (ν.sub 1) rom P.L e.gB x r e.s v.busB
  frame : u = { v with busA := u.busA, busB := u.busB }

theorem placeStep_placedFrom (P : Params) (ν : NanSource) (e : Sample) (r x : Word) (v : Voice) :
    v.PlacedFrom P ν P.step e r x (placeStep P ν e r x v) := ⟨rfl, rfl, rfl⟩

theorem placeSlope_placedFrom (P : Params) (ν : NanSource) (e : Sample) (r x : Word) (v : Voice) :
    v.PlacedFrom P ν P.slope e r x (placeSlope P ν e r x v) := ⟨rfl, rfl, rfl⟩

end Sys2Proof.Machine
end

section
/-! PROOFS. The threshold of a sample, and the THRESH and WRAP tests of a move by their outcomes (spec/43_render.md R560,
R563). -/

namespace Sys2Proof.Machine

open F32 (Within)

/-- A threshold of R560 lies between 2^-24 and 1.0 less that. -/
theorem clampThreshold_range (μ : NanSource) (q w : Word) :
    Within F32.twoPowNeg24 0x3F7FFFFF (clampThreshold μ q w) := by
  obtain ⟨hlow, hhigh⟩ := clampThreshold_within μ q w
  have hwt := clampThreshold_bound_within w
  exact ⟨F32.le_trans hwt.1 hlow, F32.le_trans hhigh (complement_within μ hwt).2⟩

section
variable (P : Params) (ν : NanSource) {e : Sample} {wv : Wave} {p : Word} (rb : Word) {v : Voice}

theorem threshEvent_of_lt (h : F32.ge p e.th = false) : threshEvent P ν e wv p rb v = v :=
  if_neg fun ⟨_, _, hge⟩ => Bool.false_ne_true (h.symm.trans hge)

/-- In section 0 there is no THRESH, and of the sawtooth there is none at all. -/
theorem threshEvent_of_past (h : wv = .saw ∨ v.osc.sect = false) : threshEvent P ν e wv p rb v = v :=
  if_neg fun ⟨hwv, hsect, _⟩ => Bool.false_ne_true ((h.resolve_left hwv).symm.trans hsect)

/-- A phase that reaches the threshold in section 1 raises a THRESH, which does nothing to the sawtooth. -/
theorem threshEvent_of_reach (hsect : v.osc.sect = true) (hge : F32.ge p e.th = true) :
    threshEvent P ν e wv p rb v = onThresh P (ν.sub 0) e wv (rfrac (ν.sub 1) e.w (F32.sub (ν.sub 2) p e.th) rb) v := by
  by_cases hwv : wv = .saw
  · subst hwv
    exact threshEvent_saw p rb
  · exact if_pos ⟨hwv, hsect, hge⟩

/-- After the THRESH test of a phase that has reached the threshold, SECT is 0, whatever it was before. -/
theorem threshEvent_sect_of_ge (hwv : wv ≠ .saw) (hge : F32.ge p e.th = true) :
    (threshEvent P ν e wv p rb v).osc.sect = false := by
  cases hsect : v.osc.sect with
  | true => rw [threshEvent_of_reach P ν rb hsect hge, onThresh_sect _ _ _ _ _ _ hwv]
  | false => rw [threshEvent_of_past P ν rb (.inr hsect), hsect]

theorem wrapEvent_of_ge (hge : F32.ge p F32.one = true) :
    wrapEvent P ν e wv p rb v =
      let p1 := F32.sub (ν.sub 0) p F32.one
      let rw := rfrac (ν.sub 1) e.w p1 rb
      let u := onWrap P (ν.sub 2) e wv rw v
      ({ u with osc := { u.osc with pos := p1 } }, some rw) :=
  if_pos hge

end

end Sys2Proof.Machine
end

section
/-! PROOFS. The phase at an increment 2^-k: its sums are exact up to 1.0 (spec/44_waveforms.md R612). -/

namespace Sys2Proof.F32

/-- A number of at most 24 significant bits, and no more than 1.0, is the value of a pattern. -/
theorem exists_toInt_eq {s e : Nat} (hs : s < 2 ^ 24) (hle : s * 2 ^ e ≤ 2 ^ 149) :
    ∃ c, Finite c ∧ toInt c = (s * 2 ^ e : Nat) := by
  obtain ⟨m, hm⟩ := exists_magUnits_eq e s hs
  have hfin : m < infMag := by
    refine magUnits_strictMono.lt_iff_lt.1 ?_
    rw [hm, magUnits_infMag]
    omega
  refine ⟨pack false m, finite_pack false hfin, ?_⟩
  rw [toInt_pack false (hfin.trans (by decide)), hm]
  rfl

/-- The pattern with exponent field `127 - k` and significand 1.0 is 2^-k. -/
theorem toInt_pack_exponent {k : Nat} (h1 : 1 ≤ k) (hk : k ≤ 126) :
    Finite (pack false ((127 - k) * 2 ^ 23)) ∧ toInt (pack false ((127 - k) * 2 ^ 23)) = (2 ^ (149 - k) : Nat) := by
  have hfin : (127 - k) * 2 ^ 23 < infMag := (show (127 - k) * 2 ^ 23 < 0x7F800000 by omega)
  have hsplit : (127 - k) * 2 ^ 23 = (126 - k) * 2 ^ 23 + 2 ^ 23 := by omega
  have hexp : 23 + (126 - k) = 149 - k := by omega
  have hval : magUnits ((127 - k) * 2 ^ 23) = 2 ^ (149 - k) := by
    rw [hsplit, magUnits_significand (by decide) (.inr le_rfl), ← Nat.pow_add, hexp]
  refine ⟨finite_pack false hfin, ?_⟩
  rw [toInt_pack false (hfin.trans (by decide)), hval]
  rfl

end Sys2Proof.F32

namespace Sys2Proof.Machine

/-- The phase `p` is `m` increments of 2^-k. -/
structure PhaseAt (k m : Nat) (p : Word) : Prop where
  finite : F32.Finite p
  value : F32.toInt p = (m * 2 ^ (149 - k) : Nat)

theorem PhaseAt.zero (k : Nat) : PhaseAt k 0 F32.posZero := ⟨F32.finite_posZero, by rw [Nat.zero_mul]; rfl⟩

section
variable {k m : Nat} {p w : Word} (ν : NanSource) (hk : k ≤ 24) (hp : PhaseAt k m p) (hw : PhaseAt k 1 w)
include hk

theorem two_pow_mul_increment : 2 ^ k * 2 ^ (149 - k) = 2 ^ 149 := by
  rw [← Nat.pow_add, Nat.add_sub_cancel' (by omega)]

include hp hw

/-- Below 1.0 the sum has at most 24 significant bits, so it is exact. -/
theorem PhaseAt.add_of_lt (hm : m + 1 < 2 ^ k) :
    PhaseAt k (m + 1) (F32.add ν p w) ∧ F32.ge (F32.add ν p w) F32.one = false := by
  have hpow : 2 ^ k ≤ 2 ^ 24 := Nat.pow_le_pow_right (by decide) hk
  have hlt : (m + 1) * 2 ^ (149 - k) < 2 ^ 149 := by
    rw [← two_pow_mul_increment hk]
    exact Nat.mul_lt_mul_of_pos_right hm (Nat.two_pow_pos _)
  obtain ⟨c, hc, hcval⟩ := F32.exists_toInt_eq (s := m + 1) (by omega) hlt.le
  have hsum : F32.toInt p + F32.toInt w = F32.toInt c := by
    rw [hp.value, hw.value, hcval, Nat.add_mul, Nat.cast_add]
  obtain ⟨hfin, hval, -⟩ := F32.add_of_toInt_add_eq ν hp.finite hw.finite hc hsum
  refine ⟨⟨hfin, hval.trans hcval⟩, ?_⟩
  rw [← Bool.not_eq_true, F32.ge, F32.le_iff_toInt rfl (F32.not_nan_inf_of_finite hfin).1, hval, hcval, F32.toInt_one]
  exact_mod_cast hlt.not_ge

theorem PhaseAt.add_eq_one (hm : m + 1 = 2 ^ k) : F32.add ν p w = F32.one := by
  have hsum : F32.toInt p + F32.toInt w = F32.toInt F32.one := by
    rw [hp.value, hw.value, ← Nat.cast_add, ← Nat.add_mul, hm, two_pow_mul_increment hk, F32.toInt_one]
    rfl
  exact (F32.add_of_toInt_add_eq ν hp.finite hw.finite F32.finite_one hsum).2.2 (by decide)

end

end Sys2Proof.Machine
end

section
/-! PROOFS. What a SYNC event places at a threshold of R560 (spec/44_waveforms.md R609, R610). -/

namespace Sys2Proof.F32

/-! ## Operations on finite values, without a NaN source -/

section
variable (ν : NanSource) {a b x : Word}

theorem add_eq_of_finite (ha : Finite a) (hb : Finite b) : add ν a b = addNaN posZero a b := by
  rw [add, addNaN_of_finite _ ha hb, addNaN_of_finite _ ha hb]

theorem sub_eq_of_finite (ha : Finite a) (hb : Finite b) : sub ν a b = addNaN posZero a (neg b) := by
  rw [sub_eq_addNaN ν a (not_nan_inf_of_finite hb).1, addNaN_of_finite _ ha (finite_neg hb),
    addNaN_of_finite _ ha (finite_neg hb)]

/-- A finite value less +0.0 is that value, to the bit. -/
theorem sub_posZero_of_finite (h : Finite x) : sub ν x posZero = x := by
  have hsum : toInt x + toInt (neg posZero) = toInt x := by
    rw [toInt_neg, toInt_posZero, Int.neg_zero, Int.add_zero]
  rw [sub_eq_addNaN ν x rfl]
  cases hz : isZero x with
  | false => exact (add_of_toInt_add_eq (fun _ _ _ _ => _) h (finite_neg finite_posZero) h hsum).2.2 hz
  | true =>
    have hmag : mag x = 0 := by simpa [isZero] using hz
    have hval : toInt x = 0 := Int.natAbs_eq_zero.1 ((natAbs_toInt x).trans (isZero_eq_true_iff.1 hz))
    rw [addNaN_of_sum_zero _ h (finite_neg finite_posZero) (hsum.trans hval), ← pack_sign_mag x, hmag,
      sign_pack _ (by decide)]
    cases sign x <;> decide

/-- A finite value times +0.0 is a zero. -/
theorem isZero_mul_posZero (h : Finite x) : isZero (mul ν x posZero) = true := by
  have hunits : units posZero = 0 := rfl
  rw [mul_eq_pack ν h finite_posZero, hunits, Nat.mul_zero, roundMag_zero]
  cases sign x != sign posZero <;> rfl

end

/-! ## Division by a value of at least 2^-24 -/

theorem toInt_twoPowNeg24 : toInt twoPowNeg24 = 2 ^ 125 := by decide +kernel

section
variable {x : Word} (hf : Finite x) (h : le twoPowNeg24 x = true)
include h

theorem units_of_twoPowNeg24_le : sign x = false ∧ 2 ^ 125 ≤ units x := by
  have hle := (le_iff_toInt rfl (le_iff.1 h).2.1).1 h
  rw [toInt_twoPowNeg24, toInt] at hle
  cases hs : sign x with
  | false =>
    rw [hs, if_neg Bool.false_ne_true] at hle
    exact ⟨rfl, by omega⟩
  | true =>
    rw [hs, if_pos rfl] at hle
    omega

theorem isZero_of_twoPowNeg24_le : isZero x = false := by
  have hunits := (units_of_twoPowNeg24_le h).2
  rw [← Bool.not_eq_true, isZero_eq_true_iff]
  omega

include hf

theorem posZero_div_of_twoPowNeg24_le (ν : NanSource) : div ν posZero x = posZero := by
  have hunits : units posZero = 0 := rfl
  rw [div_eq_pack ν finite_posZero hf (isZero_of_twoPowNeg24_le h), hunits, Nat.zero_mul, roundMag_zero,
    (units_of_twoPowNeg24_le h).1]
  rfl

/-- The reciprocal is at most 2^24, so it is no infinity. -/
theorem finite_one_div_of_twoPowNeg24_le (ν : NanSource) : Finite (div ν one x) := by
  have hone : units one = 2 ^ 149 := by decide +kernel
  have hunits := (units_of_twoPowNeg24_le h).2
  rw [div_eq_pack ν finite_one hf (isZero_of_twoPowNeg24_le h), hone]
  exact finite_pack _ (roundMag_lt_infMag (by omega) (by omega))

end

end Sys2Proof.F32

namespace Sys2Proof.Machine

open F32 (Within)

/-! ## The value and the slope after a SYNC event -/

/-- `y_0` of R609: the naive value that a SYNC event resets to; the noise's is its new level `n`. -/
def syncLevel (n : Word) : Wave → Word
  | .saw | .rect => F32.half
  | .tri | .clipped => F32.negHalf
  | .noise => n

/-- The K of a SYNC event of the triangle or the clipped saw in section `b` (R609). -/
def syncSlopeSize (ν : NanSource) (e : Sample) (wv : Wave) (b : Bool) : Word :=
  F32.mul (ν.sub 1) e.w
    (F32.sub (ν.sub 2) (riseSlope (ν.sub 3) e.th) (slopeBeforeSync (ν.sub 4) wv b e.th))

section
variable {th : Word} (h : Within F32.twoPowNeg24 0x3F7FFFFF th)
include h

theorem finite_threshold : F32.Finite th := h.finite (by decide) (by decide)

theorem naive_reset (ν : NanSource) (wv : Wave) (n : Word) :
    naive ν wv F32.posZero true n th = syncLevel n wv := by
  have hrise : F32.add ν F32.negHalf (F32.div ν F32.posZero th) = F32.negHalf := by
    rw [F32.posZero_div_of_twoPowNeg24_le (finite_threshold h) h.1, F32.add_eq_of_finite ν (by decide) (by decide)]
    decide +kernel
  cases wv with
  | saw => exact F32.sub_posZero_of_finite ν F32.finite_half
  | rect | noise => rfl
  | tri | clipped => exact hrise

theorem finite_riseSlope (ν : NanSource) : F32.Finite (riseSlope ν th) :=
  F32.finite_one_div_of_twoPowNeg24_le (finite_threshold h) h.1 ν

theorem riseSlope_source (ν μ : NanSource) : riseSlope ν th = riseSlope μ th :=
  F32.div_of_finite ν μ F32.finite_one (finite_threshold h) (F32.isZero_of_twoPowNeg24_le h.1)

end

/-- The rectangle jumps by nothing in section 1 and by 1.0 in section 0 (R610). -/
theorem rect_syncJump (ν μ : NanSource) (p n th : Word) (b : Bool) :
    F32.sub ν F32.half (naive μ .rect p b n th) = if b = true then 0x00000000 else 0x3F800000 := by
  cases b with
  | true => exact F32.sub_self_of_finite ν F32.finite_half
  | false =>
    have hjump : F32.sub ν F32.half F32.negHalf = F32.one := by
      rw [F32.sub_eq_of_finite ν F32.finite_half (by decide)]
      decide +kernel
    exact hjump

/-- The held clipped saw jumps from 0.5 to −0.5 (R610). -/
theorem clipped_syncJump (ν μ : NanSource) (p n th : Word) :
    F32.sub ν F32.negHalf (naive μ .clipped p false n th) = 0xBF800000 := by
  have hjump : F32.sub ν F32.negHalf F32.half = F32.negOne := by
    rw [F32.sub_eq_of_finite ν (by decide) F32.finite_half]
    decide +kernel
  exact hjump

/-! ## The event -/

/-- The state registers after a SYNC event at fraction `f`, with the noise level `n` (R609). -/
def resumed (ν : NanSource) (e : Sample) (f n : Word) (u : Voice) : Voice :=
  { u with osc := { u.osc with pos := F32.mul ν f e.w, sect := true, nval := n } }

/-- The noise takes a draw, and its step leads to that level. -/
theorem onSync_noise (P : Params) (ν : NanSource) (e : Sample) (f : Word) (v : Voice) :
    onSync P ν e .noise f v = { resumed (ν.sub 5) e f (P.noise v.drawIx)
      (placeStep P (ν.sub 2) e f (F32.sub (ν.sub 3) (P.noise v.drawIx) v.osc.nval) v) with drawIx := v.drawIx + 1 } :=
  rfl

section
variable {P : Params} (ν : NanSource) {e : Sample} (hth : Within F32.twoPowNeg24 0x3F7FFFFF e.th) (f : Word) (v : Voice)
include hth

/-- During the rise the slope before is the slope after, so the correction is a zero. -/
theorem isZero_syncSlopeSize_rise (hw : F32.Finite e.w) (wv : Wave) :
    F32.isZero (syncSlopeSize ν e wv true) = true := by
  have hzero : F32.sub (ν.sub 2) (riseSlope (ν.sub 3) e.th) (riseSlope (ν.sub 4) e.th) = F32.posZero := by
    rw [riseSlope_source hth (ν.sub 4) (ν.sub 3), F32.sub_self_of_finite _ (finite_riseSlope hth _)]
  have hsize : syncSlopeSize ν e wv true = F32.mul (ν.sub 1) e.w F32.posZero :=
    congrArg (F32.mul (ν.sub 1) e.w) hzero
  rw [hsize, F32.isZero_mul_posZero _ hw]

/-- The held clipped saw has no slope before. -/
theorem syncSlopeSize_clipped_held :
    syncSlopeSize ν e .clipped false = F32.mul (ν.sub 1) e.w (riseSlope (ν.sub 3) e.th) :=
  congrArg (F32.mul (ν.sub 1) e.w) (F32.sub_posZero_of_finite _ (finite_riseSlope hth _))

/-- A SYNC event of a waveform but the noise: the step from the value before to the reset value, then the slope. -/
theorem onSync_of_ne_noise {wv : Wave} (hwv : wv ≠ .noise) :
    onSync P ν e wv f v = resumed (ν.sub 5) e f v.osc.nval
      (placeSyncSlope P (ν.sub 4) e wv f v.osc.sect
        (placeStep P (ν.sub 2) e f (F32.sub (ν.sub 3) (syncLevel v.osc.nval wv)
          (naive (ν.sub 0) wv v.osc.pos v.osc.sect v.osc.nval e.th)) v)) := by
  rw [← naive_reset hth (ν.sub 1), onSync, if_neg hwv]
  rfl

variable {b : Bool} (hb : v.osc.sect = b)
include hb

/-- The sawtooth and the rectangle place one step. -/
theorem onSync_step {wv : Wave} (hwv : wv = .saw ∨ wv = .rect) {j : Word}
    (hj : F32.sub (ν.sub 3) F32.half (naive (ν.sub 0) wv v.osc.pos b v.osc.nval e.th) = j) :
    onSync P ν e wv f v = resumed (ν.sub 5) e f v.osc.nval (placeStep P (ν.sub 2) e f j v) := by
  subst hj hb
  rcases hwv with rfl | rfl
  · exact onSync_of_ne_noise ν hth f v nofun
  · exact onSync_of_ne_noise ν hth f v nofun

/-- The triangle and the clipped saw place one step and then one slope. -/
theorem onSync_stepAndSlope {wv : Wave} (hwv : wv = .tri ∨ wv = .clipped) {j k : Word}
    (hj : F32.sub (ν.sub 3) F32.negHalf (naive (ν.sub 0) wv v.osc.pos b v.osc.nval e.th) = j)
    (hk : syncSlopeSize (ν.sub 4) e wv b = k) :
    onSync P ν e wv f v = resumed (ν.sub 5) e f v.osc.nval
      (placeSlope P ((ν.sub 4).sub 0) e f k (placeStep P (ν.sub 2) e f j v)) := by
  subst hj hk hb
  rcases hwv with rfl | rfl
  · exact onSync_of_ne_noise ν hth f v nofun
  · exact onSync_of_ne_noise ν hth f v nofun

end

end Sys2Proof.Machine
end

section
/-! PROOFS. The four free steps of the examples of spec/44_waveforms.md R603 to R607, at an increment of 0.25 and a
threshold of 0.5. -/

namespace Sys2Proof.Machine

/-! ## A free step -/

/-- The two buses of a voice. -/
def Voice.buses (v : Voice) : Mem × Mem := (v.busA, v.busB)

/-- The voice at phase `p`, with the SYNC_BUF `m`. -/
def Voice.arrive (p : Word) (m : Mem) (v : Voice) : Voice :=
  { v with osc := { v.osc with pos := p }, syncBuf := m }

@[simp] theorem Voice.arrive_buses (p : Word) (m : Mem) (v : Voice) : (v.arrive p m).buses = v.buses := rfl

section
variable (P : Params) (ν : NanSource) (e : Sample) (wv : Wave) (role : Role) (v : Voice)

/-- A free step is a move by a whole increment; a master writes SYNC_BUF besides. -/
theorem freeSample_eq_advance :
    ∃ m, freeSample P ν e wv role v = { (advance P ν e wv e.w F32.posZero v).1 with syncBuf := m } := by
  cases role with
  | master => exact ⟨_, rfl⟩
  | slave => exact ⟨_, rfl⟩

variable {P ν e wv v} {p : Word} {t : Voice} (hp : F32.add (ν.sub 0) v.osc.pos e.w = p)
  (ht : threshEvent P (ν.sub 1) e wv p F32.posZero v = t)
include hp ht

/-- A free step to a phase below 1.0, with `t` the voice after its THRESH test. -/
theorem freeSample_of_lt (hlt : F32.ge p F32.one = false) : ∃ m, freeSample P ν e wv role v = t.arrive p m := by
  obtain ⟨m, hm⟩ := freeSample_eq_advance P ν e wv role v
  refine ⟨m, hm.trans ?_⟩
  subst hp ht
  rw [advance, wrapEvent, hlt]
  rfl

/-- A free step to a phase of at least 1.0, with `t` the voice after its THRESH test. -/
theorem freeSample_of_ge (hge : F32.ge p F32.one = true) :
    ∃ m, freeSample P ν e wv role v
      = (onWrap P ((ν.sub 2).sub 2) e wv (rfrac ((ν.sub 2).sub 1) e.w (F32.sub ((ν.sub 2).sub 0) p F32.one) F32.posZero)
          t).arrive (F32.sub ((ν.sub 2).sub 0) p F32.one) m := by
  obtain ⟨m, hm⟩ := freeSample_eq_advance P ν e wv role v
  refine ⟨m, hm.trans ?_⟩
  subst hp ht
  rw [advance, wrapEvent_of_ge _ _ _ hge]
  rfl

end

/-! ## The samples of the examples -/

/-- Sample `s` of the examples. -/
def exampleSample (gA gB : Word) (s : Nat) : Sample := { s := s, w := 0x3E800000, th := 0x3F000000, gA := gA, gB := gB }

/-- The four phases reached are 0.25, 0.5, 0.75 and 1.0. -/
theorem example_phases (ν : NanSource) :
    F32.add ν 0x00000000 0x3E800000 = 0x3E800000 ∧ F32.add ν 0x3E800000 0x3E800000 = 0x3F000000
    ∧ F32.add ν 0x3F000000 0x3E800000 = 0x3F400000 ∧ F32.add ν 0x3F400000 0x3E800000 = 0x3F800000 := by
  simp (disch := decide) only [F32.add_eq_of_finite]
  decide +kernel

/-- An event right at the phase reached has the fraction +0.0. -/
theorem example_fraction (μ κ : NanSource) {p : Word} (h : F32.Finite p) :
    rfrac μ 0x3E800000 (F32.sub κ p p) F32.posZero = F32.posZero := by
  rw [F32.sub_self_of_finite κ h, rfrac]
  simp (disch := decide +kernel) only [F32.add_eq_of_finite, F32.div_eq_pack]
  decide +kernel

section
variable (P : Params) (ν : NanSource) (role : Role) (gA gB : Word) (s : Nat) (wv : Wave) {u : Voice}

theorem exampleStep_from_zero (hpos : u.osc.pos = 0x00000000) :
    ∃ m, freeSample P ν (exampleSample gA gB s) wv role u = u.arrive 0x3E800000 m :=
  have hbelow : F32.ge 0x3E800000 0x3F000000 = false := by decide
  freeSample_of_lt role (hpos ▸ (example_phases (ν.sub 0)).1) (threshEvent_of_lt _ _ _ hbelow) (by decide)

theorem exampleStep_to_threshold (hpos : u.osc.pos = 0x3E800000) (hsect : u.osc.sect = true) :
    ∃ m, freeSample P ν (exampleSample gA gB s) wv role u
      = (onThresh P ((ν.sub 1).sub 0) (exampleSample gA gB s) wv F32.posZero u).arrive 0x3F000000 m := by
  have hge : F32.ge 0x3F000000 0x3F000000 = true := by decide
  have hreach := threshEvent_of_reach P (ν.sub 1) (e := exampleSample gA gB s) (wv := wv) F32.posZero hsect hge
  have hr : rfrac ((ν.sub 1).sub 1) (exampleSample gA gB s).w
      (F32.sub ((ν.sub 1).sub 2) 0x3F000000 (exampleSample gA gB s).th) F32.posZero = F32.posZero :=
    example_fraction _ _ (by decide)
  rw [hr] at hreach
  exact freeSample_of_lt role (hpos ▸ (example_phases (ν.sub 0)).2.1) hreach (by decide)

theorem exampleStep_past_threshold (hpos : u.osc.pos = 0x3F000000) (hpast : wv = .saw ∨ u.osc.sect = false) :
    ∃ m, freeSample P ν (exampleSample gA gB s) wv role u = u.arrive 0x3F400000 m :=
  freeSample_of_lt role (hpos ▸ (example_phases (ν.sub 0)).2.2.1) (threshEvent_of_past _ _ _ hpast) (by decide)

theorem exampleStep_to_wrap (hpos : u.osc.pos = 0x3F400000) (hpast : wv = .saw ∨ u.osc.sect = false) :
    ∃ m, freeSample P ν (exampleSample gA gB s) wv role u
      = (onWrap P ((ν.sub 2).sub 2) (exampleSample gA gB s) wv F32.posZero u).arrive F32.posZero m := by
  obtain ⟨m, hm⟩ := freeSample_of_ge role (e := exampleSample gA gB s) (hpos ▸ (example_phases (ν.sub 0)).2.2.2)
    (threshEvent_of_past P _ F32.posZero hpast) (by decide)
  have hr : rfrac ((ν.sub 2).sub 1) (exampleSample gA gB s).w (F32.sub ((ν.sub 2).sub 0) 0x3F800000 F32.one) F32.posZero
      = F32.posZero := example_fraction _ _ (by decide)
  have hp1 : F32.sub ((ν.sub 2).sub 0) 0x3F800000 F32.one = F32.posZero := F32.sub_self_of_finite _ F32.finite_one
  rw [hr, hp1] at hm
  exact ⟨m, hm⟩

end

/-! ## The four steps -/

/-- The voice after `n` free steps. -/
def exampleRun (P : Params) (ν : NanSource) (role : Role) (gA gB : Word) (v : Voice) (wv : Wave) (n : Nat) : Voice :=
  (List.range n).foldl (fun u s => freeSample P ν (exampleSample gA gB s) wv role u) v

theorem exampleRun_succ (P : Params) (ν : NanSource) (role : Role) (gA gB : Word) (v : Voice) (wv : Wave) (n : Nat) :
    exampleRun P ν role gA gB v wv (n + 1)
      = freeSample P ν (exampleSample gA gB n) wv role (exampleRun P ν role gA gB v wv n) := by
  rw [exampleRun, List.range_succ, List.foldl_append]
  rfl

/-- The voices `u 1` to `u 4` after four free steps from `v`: a THRESH in sample 1, which the sawtooth lacks and
`onThresh` leaves out for it, and a WRAP in sample 3, both at `r = 0`. -/
structure ExampleSteps (P : Params) (ν : NanSource) (gA gB : Word) (v : Voice) (wv : Wave) (u : Nat → Voice) :
    Prop where
  rise : ∃ m, u 1 = v.arrive 0x3E800000 m
  thresh : ∃ m, u 2
    = (onThresh P ((ν.sub 1).sub 0) (exampleSample gA gB 1) wv F32.posZero (u 1)).arrive 0x3F000000 m
  hold : ∃ m, u 3 = (u 2).arrive 0x3F400000 m
  wrap : ∃ m, u 4 = (onWrap P ((ν.sub 2).sub 2) (exampleSample gA gB 3) wv F32.posZero (u 3)).arrive F32.posZero m

/-- A THRESH event in section 1 leaves it, but for the sawtooth. -/
theorem onThresh_sect_of_true (P : Params) (ν : NanSource) (e : Sample) (wv : Wave) (r : Word) {v : Voice}
    (h : v.osc.sect = true) : (onThresh P ν e wv r v).osc.sect = decide (wv = .saw) := by
  cases wv with
  | saw => exact h
  | rect | tri | noise | clipped => rfl

theorem exampleRun_steps (P : Params) (ν : NanSource) (role : Role) (gA gB : Word) {v : Voice} (wv : Wave)
    (hpos : v.osc.pos = 0x00000000) (hsect : v.osc.sect = true) :
    ExampleSteps P ν gA gB v wv (exampleRun P ν role gA gB v wv) := by
  have hrun := exampleRun_succ P ν role gA gB v wv
  obtain ⟨m₁, h₁⟩ := exampleStep_from_zero P ν role gA gB 0 wv hpos
  replace h₁ := (hrun 0).trans h₁
  obtain ⟨m₂, h₂⟩ := exampleStep_to_threshold P ν role gA gB 1 wv (congrArg (·.osc.pos) h₁) (h₁ ▸ hsect)
  replace h₂ := (hrun 1).trans h₂
  have hpast : wv = .saw ∨ (exampleRun P ν role gA gB v wv 2).osc.sect = false := by
    rw [h₂]
    exact or_iff_not_imp_left.2 fun hwv => onThresh_sect _ _ _ _ _ _ hwv
  obtain ⟨m₃, h₃⟩ := exampleStep_past_threshold P ν role gA gB 2 wv (congrArg (·.osc.pos) h₂) hpast
  replace h₃ := (hrun 2).trans h₃
  obtain ⟨m₄, h₄⟩ := exampleStep_to_wrap P ν role gA gB 3 wv (congrArg (·.osc.pos) h₃) (h₃ ▸ hpast)
  exact ⟨⟨m₁, h₁⟩, ⟨m₂, h₂⟩, ⟨m₃, h₃⟩, ⟨m₄, (hrun 3).trans h₄⟩⟩

/-! ## The naive values -/

/-- The naive values after the four steps, by the noise levels held. -/
def exampleLevels (n : Nat → Word) : Wave → List Word
  | .saw => [0x3E800000, 0x00000000, 0xBE800000, 0x3F000000]
  | .rect => [0x3F000000, 0xBF000000, 0xBF000000, 0x3F000000]
  | .tri => [0x00000000, 0x3F000000, 0x00000000, 0xBF000000]
  | .noise => [n 0, n 1, n 2, n 3]
  | .clipped => [0x00000000, 0x3F000000, 0x3F000000, 0xBF000000]

theorem naive_exampleLevels (ν : NanSource) (wv : Wave) (n : Nat → Word) :
    [naive ν wv 0x3E800000 true (n 0) 0x3F000000, naive ν wv 0x3F000000 (decide (wv = .saw)) (n 1) 0x3F000000,
      naive ν wv 0x3F400000 (decide (wv = .saw)) (n 2) 0x3F000000, naive ν wv 0x00000000 true (n 3) 0x3F000000]
      = exampleLevels n wv := by
  cases wv with
  | rect | noise => rfl
  | saw | tri | clipped =>
    simp (disch := decide +kernel) only [naive, decide_false, if_true, if_false, reduceCtorEq, Bool.false_eq_true,
      F32.add_eq_of_finite, F32.sub_eq_of_finite, F32.div_eq_pack, exampleLevels]
    decide +kernel

/-! ## What the events place -/

section
variable (P : Params) (ν : NanSource) (e : Sample) (gA gB : Word) (s : Nat) (r : Word) (u : Voice)

theorem buses_onThresh_noise : (onThresh P ν e .noise r u).buses
    = (placeStep P (ν.sub 0) e r (F32.sub (ν.sub 1) (P.noise u.drawIx) u.osc.nval) u).buses := rfl

theorem buses_onWrap_noise : (onWrap P ν e .noise r u).buses
    = (placeStep P (ν.sub 0) e r (F32.sub (ν.sub 1) (P.noise u.drawIx) u.osc.nval) u).buses := rfl

/-- The triangle's slope falls by 1.0 per sample. -/
theorem buses_onThresh_tri : (onThresh P ν (exampleSample gA gB s) .tri r u).buses
    = (placeSlope P (ν.sub 0) (exampleSample gA gB s) r 0xBF800000 u).buses := by
  have hsize : F32.mul (ν.sub 1) 0x3E800000
      (F32.sub (ν.sub 2) (fallSlope (ν.sub 3) 0x3F000000) (riseSlope (ν.sub 4) 0x3F000000)) = 0xBF800000 := by
    simp (disch := decide +kernel) only [fallSlope, riseSlope, F32.sub_eq_of_finite, F32.div_eq_pack, F32.mul_eq_pack]
    decide +kernel
  exact congrArg (fun k => (placeSlope P (ν.sub 0) (exampleSample gA gB s) r k u).buses) hsize

/-- The triangle's slope rises by 1.0 per sample. -/
theorem buses_onWrap_tri : (onWrap P ν (exampleSample gA gB s) .tri r u).buses
    = (placeSlope P (ν.sub 0) (exampleSample gA gB s) r 0x3F800000 u).buses := by
  have hsize : F32.mul (ν.sub 1) 0x3E800000 (F32.add (ν.sub 2) (riseSlope (ν.sub 3) 0x3F000000)
      (F32.div (ν.sub 4) F32.one (F32.sub (ν.sub 5) F32.one 0x3F000000))) = 0x3F800000 := by
    simp (disch := decide +kernel) only [riseSlope, F32.add_eq_of_finite, F32.sub_eq_of_finite, F32.div_eq_pack,
      F32.mul_eq_pack]
    decide +kernel
  exact congrArg (fun k => (placeSlope P (ν.sub 0) (exampleSample gA gB s) r k u).buses) hsize

/-- The clipped saw rises by 0.5 per sample. -/
theorem example_rise : F32.div ν 0x3E800000 0x3F000000 = 0x3F000000 := by
  rw [F32.div_eq_pack ν (by decide) (by decide) (by decide)]
  decide +kernel

theorem buses_onThresh_clipped : (onThresh P ν (exampleSample gA gB s) .clipped r u).buses
    = (placeSlope P (ν.sub 0) (exampleSample gA gB s) r 0xBF000000 u).buses := by
  rw [onThresh, exampleSample, example_rise]
  rfl

theorem buses_onWrap_clipped : (onWrap P ν (exampleSample gA gB s) .clipped r u).buses
    = (placeSlope P (ν.sub 0) (exampleSample gA gB s) r 0x3F000000
      (placeStep P (ν.sub 2) (exampleSample gA gB s) r 0xBF800000 u)).buses := by
  rw [onWrap, exampleSample, example_rise]
  rfl

end

/-! ## What the four steps leave -/

namespace ExampleSteps

variable {P : Params} {ν : NanSource} {gA gB : Word} {v : Voice} {wv : Wave} {u : Nat → Voice}
  (h : ExampleSteps P ν gA gB v wv u)
include h

theorem pos : (u 1).osc.pos = 0x3E800000 ∧ (u 2).osc.pos = 0x3F000000 ∧ (u 3).osc.pos = 0x3F400000
    ∧ (u 4).osc.pos = 0x00000000 := by
  obtain ⟨⟨_, h₁⟩, ⟨_, h₂⟩, ⟨_, h₃⟩, ⟨_, h₄⟩⟩ := h
  exact ⟨h₁ ▸ rfl, h₂ ▸ rfl, h₃ ▸ rfl, h₄ ▸ rfl⟩

theorem sect (hsect : v.osc.sect = true) : (u 1).osc.sect = true ∧ (u 2).osc.sect = decide (wv = .saw)
    ∧ (u 3).osc.sect = decide (wv = .saw) ∧ (u 4).osc.sect = true := by
  obtain ⟨⟨_, h₁⟩, ⟨_, h₂⟩, ⟨_, h₃⟩, ⟨_, h₄⟩⟩ := h
  have hsect₁ : (u 1).osc.sect = true := h₁ ▸ hsect
  have hsect₂ : (u 2).osc.sect = decide (wv = .saw) := h₂ ▸ onThresh_sect_of_true _ _ _ _ _ hsect₁
  exact ⟨hsect₁, hsect₂, h₃ ▸ hsect₂, h₄ ▸ onWrap_sect ..⟩

theorem naive_levels (κ : NanSource) (hsect : v.osc.sect = true) :
    [0, 1, 2, 3].map (fun s => naive κ wv (u (s + 1)).osc.pos (u (s + 1)).osc.sect (u (s + 1)).osc.nval 0x3F000000)
      = exampleLevels (fun s => (u (s + 1)).osc.nval) wv := by
  obtain ⟨hpos₁, hpos₂, hpos₃, hpos₄⟩ := h.pos
  obtain ⟨hsect₁, hsect₂, hsect₃, hsect₄⟩ := h.sect hsect
  rw [← naive_exampleLevels κ wv]
  simp only [List.map, Nat.reduceAdd, hpos₁, hpos₂, hpos₃, hpos₄, hsect₁, hsect₂, hsect₃, hsect₄]

theorem buses : (u 1).buses = v.buses
    ∧ (u 2).buses = (onThresh P ((ν.sub 1).sub 0) (exampleSample gA gB 1) wv F32.posZero (u 1)).buses
    ∧ (u 3).buses = (u 2).buses
    ∧ (u 4).buses = (onWrap P ((ν.sub 2).sub 2) (exampleSample gA gB 3) wv F32.posZero (u 3)).buses := by
  obtain ⟨⟨_, h₁⟩, ⟨_, h₂⟩, ⟨_, h₃⟩, ⟨_, h₄⟩⟩ := h
  refine ⟨?_, ?_, ?_, ?_⟩
  · rw [h₁, Voice.arrive_buses]
  · rw [h₂, Voice.arrive_buses]
  · rw [h₃, Voice.arrive_buses]
  · rw [h₄, Voice.arrive_buses]

/-- The noise takes the first draw at the THRESH and the second at the WRAP, and holds each. -/
theorem noise_levels (hwv : wv = .noise) :
    ((u 1).osc.nval = v.osc.nval ∧ (u 1).drawIx = v.drawIx)
    ∧ (u 2).osc.nval = P.noise v.drawIx
    ∧ ((u 3).osc.nval = P.noise v.drawIx ∧ (u 3).drawIx = v.drawIx + 1)
    ∧ (u 4).osc.nval = P.noise (v.drawIx + 1) := by
  subst hwv
  obtain ⟨⟨_, h₁⟩, ⟨_, h₂⟩, ⟨_, h₃⟩, ⟨_, h₄⟩⟩ := h
  have hdraw₁ : (u 1).drawIx = v.drawIx := h₁ ▸ rfl
  have hnval₂ : (u 2).osc.nval = P.noise v.drawIx := by rw [h₂, ← hdraw₁]; rfl
  have hdraw₂ : (u 2).drawIx = v.drawIx + 1 := by rw [h₂, ← hdraw₁]; rfl
  have hdraw₃ : (u 3).drawIx = v.drawIx + 1 := h₃ ▸ hdraw₂
  exact ⟨⟨h₁ ▸ rfl, hdraw₁⟩, hnval₂, ⟨h₃ ▸ hnval₂, hdraw₃⟩, by rw [h₄, ← hdraw₃]; rfl⟩

end ExampleSteps

end Sys2Proof.Machine
end

section
/-! PROOFS. The statements of spec/44_waveforms.md. -/

namespace Sys2Proof.Machine

open F32 (Within)

/-- Settles O41: each word of the window takes one tap (`placeOn_read_tap`), and no other word takes any. -/
theorem placementAddsTheTaps : Obligations.PlacementAddsTheTaps := by
  intro P ν e r x v hν hs hA hB rom u hu
  have hfits : e.s + P.L ≤ P.busLen := Nat.add_le_add_right hs.le P.L
  have hplaced : v.PlacedFrom P ν rom e r x u := by
    rcases hu with ⟨rfl, rfl⟩ | ⟨rfl, rfl⟩
    · exact placeStep_placedFrom ..
    · exact placeSlope_placedFrom ..
  have hok (i j k : Nat) : NanSource.Ok (((ν.sub i).sub j).sub k) := ((hν.sub i).sub j).sub k
  refine ⟨fun k hk => ⟨_, _, _, hok 0 k 0, hok 0 k 1, hok 0 k 2, ?_⟩,
    fun k hk => ⟨_, _, _, hok 1 k 0, hok 1 k 1, hok 1 k 2, ?_⟩, fun j hj => ⟨?_, ?_⟩, hplaced.frame⟩
  · rw [hplaced.busA, placeOn_read_tap _ _ _ _ _ _ hA hfits hk]
  · rw [hplaced.busB, placeOn_read_tap _ _ _ _ _ _ hB hfits hk]
  · rw [hplaced.busA, placeOn_read_other _ _ _ _ _ _ _ _ _ hj]
  · rw [hplaced.busB, placeOn_read_other _ _ _ _ _ _ _ _ _ hj]

/-- Settles O43: a threshold of R560 is below 1.0, so a phase that wraps has reached it (`threshEvent_sect_of_ge`). -/
theorem wrapFindsSectionZero : Obligations.WrapFindsSectionZero := by
  intro P ν μ e wv x q p rb v hν hth hwv hp u t
  have hreach : F32.ge p e.th = true :=
    F32.le_trans (F32.le_trans (hth ▸ (clampThreshold_range μ q _).2) (by decide)) hp
  have hu : u.osc.sect = false := threshEvent_sect_of_ge P ν rb hwv hreach
  have ht := congrArg Prod.fst (wrapEvent_of_ge P ν (e := e) (wv := wv) rb (v := u) hp)
  have ht' : t.osc.sect = true := (congrArg (·.osc.sect) ht).trans (onWrap_sect ..)
  refine ⟨hu, ht', ?_⟩
  rintro rfl
  refine ⟨?_, ?_, ν.sub 2, _, hν.sub 2, (congrArg Voice.busA ht :), (congrArg Voice.busB ht :)⟩
  · rw [hu]
    rfl
  · rw [ht']
    rfl

/-- Settles O46: by induction on the steps, the phase is `m` exact increments up to 1.0 (`PhaseAt.add_of_lt`), which it
reaches after 2^k of them (`PhaseAt.add_eq_one`) and leaves for +0.0. -/
theorem phasePeriod : Obligations.PhasePeriod := by
  intro P ν e wv v k h1 hk hw hpos move
  have hinc : PhaseAt k 1 e.w := by
    obtain ⟨hfin, hval⟩ := F32.toInt_pack_exponent h1 (hk.trans (by decide))
    exact ⟨hw ▸ hfin, by rw [hw, hval, Nat.one_mul]⟩
  have hstep (m : Nat) : (move^[m + 1] v).osc.pos = _ :=
    (congrArg (·.osc.pos) (Function.iterate_succ_apply' move m v)).trans (advance_pos P ν e wv e.w F32.posZero _)
  have hbelow (m : Nat) (hm : m < 2 ^ k) : PhaseAt k m (move^[m] v).osc.pos := by
    induction m with
    | zero => exact hpos ▸ PhaseAt.zero k
    | succ m ih =>
      obtain ⟨hnext, hlt⟩ := (ih (by omega)).add_of_lt (ν.sub 0) hk hinc hm
      rw [hstep, hlt, if_neg Bool.false_ne_true]
      exact hnext
  refine ⟨?_, fun m _ hm => (hbelow m hm).value⟩
  obtain ⟨m, hm⟩ : ∃ m, 2 ^ k = m + 1 := Nat.exists_eq_succ_of_ne_zero (Nat.two_pow_pos k).ne'
  rw [hm, hstep, (hbelow m (by omega)).add_eq_one (ν.sub 0) hk hinc hm.symm, if_pos (by decide),
    F32.sub_self_of_finite _ F32.finite_one]
  rfl

/-- Settles O58: the reset values are `syncLevel` (`naive_reset`), and the sizes are those of R610, in section 1 and in
section 0. -/
theorem syncPlaces : Obligations.SyncPlaces := by
  intro P ν κ e f x q v hν hw hth
  have hwf : F32.Finite e.w := (hw ▸ clampIncrement_within x).finite F32.finite_posZero F32.finite_half
  have hrange : Within F32.twoPowNeg24 0x3F7FFFFF e.th := hth ▸ clampThreshold_range κ q e.w
  cases hb : v.osc.sect with
  | true =>
    exact ⟨ν.places [[5], [3], [0], [0], [2], [3], [0], [4, 0]], hν.places _,
      onSync_step ν hrange f v hb (.inl rfl) rfl, onSync_step ν hrange f v hb (.inr rfl) (rect_syncJump ..),
      onSync_noise ..,
      fun _ => ⟨syncSlopeSize (ν.sub 4) e .tri true, isZero_syncSlopeSize_rise _ hrange hwf _,
        onSync_stepAndSlope ν hrange f v hb (.inl rfl) rfl rfl,
        onSync_stepAndSlope ν hrange f v hb (.inr rfl) rfl rfl⟩,
      nofun⟩
  | false =>
    exact ⟨ν.places [[5], [3], [0, 0], [0], [2], [3], [0], [4, 0], [4, 1], [4, 2], [4, 3], [4, 4], [4, 4],
        [0, 1], [0, 2]], hν.places _,
      onSync_step ν hrange f v hb (.inl rfl) rfl, onSync_step ν hrange f v hb (.inr rfl) (rect_syncJump ..),
      onSync_noise .., nofun,
      fun _ => ⟨onSync_stepAndSlope ν hrange f v hb (.inl rfl) rfl rfl,
        onSync_stepAndSlope ν hrange f v hb (.inr rfl) (clipped_syncJump ..) (syncSlopeSize_clipped_held _ hrange)⟩⟩

/-- Settles O42: the four steps are those of `exampleRun_steps`; the naive values and the sizes are then computed. -/
theorem naiveExamples : Obligations.NaiveExamples := by
  intro P ν role gA gB v hν hpos hsect hnval e after y buses d₁ d₂
  have hsteps (wv : Wave) := exampleRun_steps P ν role gA gB wv hpos hsect
  have hlevels (wv : Wave) := (hsteps wv).naive_levels ν hsect
  obtain ⟨⟨hn₁, hdraw₁⟩, hn₂, ⟨hn₃, hdraw₃⟩, hn₄⟩ := (hsteps .noise).noise_levels rfl
  rw [hnval] at hn₁
  have hnoise : [0, 1, 2, 3].map (y .noise) = [0x00000000, d₁, d₁, d₂] := by
    refine (hlevels .noise).trans ?_
    simp only [exampleLevels, Nat.reduceAdd, hn₁, hn₂, hn₃, hn₄]
    rfl
  have hquiet (wv : Wave) : buses (after wv 1) = buses v ∧ buses (after wv 3) = buses (after wv 2) := by
    obtain ⟨hrise, -, hhold, -⟩ := (hsteps wv).buses
    exact ⟨hrise, hhold⟩
  have hthresh (wv : Wave) := (hsteps wv).buses.2.1
  have hwrap (wv : Wave) := (hsteps wv).buses.2.2.2
  refine ⟨hlevels .saw, hlevels .rect, hlevels .tri, hnoise, hlevels .clipped, hquiet,
    ν.places [[2, 2], [1, 0], [2, 2], [1, 0, 0], [2, 2, 0], [1, 0, 0], [1, 0, 1], [2, 2, 0], [2, 2, 1], [1, 0, 0],
      [2, 2, 0], [2, 2, 2]], hν.places _, hthresh .saw, hwrap .saw, hthresh .rect, hwrap .rect,
    (hthresh .tri).trans (buses_onThresh_tri ..), (hwrap .tri).trans (buses_onWrap_tri ..),
    (hthresh .noise).trans ?_, (hwrap .noise).trans ?_,
    (hthresh .clipped).trans (buses_onThresh_clipped ..), (hwrap .clipped).trans (buses_onWrap_clipped ..)⟩
  · rw [buses_onThresh_noise, hn₁, hdraw₁]
    rfl
  · rw [buses_onWrap_noise, hn₃, hdraw₃]
    rfl

/-- Settles O56: `naive` is these formulas, with the operations at their own positions. -/
theorem naiveFormulas : Obligations.NaiveFormulas := by
  intro ν p v th b hν
  exact ⟨ν.places [[], [], [], [0], [], [1], [2], [], []], hν.places _, rfl, rfl, rfl, rfl, rfl⟩

/-- Settles O57: `onThresh` and `onWrap` place these sizes, with the operations at their own positions. -/
theorem threshAndWrapPlace : Obligations.ThreshAndWrapPlace := by
  intro P ν e r v hν
  exact ⟨ν.places [[], [0], [1], [2], [3], [3], [4], [0], [1], [0], [1], [], [], [0], [1], [2], [3], [4], [5], [0], [1],
    [0], [1], [2]], hν.places _, rfl, rfl, rfl, rfl, rfl, rfl, rfl, rfl, rfl, rfl⟩

end Sys2Proof.Machine
end

section
/-! PROOFS. Operands that name no register, slot or field, which are BAD_SEL (spec/60_exceptions.md R804). -/

namespace Sys2Proof.Machine

theorem cfgSel_eq_none_iff {sel : Nat} : cfgSel sel = none ↔ 0x10 ≤ sel := by
  simp [cfgSel]

theorem slotSel_eq_none_iff {sel : Nat} : slotSel sel = none ↔ 20 < sel := by
  simp [slotSel, Nat.succ_le_iff]

theorem writableSlot_eq_none_iff {sel : Nat} : writableSlot sel = none ↔ sel = 0 ∨ 20 < sel := by
  simp [writableSlot, slotSel_eq_none_iff, or_iff_not_imp_left]

/-- `aux` names a field of a slot as 0, 1 or 2 (R458). -/
theorem slotField_eq_none_iff {m : ModSlot} {aux : Nat} : slotField m aux = none ↔ 2 < aux := by
  match aux with
  | 0 | 1 | 2 => exact iff_of_false nofun (by decide)
  | n + 3 => exact iff_of_true rfl (by omega)

/-- The reserved register numbers lie after LAST_WAVE and after ID (R104, R108). -/
theorem regRead_eq_none_iff {s : State} {c : Fin 4} {sel : Nat} :
    regRead s c sel = none ↔ (0x15 ≤ sel ∧ sel ≤ 0x1F) ∨ 0x25 ≤ sel := by
  unfold regRead
  split
  next r hsel =>
    have hsel' : sel = r.val := cfgSel_eq_some_iff.1 hsel
    exact iff_of_false nofun (by omega)
  next hsel =>
    have hge : 0x10 ≤ sel := cfgSel_eq_none_iff.1 hsel
    split
    case h_11 => exact iff_of_true rfl (by grind)
    all_goals exact iff_of_false nofun (by decide)

/-- RDMOD of no slot, or of no field of one. -/
theorem exec_rdmod_of_bad {sel aux : Nat} (h : 20 < sel ∨ 2 < aux) (s : State) :
    exec (.rdmod sel aux) s = .next (raiseError .badSel s) := by
  obtain hbad | ⟨i, v, hsel, hfield, -⟩ := execRdmod_cases sel aux s
  · exact hbad
  · obtain hlarge | hlarge := h
    · cases hsel.symm.trans (slotSel_eq_none_iff.2 hlarge)
    · cases hfield.symm.trans (slotField_eq_none_iff.2 hlarge)

end Sys2Proof.Machine
end

section
/-! PROOFS. Which of its two outcomes a command word takes: the error table of spec/60_exceptions.md R802 to R805
(`refusedBit`) held against the meanings of the commands. -/

namespace Sys2Proof.Machine

/-! ## Error codes (R802) -/

theorem ErrorBit.code_lt (e : ErrorBit) : e.code < 5 := by
  cases e <;> decide

theorem ErrorBit.code_injective {e e' : ErrorBit} (h : e.code = e'.code) : e = e' := by
  cases e <;> cases e' <;> cases h <;> rfl

/-! ## The outcome of a command -/

/-- A command raises the error that the table names, or, where the table names none, is consumed with its effect. -/
theorem exec_cases_refusedBit (i : Instr) (s : State) :
    (∃ e : ErrorBit, refusedBit s (.instr i) = some e.code ∧ exec i s = .next (raiseError e s))
    ∨ refusedBit s (.instr i) = none ∧ ∃ u, Effect s i u ∧ exec i s = .next (retire u) := by
  have hslot {sel : Nat} {j : Fin 21} (hsel : writableSlot sel = some j) : ¬ (sel = 0 ∨ 20 < sel) :=
    mt writableSlot_eq_none_iff.2 (hsel.trans_ne (Option.some_ne_none j))
  have hedge (hboundary : atTickBoundary s = true) : ¬ (s.inBurst = true ∨ s.offset ≠ 0) :=
    mt atTickBoundary_eq_false_iff.2 (ne_false_of_eq_true hboundary)
  cases i with
  | nop => exact .inr ⟨rfl, _, .nop, execNop_eq s⟩
  | reset => exact .inr ⟨rfl, _, .reset, execReset_eq s⟩
  | creset c => exact .inr ⟨rfl, _, .creset c, execCreset_eq c s⟩
  | wrcfg c sel data =>
    obtain ⟨hnone, h⟩ | ⟨r, hsel, h⟩ := execWrcfg_cases c sel data s
    · exact .inl ⟨.badSel, if_pos (cfgSel_eq_none_iff.1 hnone), h⟩
    · have hnamed := mt cfgSel_eq_none_iff.2 (hsel.trans_ne (Option.some_ne_none r))
      exact .inr ⟨if_neg hnamed, _, .wrcfg hsel, h⟩
  | rdreg c sel =>
    obtain ⟨hnone, h⟩ | ⟨v, hread, h⟩ := execRdreg_cases c sel s
    · exact .inl ⟨.badSel, if_pos (regRead_eq_none_iff.1 hnone), h⟩
    · have hnamed := mt regRead_eq_none_iff.2 (hread.trans_ne (Option.some_ne_none v))
      exact .inr ⟨if_neg hnamed, _, .rdreg hread, h⟩
  | modinit sel data =>
    obtain ⟨hnone, h⟩ | ⟨j, hsel, hoff, h⟩ | ⟨j, hsel, hboundary, h⟩ := execModinit_cases sel data s
    · exact .inl ⟨.badSel, if_pos (writableSlot_eq_none_iff.1 hnone), h⟩
    · exact .inl ⟨.sequence, (if_neg (hslot hsel)).trans (if_pos (atTickBoundary_eq_false_iff.1 hoff)), h⟩
    · exact .inr ⟨(if_neg (hslot hsel)).trans (if_neg (hedge hboundary)), _, .modinit hsel hboundary, h⟩
  | modtick sel data =>
    obtain ⟨hnone, h⟩ | ⟨j, hsel, hoff, h⟩ | ⟨j, hsel, hboundary, h⟩ := execModtick_cases sel data s
    · exact .inl ⟨.badSel, if_pos (writableSlot_eq_none_iff.1 hnone), h⟩
    · exact .inl ⟨.sequence, (if_neg (hslot hsel)).trans (if_pos (atTickBoundary_eq_false_iff.1 hoff)), h⟩
    · exact .inr ⟨(if_neg (hslot hsel)).trans (if_neg (hedge hboundary)), _, .modtick hsel hboundary, h⟩
  | rdmod sel aux =>
    by_cases hbad : 20 < sel ∨ 2 < aux
    · exact .inl ⟨.badSel, if_pos hbad, exec_rdmod_of_bad hbad s⟩
    · have hsel : sel < 21 := by omega
      obtain ⟨v, hfield⟩ : ∃ v, slotField (modSlot s ⟨sel, hsel⟩) aux = some v :=
        Option.ne_none_iff_exists'.1 (mt slotField_eq_none_iff.1 (not_or.1 hbad).2)
      exact .inr ⟨if_neg hbad, _, .rdmod (slotSel_val ⟨sel, hsel⟩) hfield, exec_rdmod_of_slotField hfield⟩
  | beginBurst n =>
    obtain ⟨hopen, h⟩ | ⟨hclosed, hcount, h⟩ | ⟨hclosed, hcount, h⟩ := execBegin_cases n s
    · exact .inl ⟨.sequence, if_pos hopen, h⟩
    · have hbad := badCount_eq_true_iff.1 hcount
      exact .inl ⟨.badCount, (if_neg (ne_true_of_eq_false hclosed)).trans (if_pos hbad), h⟩
    · have hfits := mt badCount_eq_true_iff.2 (ne_true_of_eq_false hcount)
      exact .inr ⟨(if_neg (ne_true_of_eq_false hclosed)).trans (if_neg hfits), _, .beginBurst hclosed hcount, h⟩
  | render c =>
    obtain ⟨hclosed, h⟩ | ⟨hopen, h⟩ := execRender_cases c s
    · exact .inl ⟨.sequence, if_neg (ne_true_of_eq_false hclosed), h⟩
    · exact .inr ⟨if_pos hopen, _, .render hopen, h⟩
  | endBurst =>
    obtain ⟨hclosed, h⟩ | ⟨hopen, h⟩ := execEnd_cases s
    · exact .inl ⟨.sequence, if_neg (ne_true_of_eq_false hclosed), h⟩
    · exact .inr ⟨if_pos hopen, _, .endBurst hopen, h⟩
  | tick =>
    by_cases hnot : s.inBurst = true ∨ s.offset ≠ 64
    · exact .inl ⟨.sequence, if_pos hnot, exec_tick_of_not_end hnot⟩
    · obtain ⟨hclosed, hoffset⟩ : s.inBurst = false ∧ s.offset = 64 := by simpa using hnot
      have heffect : Effect s .tick { s with offset := 0 } := .tick hclosed (offset_toNat_eq_CP_iff.2 hoffset)
      exact .inr ⟨if_neg hnot, _, heffect, exec_tick_of_end hclosed hoffset⟩

/-- The error that the table names is raised, and nothing else happens (R801). -/
theorem exec_of_refusedBit {i : Instr} {s : State} {e : ErrorBit} (h : refusedBit s (.instr i) = some e.code) :
    exec i s = .next (raiseError e s) := by
  obtain ⟨e', htable, hexec⟩ | ⟨hnone, -⟩ := exec_cases_refusedBit i s
  · cases ErrorBit.code_injective (Option.some.inj (h.symm.trans htable))
    exact hexec
  · cases h.symm.trans hnone

/-! ## The outcome of a command word -/

/-- A word raises the error that the table names, or, where the table names none, it is a command that is consumed with
its effect. -/
theorem runWord_cases (cmd : Cmd) (s : State) :
    (∃ e : ErrorBit, refusedBit s (decode cmd) = some e.code ∧ runWord cmd s = .next (raiseError e s))
    ∨ refusedBit s (decode cmd) = none
      ∧ ∃ i u, decode cmd = .instr i ∧ Effect s i u ∧ runWord cmd s = .next (retire u) := by
  cases hdecode : decode cmd with
  | instr i =>
    rw [runWord_of_decode hdecode]
    obtain herror | ⟨hnone, u, hu, hexec⟩ := exec_cases_refusedBit i s
    · exact .inl herror
    · exact .inr ⟨hnone, i, u, rfl, hu, hexec⟩
  | illegalOp => exact .inl ⟨.illegalOp, rfl, by rw [runWord, hdecode, takeIllegalOp]⟩
  | rsvField => exact .inl ⟨.rsvField, rfl, by rw [runWord, hdecode, takeReservedField]⟩

/-! ## What no effect of a command touches -/

/-- No effect moves the port (notes/assumptions 4) or `pc`, which counts the command apart from it (R101). -/
theorem Effect.pending_pc {s u : State} {i : Instr} (h : Effect s i u) : u.pending = s.pending ∧ u.pc = s.pc := by
  cases h <;> exact ⟨rfl, rfl⟩

/-- RESET clears STATUS, and no other effect writes it (R811). -/
theorem Effect.status_eq {s u : State} {i : Instr} (h : Effect s i u) :
    u.status = if i = .reset then 0 else s.status := by
  cases h with
  | reset => exact (if_pos rfl).symm
  | nop | creset | wrcfg | rdreg | modinit | modtick | rdmod | beginBurst | render | endBurst | tick =>
    exact (if_neg nofun).symm

end Sys2Proof.Machine
end

section
/-! PROOFS. The statements of spec/60_exceptions.md. -/

namespace Sys2Proof.Machine

/-- Settles O11: a word that the table refuses raises that error (`runWord_cases`), and of the others' effects only
RESET's writes STATUS (`Effect.status_eq`). -/
theorem errorsArePrecise : Obligations.ErrorsArePrecise := by
  intro s cmd rest hpending
  have htable : refusedBit { s with pending := rest } (decode cmd) = refusedBit s (decode cmd) := rfl
  rw [step_word hpending, ← htable]
  obtain ⟨e, hrefused, hrun⟩ | ⟨hnone, i, u, hdecode, hu, hrun⟩ := runWord_cases cmd { s with pending := rest }
  · rw [hrefused]
    refine ⟨?_, nofun⟩
    rintro b ⟨⟩
    exact ⟨e.code_lt, hrun⟩
  · rw [hnone]
    refine ⟨nofun, fun _ => ⟨_, hrun, ?_⟩⟩
    simp only [retire_status, hu.status_eq, hdecode, Decoded.instr.injEq]

/-- Settles O10: a word leaves the port before it is run, and whether it raises an error or has an effect it is counted
once. -/
theorem everyStepGoesOn : Obligations.EveryStepGoesOn := by
  intro s
  cases hpending : s.pending with
  | nil => exact ⟨s, step_idle hpending, hpending, rfl⟩
  | cons cmd rest =>
    rw [step_word hpending, if_neg (List.cons_ne_nil cmd rest)]
    obtain ⟨e, -, hrun⟩ | ⟨-, i, u, -, hu, hrun⟩ := runWord_cases cmd { s with pending := rest }
    · exact ⟨_, hrun, raiseError_pending e _, raiseError_pc e _⟩
    · obtain ⟨hport, hpc⟩ := hu.pending_pc
      exact ⟨_, hrun, hport, congrArg (· + 1) hpc⟩

/-- Settles O19: the table's BAD_SEL rows (`exec_of_refusedBit`), which come first in the row of each command. -/
theorem badSelCommandByCommand : Obligations.BadSelCommandByCommand := by
  intro c sel aux data s refused
  have hbad {i : Instr} (h : refusedBit s (.instr i) = some 2) : exec i s = refused :=
    exec_of_refusedBit (e := .badSel) h
  refine ⟨fun h => hbad (if_pos h), fun h => hbad (if_pos ?_), fun h => ⟨hbad (if_pos h), hbad (if_pos h)⟩,
    fun h => hbad (if_pos h)⟩
  exact h.imp_right And.left

/-- Settles O7: with an empty port there is no word to run (`step_idle`). -/
theorem idleUnitHoldsState : Obligations.IdleUnitHoldsState :=
  fun _ => step_idle

end Sys2Proof.Machine
end

section
/-! PROOFS. The state after reset, field by field (spec/70_reset_and_hazards.md R901), and which commands write a
modulation slot (R907). -/

namespace Sys2Proof.Machine

/-! ## The state after reset (R901) -/

theorem cfgRead_reset (c : Fin 4) (r : Fin 16) : cfgRead State.reset c r = 0x00000000 := by
  simp [cfgRead, State.reset, Core.reset]

theorem oscRead_reset (c : Fin 4) : oscRead State.reset c = Osc.reset := by
  simp [oscRead, State.reset, Core.reset]

theorem modSlot_reset (i : Fin 21) :
    modSlot State.reset i = if i = 0 then ModSlot.constantOne else ModSlot.zero := by
  unfold modSlot State.reset
  rw [Fin.getElem_fin, Vector.getElem_set, Vector.getElem_replicate]
  simp only [Fin.ext_iff, eq_comm, Fin.val_zero]

/-- Every bus word is +0.0, since none is listed. -/
theorem busRead_reset (b : Bus) (j : Nat) : busRead State.reset b j = busReset := by
  cases b <;> rfl

/-! ## What RESET makes of a state (R402, R900) -/

theorem resetUnit_cores (s : State) : (resetUnit s).cores = State.reset.cores :=
  Vector.map_const (xs := s.cores) (b := Core.reset)

theorem modSlot_resetUnit (s : State) (i : Fin 21) :
    modSlot (resetUnit s) i = if i = 0 then ModSlot.constantOne else ModSlot.zero := by
  simp [modSlot, resetUnit, ModSlot.constantOne, ModSlot.zero]

theorem resetUnit_mods (s : State) : (resetUnit s).mods = State.reset.mods :=
  Vector.ext fun i hi => (modSlot_resetUnit s ⟨i, hi⟩).trans (modSlot_reset ⟨i, hi⟩).symm

/-- RESET gives the state at power-on, but for `pc`, the words pending at the port and the NOISE source. -/
theorem resetUnit_eq (s : State) :
    resetUnit s = { State.reset with pc := s.pc, pending := s.pending, drawIx := s.drawIx } :=
  calc resetUnit s
    _ = { State.reset with
          pc := s.pc, pending := s.pending, drawIx := s.drawIx
          cores := (resetUnit s).cores, mods := (resetUnit s).mods } := rfl
    _ = _ := by rw [resetUnit_cores, resetUnit_mods]

/-! ## Who writes a modulation slot (R455, R907) -/

/-- MODINIT and MODTICK take effect with no burst open only (R455); of the other commands RESET alone writes the slots. -/
theorem Effect.mods_eq {s u : State} {i : Instr} (h : Effect s i u) (hopen : s.inBurst = true) (hreset : i ≠ .reset) :
    u.mods = s.mods := by
  cases h with
  | modinit _ hboundary | modtick _ hboundary =>
    exact absurd (atTickBoundary_iff.1 hboundary).1 (ne_false_of_eq_true hopen)
  | reset => exact absurd rfl hreset
  | nop | creset | wrcfg | rdreg | rdmod | beginBurst | render | endBurst | tick => rfl

end Sys2Proof.Machine
end

section
/-! PROOFS. The statements of spec/70_reset_and_hazards.md. -/

namespace Sys2Proof.Machine

/-- Settles O13: what RESET makes of the unit (`resetUnit_eq`), and one more command counted. -/
theorem resetEqualsPowerOn : Obligations.ResetEqualsPowerOn :=
  ⟨fun s => (execReset_eq s).trans (congrArg (Host.Outcome.next ∘ retire) (resetUnit_eq s)), rfl⟩

/-- Settles O25: an error sets STATUS only, and `Effect.mods_eq` speaks of the commands that take effect. -/
theorem slotsFixedInOpenBurst : Obligations.SlotsFixedInOpenBurst := by
  intro i s t hopen h hreset
  obtain ⟨e, rfl⟩ | ⟨u, hu, rfl⟩ := eq_of_exec_next h
  · exact raiseError_mods e s
  · exact (retire_mods u).trans (hu.mods_eq hopen hreset)

/-- Settles O14: the registers of the cores, the slots and the memory words by their lemmas, and the rest as
`State.reset` has them. -/
theorem resetValues : Obligations.ResetValues :=
  ⟨cfgRead_reset, oscRead_reset, rfl, rfl, rfl, rfl, fun _ => rfl, rfl, modSlot_reset 0,
    fun i hi => (modSlot_reset i).trans (if_neg hi), busRead_reset, fun _ => rfl, rfl,
    fun s => ⟨_, execReset_eq s, rfl⟩⟩

/-- Settles O50: no memory word is listed, no burst is open, and the cores are as CRESET leaves one. -/
theorem resetMeetsTheInvariant : Obligations.ResetMeetsTheInvariant where
  mem := ⟨Mem.wf_nil _ _, Mem.wf_nil _ _, Mem.wf_nil _ _⟩
  unit := ⟨modSlot_reset 0, offset_zero_position 0, closed_iff_zero, (by decide : 0 < 32)⟩
  sync := ⟨fun _ => exportOk_syncReset, fun _ _ _ => rfl⟩
  osc := State.oscOk_iff.2 fun c => (oscRead_reset c).symm ▸ cresetState_ok Osc.reset

end Sys2Proof.Machine
end
